-- ==== Sys2Proof/Word.lean ====
section
/-!
DEFINITION. The word types of the SF2W model: the byte of every access (R47), the 64-bit host
command word (R76), the 16-bit operand-storage address (R44).
-/

namespace Sys2Proof

/-- One byte: the only access width of every space (R47); bit 7 is the most significant (R10). -/
abbrev Byte := BitVec 8

/-- The host command word (R76), bit 63 most significant. -/
abbrev HostWord := BitVec 64

/-- A byte address in the operand storage `PS` (R44, R78). -/
abbrev PsAddr := BitVec 16

end Sys2Proof
end

