-- ==== Sys2Proof/Config.lean ====
section
/-!
DEFINITION. The parameters of the hardware (R7, R8, R9, R22, R67, R109) and the free values of the
output latches at reset (R31) and of the display RAM at power-up (R34). `State` carries one `Config`, which no step writes,
so a claim about every state is a claim about every value of every parameter (R9).
-/

namespace Sys2Proof

/-- R7 `ROWS`: logical rows, one controller page each. -/
abbrev numRows : Nat := 8
/-- R7 `COLS`: columns. -/
abbrev numCols : Nat := 128
/-- R7 `GLYPH6_W`, also `GLYPH6_STRIDE`: columns and bytes of a glyph of the 8-pixel-tall font. -/
abbrev glyph6Width : Nat := 6
/-- R7 `GLYPH16_W`: columns of a glyph of the 16-pixel-tall font. -/
abbrev glyph16Width : Nat := 8
/-- R7 `GLYPH16_STRIDE`: bytes of a glyph of the 16-pixel-tall font. -/
abbrev glyph16Stride : Nat := 16
/-- R7 `CHAR_BASE`: the code of the character whose glyph index is 0. -/
abbrev charBase : Nat := 32
/-- R35: the bytes of the operand storage `PS`. -/
abbrev psSize : Nat := 65536

/-- The rows of the controller opcode table (R67), by mnemonic and in the table's order. -/
inductive CtrlOp where
  | setcollo | setcolhi | addrmode | setcontrast | chargepump | segremap | invertoff | inverton
  | setmux | dispoff | dispon | setpage | comdir | dispoffset | clkdiv
  deriving DecidableEq, Repr

/-- The `match` column of R67. Each value is a parameter (R67); those R8 names are held here once:
`PAGE_BASE`, `COLHI_BASE`, `COLLO_BASE`, `OP_CONTRAST`, `OP_NORMAL`, `OP_INVERSE`,
`OP_DISPLAY_OFF`, `OP_DISPLAY_ON`. -/
structure OpTable where
  /-- R8 `COLLO_BASE`. -/
  setcollo : Byte
  /-- R8 `COLHI_BASE`. -/
  setcolhi : Byte
  addrmode : Byte
  /-- R8 `OP_CONTRAST`. -/
  setcontrast : Byte
  chargepump : Byte
  segremap : Byte
  /-- R8 `OP_NORMAL`. -/
  invertoff : Byte
  /-- R8 `OP_INVERSE`. -/
  inverton : Byte
  setmux : Byte
  /-- R8 `OP_DISPLAY_OFF`. -/
  dispoff : Byte
  /-- R8 `OP_DISPLAY_ON`. -/
  dispon : Byte
  /-- R8 `PAGE_BASE`. -/
  setpage : Byte
  comdir : Byte
  dispoffset : Byte
  clkdiv : Byte
  deriving DecidableEq, Repr

/-- R9, R156 `COL_OVERFLOW`: what the controller's column pointer does after a write at column 127. -/
inductive ColOverflow where
  | wrap | saturate | discard
  deriving DecidableEq, Repr

/-- Everything that is fixed for the life of the block (R8, R9, R21, R22). -/
structure Config where
  /-- R8 `DEV_ADDR`, the value taken with the strap low. -/
  addrLow : Byte
  /-- R8 `DEV_ADDR`, the value taken with the strap high. -/
  addrHigh : Byte
  /-- R22 `STRAP`: selects TX's `DEV_ADDR`. -/
  strap : Bool
  /-- The strap of the receiver itself, which R142 and R162 allow to disagree with TX's. -/
  rxStrap : Bool
  /-- R8 `CTRL_CMD`. -/
  ctrlCmd : Byte
  /-- R8 `CTRL_DATA`. -/
  ctrlData : Byte
  /-- R8 `DC_BIT`. -/
  dcBit : Fin 8
  /-- R67, with the byte values of R8. -/
  ops : OpTable
  /-- R8, R43, R109 `CMD_TABLE`. -/
  cmdTable : List Byte
  /-- R9 `PMAX_1X`. -/
  pmax1x : Byte
  /-- R9 `PMAX_2X`. -/
  pmax2x : Byte
  /-- R9, R41 `FONT6`. -/
  font6 : List Byte
  /-- R9, R42 `FONT16`. -/
  font16 : List Byte
  /-- R9, R156 `COL_OVERFLOW`. -/
  colOverflow : ColOverflow
  /-- U2: `true` is the reading of R139 (a START inside a frame restarts address reception),
  `false` the cautious one (RX unspecified). -/
  startRestarts : Bool
  /-- U5: `true` is the reading of R150 (`PENDING` survives the end of a frame), `false` the
  cautious one (RX unspecified from a STOP that closes a command frame with `PENDING` set). -/
  pendingSurvives : Bool
  deriving DecidableEq, Repr

/-- The free value of the two output latches after a reset of TX by its reset input, `SCL` first
(R31, R177: "a model draws each freely"), one draw per index. FREE VALUE, log entry 6. -/
opaque Config.freeLatches : Nat → Bool × Bool

/-- The free value of a byte of the display RAM that nothing has written since RX's power-up (R34), or
since RX's state became unspecified (R158, U14): a draw of the whole RAM per first index, the byte of
it by its key. FREE VALUE, log entry 9. -/
opaque Config.freeRam : Nat → Nat → Byte

end Sys2Proof
end

