-- ==== Sys2Proof/Syntax.lean ====
section
/-!
DEFINITION. The instruction set: one constructor per row of spec/opcode_table.json, the 20 host
operations (R77) first, then the 15 controller commands (R67).
-/

namespace Sys2Proof

/-- An instruction of the hardware: an operation HOST issues to TX (R75), or a command of the
controller's opcode set that RX executes (R67). Operands are the unsigned fields of R77 and R67. -/
inductive Instr where
  /-- `BEGIN` (R86): START condition. -/
  | beginSession
  /-- `SENDB value` (R88): one byte cell, most significant bit first. -/
  | sendByte (value : Byte)
  /-- `END` (R90): STOP condition. -/
  | endSession
  /-- `OPENC` (R94): open a command frame. -/
  | openc
  /-- `OPEND` (R95): open a data frame. -/
  | opend
  /-- `CLOSE` (R96): close the frame. -/
  | close
  /-- `CMD1 byte` (R97): a command frame with one payload byte. -/
  | cmd1 (value : Byte)
  /-- `WDATA byte` (R100): one pixel byte, complemented when `DINV` is set. -/
  | wdata (value : Byte)
  /-- `SETPOS row, column` (R103). -/
  | setpos (row column : Byte)
  /-- `INIT` (R108). -/
  | init
  /-- `CONTRAST level` (R111). -/
  | contrast (level : Byte)
  /-- `INVSCR flag` (R112). -/
  | invscr (flag : Byte)
  /-- `SLEEP flag` (R113). -/
  | sleep (flag : Byte)
  /-- `INVDATA flag` (R114). -/
  | invdata (flag : Byte)
  /-- `TEXT row, column, string` (R118). -/
  | text (row column : Byte) (ptr : PsAddr)
  /-- `TEXT2X row, column, string` (R121). -/
  | text2x (row column : Byte) (ptr : PsAddr)
  /-- `FILLSCR byte` (R124). -/
  | fillscr (value : Byte)
  /-- `FILLAREA srow, scol, rows, cols, byte` (R126). -/
  | fillarea (srow scol rows cols value : Byte)
  /-- `FILLPAT srow, scol, rows, cols, plen, pattern` (R129). -/
  | fillpat (srow scol rows cols plen : Byte) (ptr : PsAddr)
  /-- `IMAGE srow, scol, irows, icols, image` (R132). -/
  | image (srow scol irows icols : Byte) (ptr : PsAddr)
  /-- `SETCOLLO` (R153): `op[3:0]`. -/
  | setcollo (low : BitVec 4)
  /-- `SETCOLHI` (R152): `op[3:0]`, of which bit 3 is column bit 7 and has no effect. -/
  | setcolhi (high : BitVec 4)
  /-- `ADDRMODE` (R67, R157), its argument byte. -/
  | addrmode (arg : Byte)
  /-- `SETCONTRAST` (R67, R157), its argument byte. -/
  | setcontrast (arg : Byte)
  /-- `CHARGEPUMP` (R67, R157), its argument byte. -/
  | chargepump (arg : Byte)
  /-- `SEGREMAP` (R67, R157): `op[0]`. -/
  | segremap (remap : Bool)
  /-- `INVERTOFF` (R67, R157). -/
  | invertoff
  /-- `INVERTON` (R67, R157). -/
  | inverton
  /-- `SETMUX` (R67, R157), its argument byte. -/
  | setmux (arg : Byte)
  /-- `DISPOFF` (R67, R157). -/
  | dispoff
  /-- `DISPON` (R67, R157). -/
  | dispon
  /-- `SETPAGE` (R151): `op[2:0]`. -/
  | setpage (page : BitVec 3)
  /-- `COMDIR` (R67, R157): `op[3]`. -/
  | comdir (dir : Bool)
  /-- `DISPOFFSET` (R67, R157), its argument byte. -/
  | dispoffset (arg : Byte)
  /-- `CLKDIV` (R67, R157), its argument byte. -/
  | clkdiv (arg : Byte)
  deriving DecidableEq, Repr

end Sys2Proof
end

