-- ==== Sys2Proof/Decode.lean ====
section
/-!
DEFINITION. The controller opcode table (R67) and the default values of the parameters (R8, R109);
the two encodings (R75 to R82 at the host port, R67 in a command frame): the decoder, total on any
word and any bytes, then the encoder.
-/

namespace Sys2Proof

/-! ### The controller opcode table and the default parameters -/

/-- The rows in the order of R67. -/
def CtrlOp.all : List CtrlOp :=
  [.setcollo, .setcolhi, .addrmode, .setcontrast, .chargepump, .segremap, .invertoff, .inverton,
   .setmux, .dispoff, .dispon, .setpage, .comdir, .dispoffset, .clkdiv]

/-- The `mask` column of R67. -/
def CtrlOp.mask : CtrlOp → Byte
  | .setcollo => 0xF0
  | .setcolhi => 0xF0
  | .segremap => 0xFE
  | .setpage => 0xF8
  | .comdir => 0xF7
  | .addrmode => 0xFF
  | .setcontrast => 0xFF
  | .chargepump => 0xFF
  | .invertoff => 0xFF
  | .inverton => 0xFF
  | .setmux => 0xFF
  | .dispoff => 0xFF
  | .dispon => 0xFF
  | .dispoffset => 0xFF
  | .clkdiv => 0xFF

/-- The `argument bytes` column of R67: whether the row takes one argument byte. -/
def CtrlOp.takesArg : CtrlOp → Bool
  | .addrmode => true
  | .setcontrast => true
  | .chargepump => true
  | .setmux => true
  | .dispoffset => true
  | .clkdiv => true
  | .setcollo => false
  | .setcolhi => false
  | .segremap => false
  | .invertoff => false
  | .inverton => false
  | .dispoff => false
  | .dispon => false
  | .setpage => false
  | .comdir => false

/-- The `match` value of a row. -/
def OpTable.val (t : OpTable) : CtrlOp → Byte
  | .setcollo => t.setcollo
  | .setcolhi => t.setcolhi
  | .addrmode => t.addrmode
  | .setcontrast => t.setcontrast
  | .chargepump => t.chargepump
  | .segremap => t.segremap
  | .invertoff => t.invertoff
  | .inverton => t.inverton
  | .setmux => t.setmux
  | .dispoff => t.dispoff
  | .dispon => t.dispon
  | .setpage => t.setpage
  | .comdir => t.comdir
  | .dispoffset => t.dispoffset
  | .clkdiv => t.clkdiv

/-- The values of spec/opcode_table.json (R67, general knowledge G3 to G5). PRESUMED, log entry 1. -/
def OpTable.std : OpTable where
  setcollo := 0x00
  setcolhi := 0x10
  addrmode := 0x20
  setcontrast := 0x81
  chargepump := 0x8D
  segremap := 0xA0
  invertoff := 0xA6
  inverton := 0xA7
  setmux := 0xA8
  dispoff := 0xAE
  dispon := 0xAF
  setpage := 0xB0
  comdir := 0xC0
  dispoffset := 0xD3
  clkdiv := 0xD5

/-- R109: the default Command Table, 13 bytes (8 commands). PRESUMED, log entry 1. -/
def Config.stdCmdTable : List Byte :=
  [0xA8, 0x3F, 0xA1, 0xC8, 0x20, 0x02, 0x81, 0x7F, 0xD5, 0x80, 0x8D, 0x14, 0xAF]

/-- The parameters State.reset carries: the defaults of R8 and R109 (PRESUMED, log entry 1), and for
the parameters R9 leaves open a value the model names (DESIGN CHOICE, log entry 2). -/
def Config.std : Config where
  addrLow := 0x78
  addrHigh := 0x7A
  strap := false
  rxStrap := false
  ctrlCmd := 0x00
  ctrlData := 0x40
  dcBit := 6
  ops := OpTable.std
  cmdTable := Config.stdCmdTable
  pmax1x := 126
  pmax2x := 127
  font6 := List.replicate (glyph6Width * (126 - 31)) 0
  font16 := List.replicate (glyph16Stride * (127 - 31)) 0
  colOverflow := .wrap
  startRestarts := true
  pendingSurvives := true

/-! ### The decoder -/

/-- The binary form of one instruction: a host command word (R76), or the opcode byte of a
controller command with its argument byte (R66, R67; the argument of a row that takes none is not
read). -/
inductive Code where
  | host (w : HostWord)
  | ctrl (op arg : Byte)
  deriving DecidableEq, Repr

/-- Why a code is not an instruction. -/
inductive DecodeError where
  /-- R80: the operation code is in no row of R77. -/
  | reservedOp
  /-- R68: the opcode byte matches no row of R67. -/
  | unknownOpcode
  /-- R66: a row that takes an argument byte has none. -/
  | argumentMissing
  /-- No byte at all. -/
  | noBytes
  deriving DecidableEq, Repr

namespace HostWord

/-- R76 `op`, bits 63:56. -/
def op (w : HostWord) : Byte := w.extractLsb' 56 8
/-- R76 `a`, bits 55:48. -/
def a (w : HostWord) : Byte := w.extractLsb' 48 8
/-- R76 `b`, bits 47:40. -/
def b (w : HostWord) : Byte := w.extractLsb' 40 8
/-- R76 `c`, bits 39:32. -/
def c (w : HostWord) : Byte := w.extractLsb' 32 8
/-- R76 `d`, bits 31:24. -/
def d (w : HostWord) : Byte := w.extractLsb' 24 8
/-- R76 `e`, bits 23:16. -/
def e (w : HostWord) : Byte := w.extractLsb' 16 8
/-- R76 `ptr`, bits 15:0. -/
def ptr (w : HostWord) : PsAddr := w.extractLsb' 0 16

end HostWord

/-- R77: the operation a host word names; a field its row does not use is ignored (R79), a reserved
`op` is rejected by name (R80). -/
def decodeHost (w : HostWord) : Except DecodeError Instr :=
  if HostWord.op w = 0x01 then .ok .beginSession
  else if HostWord.op w = 0x02 then .ok (.sendByte (HostWord.a w))
  else if HostWord.op w = 0x03 then .ok .endSession
  else if HostWord.op w = 0x10 then .ok .openc
  else if HostWord.op w = 0x11 then .ok .opend
  else if HostWord.op w = 0x12 then .ok .close
  else if HostWord.op w = 0x13 then .ok (.cmd1 (HostWord.a w))
  else if HostWord.op w = 0x14 then .ok (.wdata (HostWord.a w))
  else if HostWord.op w = 0x20 then .ok (.setpos (HostWord.a w) (HostWord.b w))
  else if HostWord.op w = 0x30 then .ok .init
  else if HostWord.op w = 0x31 then .ok (.contrast (HostWord.a w))
  else if HostWord.op w = 0x32 then .ok (.invscr (HostWord.a w))
  else if HostWord.op w = 0x33 then .ok (.sleep (HostWord.a w))
  else if HostWord.op w = 0x34 then .ok (.invdata (HostWord.a w))
  else if HostWord.op w = 0x40 then .ok (.text (HostWord.a w) (HostWord.b w) (HostWord.ptr w))
  else if HostWord.op w = 0x41 then .ok (.text2x (HostWord.a w) (HostWord.b w) (HostWord.ptr w))
  else if HostWord.op w = 0x42 then .ok (.fillscr (HostWord.a w))
  else if HostWord.op w = 0x43 then
    .ok (.fillarea (HostWord.a w) (HostWord.b w) (HostWord.c w) (HostWord.d w) (HostWord.e w))
  else if HostWord.op w = 0x44 then
    .ok (.fillpat (HostWord.a w) (HostWord.b w) (HostWord.c w) (HostWord.d w) (HostWord.e w)
      (HostWord.ptr w))
  else if HostWord.op w = 0x45 then
    .ok (.image (HostWord.a w) (HostWord.b w) (HostWord.c w) (HostWord.d w) (HostWord.ptr w))
  else .error .reservedOp

/-- R148: the row an opcode byte matches. The spec does not say what happens where the opcode values are
such that a byte matches two rows: the first one in the order of R67 is taken (DESIGN CHOICE, log entry
21). -/
def OpTable.find (t : OpTable) (op : Byte) : Option CtrlOp :=
  CtrlOp.all.find? fun k => op &&& k.mask == t.val k

/-- The instruction of a row, its operand read from the opcode byte or from the argument byte
(`effect` column of R67). -/
def CtrlOp.instr (k : CtrlOp) (op arg : Byte) : Instr :=
  match k with
  | .setcollo => .setcollo (op.extractLsb' 0 4)
  | .setcolhi => .setcolhi (op.extractLsb' 0 4)
  | .addrmode => .addrmode arg
  | .setcontrast => .setcontrast arg
  | .chargepump => .chargepump arg
  | .segremap => .segremap (op.getLsbD 0)
  | .invertoff => .invertoff
  | .inverton => .inverton
  | .setmux => .setmux arg
  | .dispoff => .dispoff
  | .dispon => .dispon
  | .setpage => .setpage (op.extractLsb' 0 3)
  | .comdir => .comdir (op.getLsbD 3)
  | .dispoffset => .dispoffset arg
  | .clkdiv => .clkdiv arg

/-- R66, R148, R149: the first controller command of a list of command bytes, and the bytes after
it. -/
def decodeBytes (t : OpTable) (bytes : List Byte) : Except DecodeError (Instr × List Byte) :=
  match bytes with
  | [] => .error .noBytes
  | op :: rest =>
    match t.find op with
    | none => .error .unknownOpcode
    | some k =>
      if k.takesArg then
        match rest with
        | [] => .error .argumentMissing
        | arg :: rest' => .ok (k.instr op arg, rest')
      else .ok (k.instr op 0, rest)

/-- The instruction of a code. -/
def decode (t : OpTable) (c : Code) : Except DecodeError Instr :=
  match c with
  | .host w => decodeHost w
  | .ctrl op arg => (decodeBytes t [op, arg]).map Prod.fst

/-- R98, R109: a payload cut into complete commands; none where an opcode is in no row or the last
command lacks its argument. -/
def OpTable.parse (t : OpTable) : List Byte → Option (List Instr)
  | [] => some []
  | op :: rest =>
    match t.find op with
    | none => none
    | some k =>
      if k.takesArg then
        match rest with
        | [] => none
        | arg :: rest' => (t.parse rest').map (k.instr op arg :: ·)
      else (t.parse rest).map (k.instr op 0 :: ·)

/-- The host word with the given fields (R76). -/
def HostWord.pack (op a b c d e : Byte) (ptr : PsAddr) : HostWord :=
  op ++ a ++ b ++ c ++ d ++ e ++ ptr

/-- A bit as the operand bit 0 of an opcode byte. -/
def bitByte (b : Bool) : Byte := if b then 1 else 0

/-- The code of an instruction: R76 and R77 for a host operation (unused fields zero), R67 for a
controller command (no argument byte: zero). -/
def encode (t : OpTable) (i : Instr) : Code :=
  match i with
  | .beginSession => .host (HostWord.pack 0x01 0 0 0 0 0 0)
  | .sendByte v => .host (HostWord.pack 0x02 v 0 0 0 0 0)
  | .endSession => .host (HostWord.pack 0x03 0 0 0 0 0 0)
  | .openc => .host (HostWord.pack 0x10 0 0 0 0 0 0)
  | .opend => .host (HostWord.pack 0x11 0 0 0 0 0 0)
  | .close => .host (HostWord.pack 0x12 0 0 0 0 0 0)
  | .cmd1 v => .host (HostWord.pack 0x13 v 0 0 0 0 0)
  | .wdata v => .host (HostWord.pack 0x14 v 0 0 0 0 0)
  | .setpos row column => .host (HostWord.pack 0x20 row column 0 0 0 0)
  | .init => .host (HostWord.pack 0x30 0 0 0 0 0 0)
  | .contrast level => .host (HostWord.pack 0x31 level 0 0 0 0 0)
  | .invscr flag => .host (HostWord.pack 0x32 flag 0 0 0 0 0)
  | .sleep flag => .host (HostWord.pack 0x33 flag 0 0 0 0 0)
  | .invdata flag => .host (HostWord.pack 0x34 flag 0 0 0 0 0)
  | .text row column ptr => .host (HostWord.pack 0x40 row column 0 0 0 ptr)
  | .text2x row column ptr => .host (HostWord.pack 0x41 row column 0 0 0 ptr)
  | .fillscr v => .host (HostWord.pack 0x42 v 0 0 0 0 0)
  | .fillarea srow scol rows cols v => .host (HostWord.pack 0x43 srow scol rows cols v 0)
  | .fillpat srow scol rows cols plen ptr => .host (HostWord.pack 0x44 srow scol rows cols plen ptr)
  | .image srow scol irows icols ptr => .host (HostWord.pack 0x45 srow scol irows icols 0 ptr)
  | .setcollo low => .ctrl (t.setcollo ||| low.setWidth 8) 0
  | .setcolhi high => .ctrl (t.setcolhi ||| high.setWidth 8) 0
  | .addrmode arg => .ctrl t.addrmode arg
  | .setcontrast arg => .ctrl t.setcontrast arg
  | .chargepump arg => .ctrl t.chargepump arg
  | .segremap remap => .ctrl (t.segremap ||| bitByte remap) 0
  | .invertoff => .ctrl t.invertoff 0
  | .inverton => .ctrl t.inverton 0
  | .setmux arg => .ctrl t.setmux arg
  | .dispoff => .ctrl t.dispoff 0
  | .dispon => .ctrl t.dispon 0
  | .setpage page => .ctrl (t.setpage ||| page.setWidth 8) 0
  | .comdir dir => .ctrl (t.comdir ||| bitByte dir <<< 3) 0
  | .dispoffset arg => .ctrl t.dispoffset arg
  | .clkdiv arg => .ctrl t.clkdiv arg

/-- The code whose bits spec/opcode_table.json numbers as `w`: 64-bit rows are host words; of the
8-bit rows the first byte is the opcode and the next, if the row takes one, the argument. Bits at
`nbits` and above are 0. -/
def Code.ofTableWord (nbits w : Nat) : Code :=
  if nbits = 64 then .host (BitVec.ofNat 64 w)
  else .ctrl (BitVec.ofNat 8 (w % 2 ^ nbits)) (BitVec.ofNat 8 (w % 2 ^ nbits / 256))

/-- The instruction the decoder reads from a row's word, the opcode table's own values standing
(R67, `OpTable.std`). -/
def decodeTableWord (nbits w : Nat) : Option Instr :=
  (decode OpTable.std (Code.ofTableWord nbits w)).toOption

end Sys2Proof
end

