-- ==== Sys2Proof/Machine/State.lean ====
section
/-!
DEFINITION. The machine's state: TX (R15 to R18, R19), RX (R23 to R27), the operand storage (R44),
the parameters (R8, R9) and the inputs still to be taken (R13, R20); the reasons a step can stop
(R175); the state after reset (R29 to R34).
-/

namespace Sys2Proof

namespace Machine

/-- The two output lines (R15): the source's CLOCK and DATA. -/
inductive Line where
  | scl | sda
  deriving DecidableEq, Repr

/-- The level of a line as RX sees it (R16): `z` where TX does not drive it. -/
inductive Level where
  | z | lo | hi
  deriving DecidableEq, Repr

/-- A line state (R12, R55). -/
structure LineState where
  scl : Level
  sda : Level
  deriving DecidableEq, Repr

/-- A pin event of TX (R11, R19): `W(L,b)` or `OE(L)`. -/
inductive Event where
  | write (l : Line) (b : Bool)
  | enable (l : Line)
  deriving DecidableEq, Repr

/-- The output latches and output enables (R15). -/
@[ext]
structure Pins where
  latchScl : Bool
  latchSda : Bool
  oeScl : Bool
  oeSda : Bool
  deriving DecidableEq, Repr

/-- The frame phase of RX (R25). -/
inductive RxPhase where
  | idle | addr | ctrl | cmd | data | ignore
  deriving DecidableEq, Repr, Inhabited

/-- The registers of RX: wire decoder (R25), command parser (R26), cursor (R24, R156) and mode
registers (R27). -/
@[ext]
structure RxRegs where
  /-- R25 `RXPHASE`. -/
  phase : RxPhase
  /-- R25 `SHIFT`. -/
  shift : Byte
  /-- R25 `SLOT`, 0..8. -/
  slot : Fin 9
  /-- R26 `PENDING`: the opcode whose argument byte is still expected. -/
  pending : Option Byte
  /-- R24 `PAGE`. -/
  page : BitVec 3
  /-- R24 `COL`. -/
  col : BitVec 7
  /-- R156: the cursor is marked overflowed. -/
  overflowed : Bool
  /-- R27 `CONTRAST`. -/
  contrast : Byte
  /-- R27 `INVERSE`. -/
  inverse : Bool
  /-- R27 `DISPLAY_ON`. -/
  displayOn : Bool
  /-- R27, R67 `ADDR_MODE`: 0 horizontal, 1 vertical, 2 page. -/
  addrMode : BitVec 2
  /-- R27, R67 `MUX_RATIO`. -/
  muxRatio : BitVec 6
  /-- R27, R67 `SEG_REMAP`. -/
  segRemap : Bool
  /-- R27, R67 `COM_DIR`. -/
  comDir : Bool
  /-- R27, R67 `DISP_OFFSET`. -/
  dispOffset : BitVec 6
  /-- R27, R67 `CLK_DIV`. -/
  clkDiv : Byte
  /-- R27, R67 `CHARGE_PUMP`. -/
  chargePump : Byte
  deriving DecidableEq, Repr, Inhabited

end Machine

/-- The free value of all RX registers, one draw per index: what an RX whose state the spec leaves
unspecified holds (R158, U3, U4), and, field by field, the cursor where R154 gives none.
FREE VALUE, log entries 7 and 8. -/
opaque Config.freeRx : Nat → Machine.RxRegs

namespace Machine

/-- The receiver (R23 to R28). -/
@[ext]
structure Rx where
  /-- R25 `PREV`: the last line state RX observed. -/
  prev : LineState
  regs : RxRegs
  /-- R23 `RAM[p][c]` as cells keyed by `128 * p + c`, in canonical form: the bytes written. A byte
  of no cell is the free value `Config.freeRam` at `ramDraw` (R34). -/
  ram : List Host.Cell
  /-- The model's own field: the index of the draw of `Config.freeRam` that RAM holds. -/
  ramDraw : Nat
  /-- R158: the state of RX is marked unspecified. -/
  unspecified : Bool
  /-- R168, U14: RX is unspecified only because an operation was stopped, and a STOP ends that. -/
  untilStop : Bool
  /-- The model's own field: the index of the next draw of `Config.freeRx`. -/
  draws : Nat
  deriving DecidableEq, Repr

/-- What the outside world does to the machine, one step each (R13, R20). -/
inductive Input where
  /-- HOST issues an operation (R20, R76), or a controller command as a command frame of its own
  (R66, R98; log entry 5). -/
  | issue (c : Code)
  /-- HOST issues an operation and the platform stops it after its first `k` events (R168). -/
  | abandon (k : Nat) (w : HostWord)
  /-- The reset input of TX, between two operations (R177, R179). -/
  | txReset
  /-- HOST issues an operation, and the reset input of TX, which is asynchronous, comes after its
  first `k` events (R177, R179). -/
  | resetDuring (k : Nat) (w : HostWord)
  /-- RX's own power-up, between two operations (R34, R179). -/
  | rxPowerUp
  /-- HOST issues an operation, and RX powers up after its first `k` events (R34, R179). -/
  | powerUpDuring (k : Nat) (w : HostWord)
  deriving DecidableEq, Repr

/-- The state of the machine. -/
@[ext]
structure State where
  /-- The parameters (R8, R9). No step writes them. -/
  cfg : Config
  /-- R35, R44: the operand storage `PS` as cells in canonical form. No step writes it (R53). -/
  ps : List Host.Cell
  /-- R15 `LATCH`, `OE`. -/
  pins : Pins
  /-- R17 `DINV`. -/
  dinv : Bool
  /-- R19: the events since reset, oldest first. -/
  trace : List Event
  /-- R13: the receiver. -/
  rx : Rx
  /-- R13, R20: what is still to be taken, next first. -/
  inputs : List Input
  /-- The model's own field: the index of the next draw of `Config.freeLatches`. -/
  draws : Nat
  deriving DecidableEq, Repr

/-- Why the machine stops with a fault. R161, R175: there is no fault outcome, so there is no
constructor. -/
inductive Fault where
  deriving DecidableEq, Repr

/-- Why a step is refused (R175). Each is safe: the model stops where a real driver may go on. -/
inductive Refusal where
  /-- Raised by `exec` for an instruction that has no meaning yet (none is left). Safe. -/
  | notModelled (mnemonic : String)
  /-- Raised by `step` for a host word with a reserved `op` (R80, R175). Safe. -/
  | reservedOp
  /-- Raised by `FILLPAT` with `plen` = 0 (R128, R175). Safe. -/
  | patternLengthZero
  /-- Raised by `TEXT`, `TEXT2X`, `FILLPAT`, `IMAGE` whose operand list runs past the end of `PS`
  (R44, R175). Safe. -/
  | operandPastPs
  /-- Raised by `TEXT`, `TEXT2X` for a glyph beyond the end of the font table (R44, R175). Safe. -/
  | glyphPastFont
  deriving DecidableEq, Repr

/-- The RX registers after reset: `RXPHASE` idle and `PENDING` none (R34); every other register at
the value the controller family takes at its own reset (G12), `SHIFT` and `SLOT` at zero. PRESUMED
and DESIGN CHOICE, log entry 4. -/
def RxRegs.reset : RxRegs where
  phase := .idle
  shift := 0
  slot := 0
  pending := none
  page := 0
  col := 0
  overflowed := false
  contrast := 0x7F
  inverse := false
  displayOn := false
  addrMode := 2
  muxRatio := 0x3F
  segRemap := false
  comDir := false
  dispOffset := 0
  clkDiv := 0x80
  chargePump := 0x10

/-- RX after reset: it has seen the line state (Z,Z) (R32), and every byte of its RAM is a free value
(R34). -/
def Rx.reset : Rx where
  prev := ⟨.z, .z⟩
  regs := RxRegs.reset
  ram := []
  ramDraw := 0
  unspecified := false
  untilStop := false
  draws := 0

/-- R30: the output enables are 0. R31 leaves the latches unspecified, and the model names 0
(DESIGN CHOICE, log entry 3). -/
def Pins.reset : Pins where
  latchScl := false
  latchSda := false
  oeScl := false
  oeSda := false

/-- The machine right after reset (R29 to R34, R176 to R178). -/
def State.reset : State where
  cfg := Config.std
  ps := []
  pins := Pins.reset
  dinv := false
  trace := []
  rx := Rx.reset
  inputs := []
  draws := 0

end Machine

end Sys2Proof
end

