-- ==== Sys2Proof/Machine/Flags.lean ====
section
/-!
DEFINITION. The one flag of the hardware, `DINV` (R17). There are no condition codes.
-/

namespace Sys2Proof

namespace Machine

/-- R70, R100: the byte on the wire for a pixel byte, complemented when `DINV` is set. -/
def pixelByte (dinv : Bool) (v : Byte) : Byte := v ^^^ (if dinv then 0xFF else 0x00)

/-- R114: `DINV` set to a value (it does not flip, conflict C6). -/
def State.setDinv (s : State) (b : Bool) : State := { s with dinv := b }

end Machine

end Sys2Proof
end

