-- ==== Sys2Proof/Machine/Ops.lean ====
section
/-!
DEFINITION. The named operations over memory, pins and the RX registers: the five address spaces
(R35 to R44), the output lines (R15, R16), the cursor and the display RAM (R151 to R156), the
unspecified RX (R158). There is no exception to take and none to return from (R161, R166, R167).
-/

namespace Sys2Proof

/-! ### Addresses on the wire -/

/-- R22, R62: the address byte TX sends. -/
def Config.devAddr (c : Config) : Byte := if c.strap then c.addrHigh else c.addrLow

/-- R142: the address byte RX answers to. -/
def Config.rxAddr (c : Config) : Byte := if c.rxStrap then c.addrHigh else c.addrLow

namespace Machine

/-! ### Address spaces -/

/-- The address spaces of R35. -/
inductive Space where
  | disp | font6 | font16 | cmdtab | ps
  deriving DecidableEq, Repr

namespace Memory

/-- What an unlisted address of a space held as cells reads as: of `DISP` no byte of its own, since its
contents at power-up are unspecified (R34; `Rx.ramByte` then reads a free value); of `PS` the byte 0,
since the platform placed nothing there (DESIGN CHOICE, log entry 9). -/
def unlisted : Space → Option Byte
  | .disp => none
  | .font6 => none
  | .font16 => none
  | .cmdtab => none
  | .ps => some 0

/-- The number of addresses of a space held as cells (R23, R35). -/
def size : Space → Nat
  | .disp => numRows * numCols
  | .font6 => 0
  | .font16 => 0
  | .cmdtab => 0
  | .ps => psSize

/-- The byte listed at an address. -/
def find : List Host.Cell → Nat → Option Byte
  | [], _ => none
  | (b, v) :: m, a => if a = b then some v else find m a

/-- The byte an address reads as. -/
def read (sp : Space) (m : List Host.Cell) (a : Nat) : Option Byte :=
  match find m a with
  | some v => some v
  | none => unlisted sp

/-- A cell, or no cell where the byte is what an unlisted address reads as. -/
def cell (sp : Space) (a : Nat) (v : Byte) : List Host.Cell :=
  if some v = unlisted sp then [] else [(a, v)]

/-- Write one byte, keeping the addresses strictly rising. -/
def write (sp : Space) : List Host.Cell → Nat → Byte → List Host.Cell
  | [], a, v => cell sp a v
  | (b, w) :: m, a, v =>
    if a < b then cell sp a v ++ (b, w) :: m
    else if a = b then cell sp a v ++ m
    else (b, w) :: write sp m a v

/-- The addresses rise strictly, the first at least `lo`. -/
def risingFrom (lo : Nat) : List Host.Cell → Bool
  | [] => true
  | (a, _) :: m => lo ≤ a && risingFrom (a + 1) m

/-- A cell lies in the space and holds what an unlisted address does not read as. -/
def cellOk (sp : Space) (x : Host.Cell) : Bool :=
  x.1 < size sp && some x.2 != unlisted sp

/-- The canonical form. -/
def wf (sp : Space) (m : List Host.Cell) : Bool :=
  risingFrom 0 m && m.all (cellOk sp)

end Memory

/-- The key of `RAM[p][c]` (R36: a pair, never a linear address; the key is the model's own). -/
def dispKey (p : BitVec 3) (c : BitVec 7) : Nat := numCols * p.toNat + c.toNat

/-- `RAM[p][c]` (R23): the byte last written there, or the free value that RAM held before (R34). -/
def Rx.ramByte (r : Rx) (p : BitVec 3) (c : BitVec 7) : Byte :=
  (Memory.read .disp r.ram (dispKey p c)).getD (Config.freeRam r.ramDraw (dispKey p c))

/-- `RAM[p][c]` of the machine's receiver. -/
def State.ram (s : State) (p : BitVec 3) (c : BitVec 7) : Byte := s.rx.ramByte p c

/-- The byte `PS` holds at an address below its end. -/
def psByte (ps : List Host.Cell) (a : Nat) : Byte := (Memory.read .ps ps a).getD 0

/-- R44 `MemRead(space, addr, 1)`: no value beyond the end of the space, and none of `DISP`, which
TX cannot read (R38). -/
def State.memRead (s : State) (sp : Space) (a : Nat) : Option Byte :=
  match sp with
  | .disp => none
  | .font6 => s.cfg.font6[a]?
  | .font16 => s.cfg.font16[a]?
  | .cmdtab => s.cfg.cmdTable[a]?
  | .ps => if a < psSize then some (psByte s.ps a) else none

/-- `n` reads at rising addresses; none where one of them is beyond the end. -/
def State.memReads (s : State) (sp : Space) : Nat → Nat → Option (List Byte)
  | _, 0 => some []
  | a, n + 1 =>
    match s.memRead sp a, s.memReads sp (a + 1) n with
    | some v, some vs => some (v :: vs)
    | _, _ => none

/-- The operand storage after the platform placed bytes there before the run (R39, R53). No step
calls it. -/
def State.placePs (s : State) : Nat → List Byte → State
  | _, [] => s
  | a, v :: vs => State.placePs { s with ps := Memory.write .ps s.ps a v } (a + 1) vs

/-! ### Output lines -/

/-- R15: set-output-mode, set-high, set-low. -/
def Pins.apply (p : Pins) : Event → Pins
  | .write .scl b => { p with latchScl := b }
  | .write .sda b => { p with latchSda := b }
  | .enable .scl => { p with oeScl := true }
  | .enable .sda => { p with oeSda := true }

/-- The pins after a list of events. -/
def Pins.applyAll (p : Pins) (es : List Event) : Pins := es.foldl Pins.apply p

/-- R16: the level of a line with a given output enable and latch. -/
def levelOf (oe latch : Bool) : Level :=
  if oe then (if latch then .hi else .lo) else .z

/-- R16: the line state RX sees. -/
def Pins.wire (p : Pins) : LineState :=
  ⟨levelOf p.oeScl p.latchScl, levelOf p.oeSda p.latchSda⟩

/-- Both lines are driven. -/
def LineState.driven (q : LineState) : Bool := q.scl != .z && q.sda != .z

/-- The pins at rest between frames (R55, R90). -/
def Pins.idle : Pins := ⟨true, true, true, true⟩

/-- The idle line state (R55). -/
def LineState.idle : LineState := ⟨.hi, .hi⟩

/-! ### The registers of RX -/

/-- Change RX's registers. -/
def Rx.update (r : Rx) (f : RxRegs → RxRegs) : Rx := { r with regs := f r.regs }

/-- RX's registers and its RAM drawn anew: what any reaction of an RX whose state is unspecified
leaves (R158, U3, U4). -/
def Rx.redraw (r : Rx) : Rx :=
  { r with
    regs := Config.freeRx r.draws
    ram := []
    ramDraw := r.ramDraw + 1
    draws := r.draws + 1 }

/-- R158: RX's state is unspecified from here on. -/
def Rx.lose (r : Rx) : Rx := { r.redraw with unspecified := true, untilStop := false }

/-- RX's state is unspecified for good: no STOP ends it (R158). -/
def Rx.lost (r : Rx) : Bool := r.unspecified && !r.untilStop

/-- U14: an operation was stopped, and RX may hold any value until a `CLOSE` and a `SETPOS`.
`ADDR_MODE` alone is kept, since R168 has `SETPOS` restore a known cursor, which R154 grants in page
addressing mode only (DEDUCED, log entry 15). -/
def Rx.drift (r : Rx) : Rx :=
  { r.redraw with
    regs := { Config.freeRx r.draws with addrMode := r.regs.addrMode }
    unspecified := true
    untilStop := true }

/-- A value of `PENDING` that R148 can give: an opcode of the table that takes an argument, or none. -/
def legalPending (c : Config) (p : Option Byte) : Option Byte :=
  match p with
  | none => none
  | some op =>
    match c.ops.find op with
    | none => none
    | some k => if k.takesArg then some op else none

/-- R168: a STOP brings an RX that a stopped operation left at any value to `idle` (R146). `PENDING`
may still be set; every other register and RAM stay free. -/
def Rx.recover (r : Rx) (c : Config) : Rx :=
  { r.drift with
    regs := { r.drift.regs with
      phase := .idle
      slot := 0
      pending := legalPending c r.drift.regs.pending }
    unspecified := false
    untilStop := false }

/-- R154: the controller is in page addressing mode. -/
def Rx.pageMode (r : Rx) : Bool := r.regs.addrMode == 2

/-- The cursor where R154 gives none: a free draw of `PAGE`, `COL` and the overflow mark. -/
def Rx.freeCursor (r : Rx) : Rx :=
  { r with
    regs := { r.regs with
      page := (Config.freeRx r.draws).page
      col := (Config.freeRx r.draws).col
      overflowed := (Config.freeRx r.draws).overflowed }
    draws := r.draws + 1 }

/-- R151: `PAGE <- page` in page addressing mode. -/
def Rx.setPage (r : Rx) (page : BitVec 3) : Rx :=
  if r.pageMode then r.update fun g => { g with page := page } else r.freeCursor

/-- R152: `COL[6:4] <- high[2:0]` in page addressing mode; R156: the overflow mark is cleared. -/
def Rx.setColHigh (r : Rx) (high : BitVec 4) : Rx :=
  if r.pageMode then
    r.update fun g =>
      { g with col := high.extractLsb' 0 3 ++ g.col.extractLsb' 0 4, overflowed := false }
  else r.freeCursor

/-- R153: `COL[3:0] <- low` in page addressing mode; R156: the overflow mark is cleared. -/
def Rx.setColLow (r : Rx) (low : BitVec 4) : Rx :=
  if r.pageMode then
    r.update fun g => { g with col := g.col.extractLsb' 4 3 ++ low, overflowed := false }
  else r.freeCursor

/-- Write one byte of the display RAM. -/
def Rx.writeRam (r : Rx) (page : BitVec 3) (col : BitVec 7) (v : Byte) : Rx :=
  { r with ram := Memory.write .disp r.ram (dispKey page col) v }

/-- R155, R156: the column pointer after a data write. -/
def advanceCol (o : ColOverflow) (g : RxRegs) : RxRegs :=
  if g.col.toNat < 127 then { g with col := g.col + 1 }
  else
    match o with
    | .wrap => { g with col := 0 }
    | .saturate => g
    | .discard => { g with overflowed := true }

/-- R155, R156: a data byte received. In page addressing mode it is written at the cursor, which
then advances, or dropped when the cursor is overflowed. R156 sets the overflow mark under `discard`
only; under `wrap` and `saturate` a mark that a free draw has set means nothing and the byte is
written (DESIGN CHOICE, log entry 20). In any other mode R154 gives neither the place the byte is
written nor the cursor after it: both are free draws. -/
def Rx.dataByte (r : Rx) (o : ColOverflow) (v : Byte) : Rx :=
  if r.pageMode then
    if r.regs.overflowed && o == .discard then r
    else (r.writeRam r.regs.page r.regs.col v).update (advanceCol o)
  else ((r.freeCursor).writeRam r.freeCursor.regs.page r.freeCursor.regs.col v).freeCursor

end Machine

end Sys2Proof
end

