-- ==== Sys2Proof/Machine/Command.lean ====
section
/-!
DEFINITION. The 15 controller commands (R67, R148 to R158): the effect of each on RX.
-/

namespace Sys2Proof

namespace Machine

/-- R153. -/
def Rx.doSetcollo (low : BitVec 4) (r : Rx) : Rx := r.setColLow low
/-- R152. -/
def Rx.doSetcolhi (high : BitVec 4) (r : Rx) : Rx := r.setColHigh high
/-- R67: `ADDR_MODE <- arg[1:0]`. -/
def Rx.doAddrmode (arg : Byte) (r : Rx) : Rx :=
  r.update fun g => { g with addrMode := arg.extractLsb' 0 2 }
/-- R67: `CONTRAST <- arg`. -/
def Rx.doSetcontrast (arg : Byte) (r : Rx) : Rx := r.update fun g => { g with contrast := arg }
/-- R67: `CHARGE_PUMP <- arg`. -/
def Rx.doChargepump (arg : Byte) (r : Rx) : Rx := r.update fun g => { g with chargePump := arg }
/-- R67: `SEG_REMAP <- op[0]`. -/
def Rx.doSegremap (remap : Bool) (r : Rx) : Rx := r.update fun g => { g with segRemap := remap }
/-- R67: `INVERSE <- 0`. -/
def Rx.doInvertoff (r : Rx) : Rx := r.update fun g => { g with inverse := false }
/-- R67: `INVERSE <- 1`. -/
def Rx.doInverton (r : Rx) : Rx := r.update fun g => { g with inverse := true }
/-- R67: `MUX_RATIO <- arg[5:0]`. -/
def Rx.doSetmux (arg : Byte) (r : Rx) : Rx :=
  r.update fun g => { g with muxRatio := arg.extractLsb' 0 6 }
/-- R67: `DISPLAY_ON <- 0`. -/
def Rx.doDispoff (r : Rx) : Rx := r.update fun g => { g with displayOn := false }
/-- R67: `DISPLAY_ON <- 1`. -/
def Rx.doDispon (r : Rx) : Rx := r.update fun g => { g with displayOn := true }
/-- R151. -/
def Rx.doSetpage (page : BitVec 3) (r : Rx) : Rx := r.setPage page
/-- R67: `COM_DIR <- op[3]`. -/
def Rx.doComdir (dir : Bool) (r : Rx) : Rx := r.update fun g => { g with comDir := dir }
/-- R67: `DISP_OFFSET <- arg[5:0]`. -/
def Rx.doDispoffset (arg : Byte) (r : Rx) : Rx :=
  r.update fun g => { g with dispOffset := arg.extractLsb' 0 6 }
/-- R67: `CLK_DIV <- arg`. -/
def Rx.doClkdiv (arg : Byte) (r : Rx) : Rx := r.update fun g => { g with clkDiv := arg }

/-- The effect of a decoded command on RX (R148, R149). A host operation is no controller command
and RX never decodes one. -/
def Rx.apply (r : Rx) (i : Instr) : Rx :=
  match i with
  | .setcollo low => r.doSetcollo low
  | .setcolhi high => r.doSetcolhi high
  | .addrmode arg => r.doAddrmode arg
  | .setcontrast arg => r.doSetcontrast arg
  | .chargepump arg => r.doChargepump arg
  | .segremap remap => r.doSegremap remap
  | .invertoff => r.doInvertoff
  | .inverton => r.doInverton
  | .setmux arg => r.doSetmux arg
  | .dispoff => r.doDispoff
  | .dispon => r.doDispon
  | .setpage page => r.doSetpage page
  | .comdir dir => r.doComdir dir
  | .dispoffset arg => r.doDispoffset arg
  | .clkdiv arg => r.doClkdiv arg
  | .beginSession | .sendByte _ | .endSession | .openc | .opend | .close | .cmd1 _ | .wdata _
  | .setpos _ _ | .init | .contrast _ | .invscr _ | .sleep _ | .invdata _ | .text _ _ _
  | .text2x _ _ _ | .fillscr _ | .fillarea _ _ _ _ _ | .fillpat _ _ _ _ _ _
  | .image _ _ _ _ _ => r

end Machine

end Sys2Proof
end

