-- ==== Sys2Proof/Machine/Receiver.lean ====
section
/-!
DEFINITION. RX's reaction to the two lines: wire decoder (R137 to R141), frame parser (R142 to
R147), command interpreter (R148 to R150, R158); the performing of pin events, each of which RX
observes as it happens (R51); the resets of TX (R177, R179) and of RX (R34).
-/

namespace Sys2Proof

namespace Machine

/-- What RX makes of one step of the waveform (R137). -/
inductive WireStep where
  | quiet | start | stop
  | rise (bit : Bool)
  deriving DecidableEq, Repr

/-- The table of R137. -/
def classify (p q : LineState) : WireStep :=
  match p.scl, p.sda, q.scl, q.sda with
  | .hi, .hi, .hi, .lo => .start
  | .hi, .lo, .hi, .hi => .stop
  | .lo, .hi, .hi, .hi => .rise true
  | .lo, .lo, .hi, .lo => .rise false
  | _, _, _, _ => .quiet

/-- R138: address reception begins. -/
def Rx.beginAddress (r : Rx) : Rx :=
  r.update fun g => { g with phase := .addr, slot := 0, shift := 0 }

/-- R138; R139 or its cautious reading (U2) for a START inside a frame. -/
def Rx.onStart (r : Rx) (c : Config) : Rx :=
  if r.regs.phase = .idle || c.startRestarts then r.beginAddress else r.lose

/-- R146, R147; R150 or its cautious reading (U5) for a command frame closed with `PENDING` set. -/
def Rx.onStop (r : Rx) (c : Config) : Rx :=
  if r.regs.phase = .idle then r
  else if r.regs.phase = .cmd && r.regs.pending.isSome && !c.pendingSurvives then r.lose
  else r.update fun g => { g with phase := .idle, slot := 0 }

/-- R148, R149, R158: a command byte. -/
def Rx.commandByte (r : Rx) (c : Config) (v : Byte) : Rx :=
  match r.regs.pending with
  | some op =>
    match c.ops.find op with
    | some k => (r.update fun g => { g with pending := none }).apply (k.instr op v)
    | none => r.lose
  | none =>
    match c.ops.find v with
    | some k =>
      if k.takesArg then r.update fun g => { g with pending := some v }
      else r.apply (k.instr v 0)
    | none => r.lose

/-- R143: the control byte, of which one bit means something; a byte with another bit set leaves RX
unspecified (U4). -/
def Rx.controlByte (r : Rx) (c : Config) (v : Byte) : Rx :=
  if v &&& ~~~ (1#8 <<< c.dcBit.val) = 0 then
    r.update fun g => { g with phase := if v.getLsbD c.dcBit.val then .data else .cmd }
  else r.lose

/-- R142 to R145: a byte received. -/
def Rx.receive (r : Rx) (c : Config) (v : Byte) : Rx :=
  match r.regs.phase with
  | .idle => r
  | .addr => r.update fun g => { g with phase := if v = c.rxAddr then .ctrl else .ignore }
  | .ctrl => r.controlByte c v
  | .cmd => r.commandByte c v
  | .data => r.dataByte c.colOverflow v
  | .ignore => r

/-- R140: `(SHIFT << 1 | s) & 0xFF`. -/
def shiftIn (v : Byte) (b : Bool) : Byte := v <<< 1 ||| bitByte b

/-- R140: a rising edge of `SCL`. -/
def Rx.onRise (r : Rx) (c : Config) (b : Bool) : Rx :=
  if r.regs.phase = .idle then r
  else if r.regs.slot = 8 then r.update fun g => { g with slot := 0 }
  else
    let r' := r.update fun g => { g with shift := shiftIn g.shift b, slot := g.slot + 1 }
    if r'.regs.slot = 8 then r'.receive c r'.regs.shift else r'

/-- RX's reaction to a step of the waveform. -/
def Rx.onStep (r : Rx) (c : Config) : WireStep → Rx
  | .quiet => r
  | .start => r.onStart c
  | .stop => r.onStop c
  | .rise b => r.onRise c b

/-- The reaction of an RX whose state is unspecified: any value again (R158), but a STOP after a
stopped operation, which brings RX to `idle` (R168). -/
def Rx.wander (r : Rx) (c : Config) (w : WireStep) : Rx :=
  if r.untilStop then (if w = .stop then r.recover c else r.drift) else r.redraw

/-- RX's reaction to a step of the waveform, specified or not. -/
def Rx.react (r : Rx) (c : Config) (w : WireStep) : Rx :=
  if r.unspecified then r.wander c w else r.onStep c w

/-- RX observes a line state: nothing where it is the state before (R19), and nothing decoded while
a line is `Z` (R16). -/
def Rx.observe (r : Rx) (c : Config) (q : LineState) : Rx :=
  if q = r.prev then r
  else if r.prev.driven && q.driven then { r with prev := q }.react c (classify r.prev q)
  else { r with prev := q }

/-- One pin event: TX's lines change and RX observes them (R11, R51). -/
def emit (c : Config) (x : Pins × Rx) (e : Event) : Pins × Rx :=
  (x.1.apply e, x.2.observe c (x.1.apply e).wire)

/-- Pin events performed in order (R11, R20). -/
def State.perform (s : State) (es : List Event) : State :=
  { s with
    pins := (es.foldl (emit s.cfg) (s.pins, s.rx)).1
    rx := (es.foldl (emit s.cfg) (s.pins, s.rx)).2
    trace := s.trace ++ es }

/-- U14: an operation stops after some of its events. An RX that sees the lines, and is not
unspecified already, is at any value from here on; one that sees undriven lines has seen nothing. -/
def State.stopHere (s : State) : State :=
  if s.pins.wire.driven && !s.rx.unspecified then { s with rx := s.rx.drift } else s

/-- The events of an operation that took `s` to `s'` (R19). -/
def State.eventsTo (s s' : State) : List Event := s'.trace.drop s.trace.length

/-- R168: an operation that took `s` to `s'` stopped after its first `k` events; where it has no
more than `k` it has ended, and after none of them it has not begun. -/
def State.stoppedAfter (s : State) (k : Nat) (s' : State) : State :=
  if (s.eventsTo s').length ≤ k then s'
  else if k = 0 then s
  else (s.perform ((s.eventsTo s').take k)).stopHere

/-- R177: the reset input of TX puts the items of R29 to R33 at their reset values, the latches at a
free draw (R31); R179: RX keeps its state and sees the lines released. -/
def State.txReset (s : State) : State :=
  { s with
    pins :=
      { latchScl := (Config.freeLatches s.draws).1
        latchSda := (Config.freeLatches s.draws).2
        oeScl := false
        oeSda := false }
    dinv := false
    trace := []
    rx := s.rx.observe s.cfg ⟨.z, .z⟩
    draws := s.draws + 1 }

/-- RX's own power-up (R34): every item a free draw, the display RAM among them, but `PENDING` none
and `RXPHASE` idle (D6). RX observes the lines as they are. -/
def State.rxPowerUp (s : State) : State :=
  { s with
    rx :=
      { prev := s.pins.wire
        regs := { Config.freeRx s.rx.draws with phase := .idle, pending := none }
        ram := []
        ramDraw := s.rx.ramDraw + 1
        unspecified := false
        untilStop := false
        draws := s.rx.draws + 1 } }

/-- R177, R179: TX reset after the first `k` events of an operation that took `s` to `s'`. RX keeps
what those events left, and so is still in the frame they cut. -/
def State.resetAfter (s : State) (k : Nat) (s' : State) : State :=
  (s.perform ((s.eventsTo s').take k)).txReset

/-- R34, R179: RX powered up after the first `k` events of an operation that took `s` to `s'`. TX
goes on with the rest of them. -/
def State.powerUpAfter (s : State) (k : Nat) (s' : State) : State :=
  (((s.perform ((s.eventsTo s').take k)).rxPowerUp).perform ((s.eventsTo s').drop k)).setDinv s'.dinv

end Machine

end Sys2Proof
end

