-- ==== Sys2Proof/Machine/Link.lean ====
section
/-!
DEFINITION. The Link Transmitter (R85 to R92): `BEGIN`, `SENDB`, `END`.
-/

namespace Sys2Proof

namespace Machine

/-- R86: `C1 D1 D0 C0`. -/
def beginEvents : List Event :=
  [.write .scl true, .write .sda true, .write .sda false, .write .scl false]

/-- R58: one bit cell, `SDA` set and then `SCL` pulsed. -/
def bitCell (b : Bool) : List Event := [.write .sda b, .write .scl true, .write .scl false]

/-- R59: the bits of a byte in the order they are sent, most significant first. -/
def bitsOf (v : Byte) : List Bool :=
  [v.getLsbD 7, v.getLsbD 6, v.getLsbD 5, v.getLsbD 4, v.getLsbD 3, v.getLsbD 2, v.getLsbD 1,
   v.getLsbD 0]

/-- R88: eight bit cells, then the acknowledgement slot with `SDA` high (R60). -/
def sendbEvents (v : Byte) : List Event := (bitsOf v).flatMap bitCell ++ bitCell true

/-- R90: `C0 D0 C1 D1`. -/
def endEvents : List Event :=
  [.write .scl false, .write .sda false, .write .scl true, .write .sda true]

/-- The byte cells of a list of bytes, one after the other. -/
def sendEvents (vs : List Byte) : List Event := vs.flatMap sendbEvents

/-- `BEGIN` (R86). -/
def execBegin (s : State) : Host.Outcome State Fault Refusal := .next (s.perform beginEvents)

/-- `SENDB value` (R88). -/
def execSendb (v : Byte) (s : State) : Host.Outcome State Fault Refusal :=
  .next (s.perform (sendbEvents v))

/-- `END` (R90). -/
def execEnd (s : State) : Host.Outcome State Fault Refusal := .next (s.perform endEvents)

end Machine

end Sys2Proof
end

