-- ==== Sys2Proof/Machine/Framing.lean ====
section
/-!
DEFINITION. The Controller Framing Protocol (R93 to R101): `OPENC`, `OPEND`, `CLOSE`, `CMD1`,
`WDATA`.
-/

namespace Sys2Proof

namespace Machine

/-- R94: the events of `OPENC`. -/
def opencEvents (c : Config) : List Event :=
  beginEvents ++ sendbEvents c.devAddr ++ sendbEvents c.ctrlCmd

/-- R95: the events of `OPEND`. -/
def opendEvents (c : Config) : List Event :=
  beginEvents ++ sendbEvents c.devAddr ++ sendbEvents c.ctrlData

/-- R98: a command frame with the given payload bytes. -/
def commandFrame (c : Config) (bytes : List Byte) : List Event :=
  opencEvents c ++ sendEvents bytes ++ endEvents

/-- R100: the events of `WDATA`. -/
def wdataEvents (dinv : Bool) (v : Byte) : List Event := sendbEvents (pixelByte dinv v)

/-- R116: a data frame with the given pixel bytes, each written through `WDATA`. -/
def pixelFrame (c : Config) (dinv : Bool) (bytes : List Byte) : List Event :=
  opendEvents c ++ bytes.flatMap (wdataEvents dinv) ++ endEvents

/-- `OPENC` (R94). -/
def execOpenc (s : State) : Host.Outcome State Fault Refusal := .next (s.perform (opencEvents s.cfg))

/-- `OPEND` (R95). -/
def execOpend (s : State) : Host.Outcome State Fault Refusal := .next (s.perform (opendEvents s.cfg))

/-- `CLOSE` (R96). -/
def execClose (s : State) : Host.Outcome State Fault Refusal := .next (s.perform endEvents)

/-- `CMD1 byte` (R97). -/
def execCmd1 (v : Byte) (s : State) : Host.Outcome State Fault Refusal :=
  .next (s.perform (commandFrame s.cfg [v]))

/-- `WDATA byte` (R100). -/
def execWdata (v : Byte) (s : State) : Host.Outcome State Fault Refusal :=
  .next (s.perform (wdataEvents s.dinv v))

end Machine

end Sys2Proof
end

