-- ==== Sys2Proof/Machine/Operands.lean ====
section
/-!
DEFINITION. The operand forms: flags (R78), positions (R102, R65), glyphs (R40 to R42), strings
(R44), clipped text runs (R118, R121), clipped rectangles (R125), patterns (R129), images (R131).
-/

namespace Sys2Proof

namespace Machine

/-- R78: a flag operand is true when it is not zero. -/
def flagOf (v : Byte) : Bool := v != 0

/-- R102: a valid position. -/
def validPos (row col : Nat) : Bool := row < numRows && col < numCols

/-- R65: the three bytes of the position command. -/
def positionBytes (t : OpTable) (row col : Nat) : List Byte :=
  [t.setpage ||| BitVec.ofNat 8 row,
   t.setcolhi ||| BitVec.ofNat 8 (col / 16),
   t.setcollo ||| BitVec.ofNat 8 (col % 16)]

/-- R40 `gidx(c, PMAX)`. -/
def gidx (ch pmax : Byte) : Nat :=
  if charBase ≤ ch.toNat ∧ ch.toNat ≤ pmax.toNat then ch.toNat - charBase else 0

/-- R41: the 6 bytes of a character of `FONT6`; none beyond the end of the table. -/
def State.glyph6 (s : State) (ch : Byte) : Option (List Byte) :=
  s.memReads .font6 (gidx ch s.cfg.pmax1x * glyph6Width) glyph6Width

/-- R42: the 8 bytes of one half of a character of `FONT16`, half 0 the upper band. -/
def State.glyph16 (s : State) (half : Nat) (ch : Byte) : Option (List Byte) :=
  s.memReads .font16 (gidx ch s.cfg.pmax2x * glyph16Stride + half * 8) glyph16Width

/-- All glyphs of a list of characters; none where one of them is beyond the end of the font. -/
def glyphsOf (glyph : Byte → Option (List Byte)) : List Byte → Option (List (List Byte))
  | [] => some []
  | ch :: rest =>
    match glyph ch, glyphsOf glyph rest with
    | some g, some gs => some (g :: gs)
    | _, _ => none

/-- The bytes from an address up to the first 0, of at most `fuel` bytes read; none where there is
no 0 among them. -/
def stringFrom (ps : List Host.Cell) : Nat → Nat → Option (List Byte)
  | 0, _ => none
  | fuel + 1, a =>
    if psByte ps a = 0 then some []
    else (stringFrom ps fuel (a + 1)).map (psByte ps a :: ·)

/-- R44: the string at `ptr`; none where it runs past the end of `PS`. -/
def State.stringAt (s : State) (ptr : PsAddr) : Option (List Byte) :=
  stringFrom s.ps (psSize - ptr.toNat) ptr.toNat

/-- R118, R121: the characters drawn, those met while the running column leaves room for a glyph of
`width` columns. -/
def clipText (width : Nat) : Nat → List Byte → List Byte
  | _, [] => []
  | col, ch :: rest => if col > numCols - width then [] else ch :: clipText width (col + width) rest

/-- R125: `min(start + extent, bound)`. -/
def clipEnd (start extent : Byte) (bound : Nat) : Nat := min (start.toNat + extent.toNat) bound

/-- R125: the clipped rectangle is empty. -/
def emptyRect (srow scol rows cols : Byte) : Bool :=
  srow.toNat ≥ clipEnd srow rows numRows || scol.toNat ≥ clipEnd scol cols numCols

/-- R125: the rows of the clipped rectangle. -/
def clipRows (srow rows : Byte) : Nat := clipEnd srow rows numRows - srow.toNat

/-- R125: the columns of the clipped rectangle. -/
def clipCols (scol cols : Byte) : Nat := clipEnd scol cols numCols - scol.toNat

/-- R44: an operand list of `len` bytes at `ptr` lies in `PS`. -/
def inPs (ptr : PsAddr) (len : Nat) : Bool := ptr.toNat + len ≤ psSize

/-- R129: the bytes of one row of a pattern fill, `pattern[j mod plen]`. -/
def State.patternRow (s : State) (ptr : PsAddr) (plen width : Nat) : List Byte :=
  (List.range width).map fun j => psByte s.ps (ptr.toNat + j % plen)

/-- R131: the bytes of row `i` of an image, `image[i * icols + j]`, `icols` the unclipped width. -/
def State.imageRow (s : State) (ptr : PsAddr) (icols i width : Nat) : List Byte :=
  (List.range width).map fun j => psByte s.ps (ptr.toNat + (i * icols + j))

end Machine

end Sys2Proof
end

