-- ==== Sys2Proof/Machine/Addressing.lean ====
section
/-!
DEFINITION. The Addressing Model (R102 to R106): `SETPOS`.
-/

namespace Sys2Proof

namespace Machine

/-- R103: the position frame, or no event at all for an invalid position. -/
def setposEvents (c : Config) (row col : Nat) : List Event :=
  if validPos row col then commandFrame c (positionBytes c.ops row col) else []

/-- `SETPOS row, column` (R103). -/
def execSetpos (row col : Byte) (s : State) : Host.Outcome State Fault Refusal :=
  .next (s.perform (setposEvents s.cfg row.toNat col.toNat))

end Machine

end Sys2Proof
end

