-- ==== Sys2Proof/Machine/Controller.lean ====
section
/-!
DEFINITION. The 15 controller commands as instructions (R66, R67): RX is reached through the two
lines only (R171, R172), so HOST issues a command as a command frame of its own (R98), whose bytes RX
takes by R144, R148 and R149. That HOST issues it so is log entry 5.
-/

namespace Sys2Proof

namespace Machine

/-- One command frame with the given payload (R98). -/
def State.sendCommand (s : State) (bytes : List Byte) : Host.Outcome State Fault Refusal :=
  .next (s.perform (commandFrame s.cfg bytes))

/-- `SETCOLLO` (R67, R153). -/
def execSetcollo (low : BitVec 4) (s : State) : Host.Outcome State Fault Refusal :=
  s.sendCommand [s.cfg.ops.setcollo ||| low.setWidth 8]

/-- `SETCOLHI` (R67, R152). -/
def execSetcolhi (high : BitVec 4) (s : State) : Host.Outcome State Fault Refusal :=
  s.sendCommand [s.cfg.ops.setcolhi ||| high.setWidth 8]

/-- `ADDRMODE` (R67, R157). -/
def execAddrmode (arg : Byte) (s : State) : Host.Outcome State Fault Refusal :=
  s.sendCommand [s.cfg.ops.addrmode, arg]

/-- `SETCONTRAST` (R67, R157). -/
def execSetcontrast (arg : Byte) (s : State) : Host.Outcome State Fault Refusal :=
  s.sendCommand [s.cfg.ops.setcontrast, arg]

/-- `CHARGEPUMP` (R67, R157). -/
def execChargepump (arg : Byte) (s : State) : Host.Outcome State Fault Refusal :=
  s.sendCommand [s.cfg.ops.chargepump, arg]

/-- `SEGREMAP` (R67, R157). -/
def execSegremap (remap : Bool) (s : State) : Host.Outcome State Fault Refusal :=
  s.sendCommand [s.cfg.ops.segremap ||| bitByte remap]

/-- `INVERTOFF` (R67, R157). -/
def execInvertoff (s : State) : Host.Outcome State Fault Refusal :=
  s.sendCommand [s.cfg.ops.invertoff]

/-- `INVERTON` (R67, R157). -/
def execInverton (s : State) : Host.Outcome State Fault Refusal :=
  s.sendCommand [s.cfg.ops.inverton]

/-- `SETMUX` (R67, R157). -/
def execSetmux (arg : Byte) (s : State) : Host.Outcome State Fault Refusal :=
  s.sendCommand [s.cfg.ops.setmux, arg]

/-- `DISPOFF` (R67, R157). -/
def execDispoff (s : State) : Host.Outcome State Fault Refusal :=
  s.sendCommand [s.cfg.ops.dispoff]

/-- `DISPON` (R67, R157). -/
def execDispon (s : State) : Host.Outcome State Fault Refusal :=
  s.sendCommand [s.cfg.ops.dispon]

/-- `SETPAGE` (R67, R151). -/
def execSetpage (page : BitVec 3) (s : State) : Host.Outcome State Fault Refusal :=
  s.sendCommand [s.cfg.ops.setpage ||| page.setWidth 8]

/-- `COMDIR` (R67, R157). -/
def execComdir (dir : Bool) (s : State) : Host.Outcome State Fault Refusal :=
  s.sendCommand [s.cfg.ops.comdir ||| bitByte dir <<< 3]

/-- `DISPOFFSET` (R67, R157). -/
def execDispoffset (arg : Byte) (s : State) : Host.Outcome State Fault Refusal :=
  s.sendCommand [s.cfg.ops.dispoffset, arg]

/-- `CLKDIV` (R67, R157). -/
def execClkdiv (arg : Byte) (s : State) : Host.Outcome State Fault Refusal :=
  s.sendCommand [s.cfg.ops.clkdiv, arg]

/-- A command byte that may be in no row of the opcode table (R68), sent in a frame of its own. -/
def execCommandByte (op : Byte) (s : State) : Host.Outcome State Fault Refusal := s.sendCommand [op]

end Machine

end Sys2Proof
end

