-- ==== Sys2Proof/Machine/Mode.lean ====
section
/-!
DEFINITION. Initialization and mode control (R107 to R115): `INIT`, `CONTRAST`, `INVSCR`, `SLEEP`,
`INVDATA`.
-/

namespace Sys2Proof

namespace Machine

/-- R108: the pin set-up of `INIT`. -/
def initPinEvents : List Event :=
  [.enable .scl, .enable .sda, .write .scl true, .write .sda true]

/-- `INIT` (R108): pin set-up, then the Command Table as one command frame. -/
def execInit (s : State) : Host.Outcome State Fault Refusal :=
  .next (s.perform (initPinEvents ++ commandFrame s.cfg s.cfg.cmdTable))

/-- `CONTRAST level` (R111). -/
def execContrast (level : Byte) (s : State) : Host.Outcome State Fault Refusal :=
  .next (s.perform (commandFrame s.cfg [s.cfg.ops.setcontrast, level]))

/-- `INVSCR flag` (R112). -/
def execInvscr (flag : Byte) (s : State) : Host.Outcome State Fault Refusal :=
  .next (s.perform
    (commandFrame s.cfg [if flagOf flag then s.cfg.ops.inverton else s.cfg.ops.invertoff]))

/-- `SLEEP flag` (R113). -/
def execSleep (flag : Byte) (s : State) : Host.Outcome State Fault Refusal :=
  .next (s.perform
    (commandFrame s.cfg [if flagOf flag then s.cfg.ops.dispoff else s.cfg.ops.dispon]))

/-- `INVDATA flag` (R114). -/
def execInvdata (flag : Byte) (s : State) : Host.Outcome State Fault Refusal :=
  .next (s.setDinv (flagOf flag))

end Machine

end Sys2Proof
end

