-- ==== Sys2Proof/Machine/Rendering.lean ====
section
/-!
DEFINITION. The rendering operations (R116 to R135): `TEXT`, `TEXT2X`, `FILLSCR`, `FILLAREA`,
`FILLPAT`, `IMAGE`.
-/

namespace Sys2Proof

namespace Machine

/-- R118: one pass over a string: the position frame, then one data frame per glyph drawn. -/
def textPass (c : Config) (dinv : Bool) (row col : Nat) (glyphs : List (List Byte)) : List Event :=
  setposEvents c row col ++ glyphs.flatMap (pixelFrame c dinv)

/-- R124, R126, R129, R132: `height` rows from row `srow` on, each a position frame at column `scol`
and one data frame with the bytes of that row. -/
def rectEvents (c : Config) (dinv : Bool) (srow scol height : Nat) (rowBytes : Nat → List Byte) :
    List Event :=
  (List.range height).flatMap fun i =>
    setposEvents c (srow + i) scol ++ pixelFrame c dinv (rowBytes i)

/-- `TEXT row, column, string` (R118, R119). -/
def execText (row col : Byte) (ptr : PsAddr) (s : State) : Host.Outcome State Fault Refusal :=
  if row.toNat ≥ numRows || col.toNat ≥ numCols then .next (s.perform [])
  else
    match s.stringAt ptr with
    | none => .refused .operandPastPs
    | some codes =>
      match glyphsOf s.glyph6 (clipText glyph6Width col.toNat codes) with
      | none => .refused .glyphPastFont
      | some glyphs => .next (s.perform (textPass s.cfg s.dinv row.toNat col.toNat glyphs))

/-- `TEXT2X row, column, string` (R121, R122): the upper halves on `row`, then the lower halves on
`row + 1`. -/
def execText2x (row col : Byte) (ptr : PsAddr) (s : State) : Host.Outcome State Fault Refusal :=
  if row.toNat ≥ numRows - 1 || col.toNat ≥ numCols then .next (s.perform [])
  else
    match s.stringAt ptr with
    | none => .refused .operandPastPs
    | some codes =>
      match glyphsOf (s.glyph16 0) (clipText glyph16Width col.toNat codes),
          glyphsOf (s.glyph16 1) (clipText glyph16Width col.toNat codes) with
      | some upper, some lower =>
        .next (s.perform
          (textPass s.cfg s.dinv row.toNat col.toNat upper ++
            textPass s.cfg s.dinv (row.toNat + 1) col.toNat lower))
      | _, _ => .refused .glyphPastFont

/-- `FILLSCR byte` (R124). -/
def execFillscr (v : Byte) (s : State) : Host.Outcome State Fault Refusal :=
  .next (s.perform
    (rectEvents s.cfg s.dinv 0 0 numRows fun _ => List.replicate numCols v))

/-- `FILLAREA srow, scol, rows, cols, byte` (R126). -/
def execFillarea (srow scol rows cols v : Byte) (s : State) : Host.Outcome State Fault Refusal :=
  if emptyRect srow scol rows cols then .next (s.perform [])
  else
    .next (s.perform
      (rectEvents s.cfg s.dinv srow.toNat scol.toNat (clipRows srow rows) fun _ =>
        List.replicate (clipCols scol cols) v))

/-- `FILLPAT srow, scol, rows, cols, pattern, plen` (R128 to R130). -/
def execFillpat (srow scol rows cols plen : Byte) (ptr : PsAddr) (s : State) :
    Host.Outcome State Fault Refusal :=
  if plen = 0 then .refused .patternLengthZero
  else if emptyRect srow scol rows cols then .next (s.perform [])
  else if inPs ptr plen.toNat then
    .next (s.perform
      (rectEvents s.cfg s.dinv srow.toNat scol.toNat (clipRows srow rows) fun _ =>
        s.patternRow ptr plen.toNat (clipCols scol cols)))
  else .refused .operandPastPs

/-- `IMAGE srow, scol, irows, icols, image` (R131 to R133). -/
def execImage (srow scol irows icols : Byte) (ptr : PsAddr) (s : State) :
    Host.Outcome State Fault Refusal :=
  if emptyRect srow scol irows icols then .next (s.perform [])
  else if inPs ptr (irows.toNat * icols.toNat) then
    .next (s.perform
      (rectEvents s.cfg s.dinv srow.toNat scol.toNat (clipRows srow irows) fun i =>
        s.imageRow ptr icols.toNat i (clipCols scol icols)))
  else .refused .operandPastPs

end Machine

end Sys2Proof
end

