-- ==== Sys2Proof/Machine/Dispatch.lean ====
section
/-!
DEFINITION. One arm per constructor of `Instr`, each a direct call of its meaning.
-/

namespace Sys2Proof

namespace Machine

/-- The effect of an instruction on the machine. -/
def exec (i : Instr) (s : State) : Host.Outcome State Fault Refusal :=
  match i with
  | .beginSession => Sys2Proof.Machine.execBegin s
  | .sendByte value => Sys2Proof.Machine.execSendb value s
  | .endSession => Sys2Proof.Machine.execEnd s
  | .openc => Sys2Proof.Machine.execOpenc s
  | .opend => Sys2Proof.Machine.execOpend s
  | .close => Sys2Proof.Machine.execClose s
  | .cmd1 value => Sys2Proof.Machine.execCmd1 value s
  | .wdata value => Sys2Proof.Machine.execWdata value s
  | .setpos row column => Sys2Proof.Machine.execSetpos row column s
  | .init => Sys2Proof.Machine.execInit s
  | .contrast level => Sys2Proof.Machine.execContrast level s
  | .invscr flag => Sys2Proof.Machine.execInvscr flag s
  | .sleep flag => Sys2Proof.Machine.execSleep flag s
  | .invdata flag => Sys2Proof.Machine.execInvdata flag s
  | .text row column ptr => Sys2Proof.Machine.execText row column ptr s
  | .text2x row column ptr => Sys2Proof.Machine.execText2x row column ptr s
  | .fillscr value => Sys2Proof.Machine.execFillscr value s
  | .fillarea srow scol rows cols value => Sys2Proof.Machine.execFillarea srow scol rows cols value s
  | .fillpat srow scol rows cols plen ptr => Sys2Proof.Machine.execFillpat srow scol rows cols plen ptr s
  | .image srow scol irows icols ptr => Sys2Proof.Machine.execImage srow scol irows icols ptr s
  | .setcollo low => Sys2Proof.Machine.execSetcollo low s
  | .setcolhi high => Sys2Proof.Machine.execSetcolhi high s
  | .addrmode arg => Sys2Proof.Machine.execAddrmode arg s
  | .setcontrast arg => Sys2Proof.Machine.execSetcontrast arg s
  | .chargepump arg => Sys2Proof.Machine.execChargepump arg s
  | .segremap remap => Sys2Proof.Machine.execSegremap remap s
  | .invertoff => Sys2Proof.Machine.execInvertoff s
  | .inverton => Sys2Proof.Machine.execInverton s
  | .setmux arg => Sys2Proof.Machine.execSetmux arg s
  | .dispoff => Sys2Proof.Machine.execDispoff s
  | .dispon => Sys2Proof.Machine.execDispon s
  | .setpage page => Sys2Proof.Machine.execSetpage page s
  | .comdir dir => Sys2Proof.Machine.execComdir dir s
  | .dispoffset arg => Sys2Proof.Machine.execDispoffset arg s
  | .clkdiv arg => Sys2Proof.Machine.execClkdiv arg s

end Machine

end Sys2Proof
end

