-- ==== Sys2Proof/Machine/Step.lean ====
section
/-!
DEFINITION. One step of the machine: the next input is taken (R13, R20), decoded, and run.
-/

namespace Sys2Proof

namespace Machine

/-- The step of an issued code. A host word with a reserved `op` is refused (R80); a command byte
in no row of the opcode table is sent as it is (R68), and RX takes it by R158. -/
def stepIssue (c : Code) (s : State) : Host.Outcome State Fault Refusal :=
  match c, decode s.cfg.ops c with
  | _, .ok i => exec i s
  | .host _, .error _ => .refused .reservedOp
  | .ctrl op _, .error _ => execCommandByte op s

/-- The step of an operation that the outside world cuts into: `cut` is what becomes of it, given
the state the whole operation leaves (R168, R177, R179). -/
def stepCut (cut : State → State) (w : HostWord) (s : State) : Host.Outcome State Fault Refusal :=
  match stepIssue (.host w) s with
  | .next s' => .next (cut s')
  | .fault f => .fault f
  | .refused r => .refused r

/-- R168: the step of an operation stopped after its first `k` events. -/
def stepAbandon (k : Nat) (w : HostWord) (s : State) : Host.Outcome State Fault Refusal :=
  stepCut (s.stoppedAfter k) w s

/-- R177, R179: the step of an operation after whose first `k` events TX is reset. -/
def stepResetDuring (k : Nat) (w : HostWord) (s : State) : Host.Outcome State Fault Refusal :=
  stepCut (s.resetAfter k) w s

/-- R34, R179: the step of an operation after whose first `k` events RX is powered up. -/
def stepPowerUpDuring (k : Nat) (w : HostWord) (s : State) : Host.Outcome State Fault Refusal :=
  stepCut (s.powerUpAfter k) w s

/-- One step. With no input left the machine waits: the lines hold their level (R191). -/
def step (s : State) : Host.Outcome State Fault Refusal :=
  match s.inputs with
  | [] => .next s
  | .issue c :: rest => stepIssue c { s with inputs := rest }
  | .abandon k w :: rest => stepAbandon k w { s with inputs := rest }
  | .txReset :: rest => .next ({ s with inputs := rest }).txReset
  | .resetDuring k w :: rest => stepResetDuring k w { s with inputs := rest }
  | .rxPowerUp :: rest => .next ({ s with inputs := rest }).rxPowerUp
  | .powerUpDuring k w :: rest => stepPowerUpDuring k w { s with inputs := rest }

/-- `s` with the instruction that spec/opcode_table.json numbers `w` as its next input. A controller
command's bytes are the table's own, so RX's opcode values are then the table's (R67). -/
def State.withFetchWord (s : State) (nbits w : Nat) : State :=
  if nbits = 64 then { s with inputs := .issue (Code.ofTableWord nbits w) :: s.inputs }
  else
    { s with
      cfg := { s.cfg with ops := OpTable.std }
      inputs := .issue (Code.ofTableWord nbits w) :: s.inputs }

end Machine

end Sys2Proof
end

