-- ==== Sys2Proof/Machine/Observe.lean ====
section
/-!
DEFINITION. What can be observed of a run: the waveform of a list of events (R19), the frames RX
receives from a waveform (R160), the pixels of the display RAM (R37) and whether one is lit (R159).
-/

namespace Sys2Proof

namespace Machine

/-- R19: the line states after each event, a state equal to its predecessor dropped. -/
def waveformFrom (p : Pins) : List Event → List LineState
  | [] => []
  | e :: es =>
    if (p.apply e).wire = p.wire then waveformFrom (p.apply e) es
    else (p.apply e).wire :: waveformFrom (p.apply e) es

/-- R160: a decoder that keeps nothing but the bytes of frames. `current` is the open frame, its
bytes newest first; `complete` the frames closed by a STOP, newest first. -/
structure FrameDecoder where
  prev : LineState
  current : Option (List Byte)
  shift : Byte
  slot : Fin 9
  complete : List (List Byte)
  deriving DecidableEq, Repr

/-- The decoder before any frame, the lines at the given state. -/
def FrameDecoder.start (q : LineState) : FrameDecoder := ⟨q, none, 0, 0, []⟩

/-- R137 to R140, R146, R147: the decoder sees the next line state. A START inside a frame drops
the bytes of that frame (R139). -/
def FrameDecoder.see (d : FrameDecoder) (q : LineState) : FrameDecoder :=
  if d.prev.driven && q.driven then
    match classify d.prev q with
    | .quiet => { d with prev := q }
    | .start => { d with prev := q, current := some [], shift := 0, slot := 0 }
    | .stop =>
      match d.current with
      | none => { d with prev := q }
      | some bytes => { d with prev := q, current := none, slot := 0,
                               complete := bytes.reverse :: d.complete }
    | .rise b =>
      match d.current with
      | none => { d with prev := q }
      | some bytes =>
        if d.slot = 8 then { d with prev := q, slot := 0 }
        else if d.slot = 7 then
          { d with prev := q, shift := shiftIn d.shift b, slot := 8,
                   current := some (shiftIn d.shift b :: bytes) }
        else { d with prev := q, shift := shiftIn d.shift b, slot := d.slot + 1 }
  else { d with prev := q }

/-- R160 `frames`: the byte lists received between each START and the next STOP, from lines at `q`. -/
def framesOf (q : LineState) (wave : List LineState) : List (List Byte) :=
  (wave.foldl FrameDecoder.see (FrameDecoder.start q)).complete.reverse

/-- R37: the pixel of screen row `y` (0 to 63) and column `x`. -/
def State.pixel (s : State) (y : Fin 64) (x : BitVec 7) : Bool :=
  (s.ram (BitVec.ofNat 3 (y.val / 8)) x).getLsbD (y.val % 8)

/-- R159: the pixel is lit (general knowledge G8), before remap, offset and multiplex move it. -/
def State.lit (s : State) (y : Fin 64) (x : BitVec 7) : Bool :=
  s.rx.regs.displayOn && (s.pixel y x ^^ s.rx.regs.inverse)

end Machine

end Sys2Proof
end

