-- ==== Sys2Proof/WellFormed.lean ====
section
/-!
DEFINITION. Well-formedness of an instruction (the precondition of R128 that is on operands alone),
of the controller opcode table (its rows do not overlap: the model's own premise, log entry 21) and of
the parameters (R8, R9, R63).
-/

namespace Sys2Proof

/-- R128: `FILLPAT` needs a pattern of at least one byte. Every other operand value is legal
(R81, R175). -/
def Instr.wf : Instr → Bool
  | .beginSession => true
  | .sendByte _ => true
  | .endSession => true
  | .openc => true
  | .opend => true
  | .close => true
  | .cmd1 _ => true
  | .wdata _ => true
  | .setpos _ _ => true
  | .init => true
  | .contrast _ => true
  | .invscr _ => true
  | .sleep _ => true
  | .invdata _ => true
  | .text _ _ _ => true
  | .text2x _ _ _ => true
  | .fillscr _ => true
  | .fillarea _ _ _ _ _ => true
  | .fillpat _ _ _ _ plen _ => plen != 0
  | .image _ _ _ _ _ => true
  | .setcollo _ => true
  | .setcolhi _ => true
  | .addrmode _ => true
  | .setcontrast _ => true
  | .chargepump _ => true
  | .segremap _ => true
  | .invertoff => true
  | .inverton => true
  | .setmux _ => true
  | .dispoff => true
  | .dispon => true
  | .setpage _ => true
  | .comdir _ => true
  | .dispoffset _ => true
  | .clkdiv _ => true

/-- Row `k`'s `match` has no bit outside its `mask`. R8 gives this of the three bases, whose operand
bits are zero; for the other rows it is the model's own premise (DESIGN CHOICE, log entry 21). -/
def OpTable.rowOk (t : OpTable) (k : CtrlOp) : Bool :=
  t.val k &&& ~~~ k.mask == 0

/-- No opcode byte matches both rows (DESIGN CHOICE, log entry 21). -/
def OpTable.apart (t : OpTable) (j k : CtrlOp) : Bool :=
  t.val j &&& k.mask != t.val k &&& j.mask

/-- Every row's `match` lies under its `mask`, and no two rows share an opcode byte: a premise of claims,
which R67 meets with its default values and states of no others (DESIGN CHOICE, log entry 21). -/
def OpTable.wf (t : OpTable) : Bool :=
  CtrlOp.all.all t.rowOk && CtrlOp.all.all fun j => CtrlOp.all.all fun k => j == k || t.apart j k

/-- R62: both values of `DEV_ADDR` have bit 0 clear, and they are two values (R22). -/
def Config.addrOk (c : Config) : Bool :=
  c.addrLow &&& 1 == 0 && c.addrHigh &&& 1 == 0 && c.addrLow != c.addrHigh

/-- R63: the mode bit selects the mode and all other bits of a control byte are sent as 0. -/
def Config.ctrlOk (c : Config) : Bool :=
  c.ctrlCmd == 0 && c.ctrlData == 1#8 <<< c.dcBit.val

/-- R9: the printable upper bounds are at least 32, and R195: the fonts cover them. -/
def Config.fontsOk (c : Config) : Bool :=
  charBase ≤ c.pmax1x.toNat && charBase ≤ c.pmax2x.toNat &&
    c.font6.length == glyph6Width * (c.pmax1x.toNat - 31) &&
    c.font16.length == glyph16Stride * (c.pmax2x.toNat - 31)

/-- The constraints of R8 and R9 on the parameters, and the premise on the opcode table (log entry 21). -/
def Config.wf (c : Config) : Bool :=
  c.addrOk && c.ctrlOk && c.fontsOk && c.ops.wf

end Sys2Proof
end

