-- ==== Sys2Proof/Safety.lean ====
section
/-!
DEFINITION. The terms claims use: the invariant of the machine, the ghost phase and the frame
discipline (R93, R186), the premises of a claim about the display (R135), what an operation of TX
leaves.
-/

namespace Sys2Proof

namespace Safety

open Machine

/-! ### The invariant -/

/-- What holds of RX in every state a step leads to: its RAM is in canonical form, and unless its
state is unspecified, `PENDING` is an opcode that takes an argument (R148). -/
structure RxOk (c : Config) (r : Rx) : Prop where
  ram : Memory.wf .disp r.ram = true
  pending : r.unspecified = false → ∀ op, r.regs.pending = some op →
    ∃ k, c.ops.find op = some k ∧ k.takesArg = true

/-- The invariant of the machine: RX has seen the lines as they are (R25, R51), both memories are in
canonical form, RX's parser state is a legal one. -/
structure StateOk (s : State) : Prop where
  seen : s.rx.prev = s.pins.wire
  ps : Memory.wf .ps s.ps = true
  rx : RxOk s.cfg s.rx

/-! ### Frame discipline -/

/-- R186: the ghost phase of TX. -/
inductive TxPhase where
  | idle | cmd | data | raw
  deriving DecidableEq, Repr

/-- The phase an operation that is legal only between frames leaves (R186). -/
def fromIdle (g next : TxPhase) : Option TxPhase := if g = .idle then some next else none

/-- R186: the phase after an operation, none where HOST must not issue it in that phase. A
controller command is issued as a whole command frame (log entry 5), as `CMD1` is. -/
def after (g : TxPhase) : Instr → Option TxPhase
  | .beginSession => fromIdle g .raw
  | .sendByte _ => if g = .idle then none else some g
  | .endSession => some .idle
  | .openc => fromIdle g .cmd
  | .opend => fromIdle g .data
  | .close => some .idle
  | .cmd1 _ => fromIdle g .idle
  | .wdata _ => if g = .data then some .data else none
  | .setpos _ _ => fromIdle g .idle
  | .init => fromIdle g .idle
  | .contrast _ => fromIdle g .idle
  | .invscr _ => fromIdle g .idle
  | .sleep _ => fromIdle g .idle
  | .invdata _ => some g
  | .text _ _ _ => fromIdle g .idle
  | .text2x _ _ _ => fromIdle g .idle
  | .fillscr _ => fromIdle g .idle
  | .fillarea _ _ _ _ _ => fromIdle g .idle
  | .fillpat _ _ _ _ _ _ => fromIdle g .idle
  | .image _ _ _ _ _ => fromIdle g .idle
  | .setcollo _ => fromIdle g .idle
  | .setcolhi _ => fromIdle g .idle
  | .addrmode _ => fromIdle g .idle
  | .setcontrast _ => fromIdle g .idle
  | .chargepump _ => fromIdle g .idle
  | .segremap _ => fromIdle g .idle
  | .invertoff => fromIdle g .idle
  | .inverton => fromIdle g .idle
  | .setmux _ => fromIdle g .idle
  | .dispoff => fromIdle g .idle
  | .dispon => fromIdle g .idle
  | .setpage _ => fromIdle g .idle
  | .comdir _ => fromIdle g .idle
  | .dispoffset _ => fromIdle g .idle
  | .clkdiv _ => fromIdle g .idle

/-- R193: the pins in a phase. -/
def pinsFit (g : TxPhase) (p : Pins) : Prop :=
  p.oeScl = true ∧ p.oeSda = true ∧
    match g with
    | .idle => p.latchScl = true ∧ p.latchSda = true
    | .cmd => p.latchScl = false ∧ p.latchSda = true
    | .data => p.latchScl = false ∧ p.latchSda = true
    | .raw => p.latchScl = false

/-- R186, R199: the frame phase of RX in a phase of TX; between two bytes no bit of a byte has been
taken. Nothing is said of an RX whose state is unspecified. -/
def rxFit (g : TxPhase) (r : Rx) : Prop :=
  r.unspecified = false →
    match g with
    | .idle => r.regs.phase = .idle
    | .cmd => r.regs.phase = .cmd ∧ r.regs.slot = 0
    | .data => r.regs.phase = .data ∧ r.regs.slot = 0
    | .raw => r.regs.phase ≠ .idle ∧ r.regs.slot = 0

/-! ### Premises of claims about the display -/

/-- RX is addressed, specified, with no argument pending and no frame open; the lines are idle; the
parameters meet their constraints, and no opcode byte matches two rows (a premise of the model's own,
log entry 21). -/
structure Listening (s : State) : Prop where
  cfg : s.cfg.wf = true
  addressed : s.cfg.strap = s.cfg.rxStrap
  pins : s.pins = Pins.idle
  seen : s.rx.prev = LineState.idle
  ram : Memory.wf .disp s.rx.ram = true
  specified : s.rx.unspecified = false
  phase : s.rx.regs.phase = .idle
  pending : s.rx.regs.pending = none

/-- R135: RX listens, in page addressing mode. -/
structure Ready (s : State) : Prop extends Listening s where
  pageMode : s.rx.regs.addrMode = 2

/-- A frame is open at RX, between two bytes: the lines are (0,1), RX has seen them, no bit of a
byte has been taken (R193). -/
structure InFrame (s : State) (ph : RxPhase) : Prop where
  pins : s.pins = ⟨false, true, true, true⟩
  seen : s.rx.prev = ⟨.lo, .hi⟩
  ram : Memory.wf .disp s.rx.ram = true
  specified : s.rx.unspecified = false
  phase : s.rx.regs.phase = ph
  slot : s.rx.regs.slot = 0

/-- The registers of RX but those of the wire decoder (`SHIFT`, `SLOT`, `RXPHASE`). -/
def sameDisplay (g h : RxRegs) : Prop :=
  g = { h with phase := g.phase, shift := g.shift, slot := g.slot }

/-- R109: the Command Table is a sequence of complete commands, the last of which is the power-on
command, and the last addressing mode it sets is page addressing. -/
def tableOk (c : Config) (is : List Instr) : Prop :=
  c.ops.parse c.cmdTable = some is ∧ is.getLast? = some .dispon ∧
    ∃ arg : Byte, arg.extractLsb' 0 2 = 2 ∧
      (is.filter fun i => match i with
        | .addrmode _ => true
        | _ => false).getLast? = some (.addrmode arg)

/-- R44: the bytes of `PS` from `ptr` on are the string `codes`, its terminator included. -/
def stringIs (s : State) (ptr : PsAddr) (codes : List Byte) : Prop :=
  ptr.toNat + codes.length < psSize ∧
    (∀ i, (h : i < codes.length) → psByte s.ps (ptr.toNat + i) = codes[i] ∧ codes[i] ≠ 0) ∧
    psByte s.ps (ptr.toNat + codes.length) = 0

/-! ### What an operation of TX leaves -/

/-- R92: the events of a frame with the given bytes, address and control byte included. -/
def frame (bytes : List Byte) : List Event := beginEvents ++ sendEvents bytes ++ endEvents

/-- R103: the position frame of a valid position. -/
def positionFrame (c : Config) (row col : Nat) : List Event :=
  frame [c.devAddr, c.ctrlCmd, c.ops.setpage ||| BitVec.ofNat 8 row,
    c.ops.setcolhi ||| BitVec.ofNat 8 (col / 16), c.ops.setcollo ||| BitVec.ofNat 8 (col % 16)]

/-- R70, R135: what `DINV` puts on a pixel byte. -/
def mask (dinv : Bool) : Byte := if dinv then 0xFF else 0x00

/-- R95, R100: a data frame with the given pixel bytes, each complemented when `DINV` is set. -/
def dataFrame (c : Config) (dinv : Bool) (bytes : List Byte) : List Event :=
  frame (c.devAddr :: c.ctrlData :: bytes.map (· ^^^ mask dinv))

/-- R135, R156: `COL` after a write run whose last column is `e - 1`. -/
def colAfter (o : ColOverflow) (e : Nat) : BitVec 7 :=
  if e < numCols then BitVec.ofNat 7 e
  else
    match o with
    | .wrap => 0
    | .saturate => 127
    | .discard => 127

/-- R125: position `(p, q)` of the display lies in rows `r0` to `r1 - 1` and columns `c0` to
`c1 - 1`. -/
def inRect (r0 r1 c0 c1 : Nat) (p : BitVec 3) (q : BitVec 7) : Prop :=
  (r0 ≤ p.toNat ∧ p.toNat < r1) ∧ c0 ≤ q.toNat ∧ q.toNat < c1

/-- R135: what a drawing operation leaves at RX: the bytes of the rectangle as given, every other
byte as before; the cursor past the last byte written; every other register but the wire decoder's
as before; RX ready for the next operation. The overflow mark is set by a write at column 127 under
`discard` (R156), and clear otherwise, since the position command before the last row cleared it. -/
structure Draws (s t : State) (r0 r1 c0 c1 : Nat) (byte : Nat → Nat → Byte) : Prop where
  inside : ∀ p q, inRect r0 r1 c0 c1 p q →
    t.ram p q = byte (p.toNat - r0) (q.toNat - c0) ^^^ mask s.dinv
  outside : ∀ p q, ¬ inRect r0 r1 c0 c1 p q → t.ram p q = s.ram p q
  page : t.rx.regs.page.toNat + 1 = r1
  col : t.rx.regs.col = colAfter s.cfg.colOverflow c1
  mark : t.rx.regs.overflowed = true ↔ c1 = numCols ∧ s.cfg.colOverflow = .discard
  others : sameDisplay t.rx.regs
    { s.rx.regs with
      page := t.rx.regs.page
      col := t.rx.regs.col
      overflowed := t.rx.regs.overflowed }
  ready : Ready t

/-- TX emits exactly the given events: they follow the trace, the pins move with them, and nothing
else of TX, of the parameters, of `PS` or of the inputs changes. -/
structure Emits (s t : State) (es : List Event) : Prop where
  trace : t.trace = s.trace ++ es
  pins : t.pins = s.pins.applyAll es
  dinv : t.dinv = s.dinv
  cfg : t.cfg = s.cfg
  ps : t.ps = s.ps
  inputs : t.inputs = s.inputs
  draws : t.draws = s.draws

/-- R177, R179: TX is at its reset values, but for the latches, which are unspecified (R31). RX sees
the lines released (R16), and keeps everything else it held at `s`: RAM, cursor, mode registers,
`PENDING`, the wire decoder, `RXPHASE`. -/
structure ResetsTx (s t : State) : Prop where
  dinv : t.dinv = false
  trace : t.trace = []
  oeScl : t.pins.oeScl = false
  oeSda : t.pins.oeSda = false
  wire : t.pins.wire = ⟨.z, .z⟩
  rx : t.rx = { s.rx with prev := ⟨.z, .z⟩ }
  cfg : t.cfg = s.cfg
  ps : t.ps = s.ps
  inputs : t.inputs = s.inputs

/-- R98, R148, R149: in every state `i` completes and emits one command frame with the payload
`bytes`; at a listening RX the display's registers are then what `f` makes of them, no byte of RAM has
changed, and RX listens again. -/
def SendsCommand (s : State) (i : Instr) (bytes : List Byte) (f : RxRegs → RxRegs) : Prop :=
  ∃ t, exec i s = .next t ∧ Emits s t (frame (s.cfg.devAddr :: s.cfg.ctrlCmd :: bytes)) ∧
    (Listening s → Listening t ∧ (∀ p q, t.ram p q = s.ram p q) ∧
      sameDisplay t.rx.regs (f s.rx.regs))

/-- Operations issued one after the other (R20, R84). -/
def runAll : List Instr → State → Host.Outcome State Fault Refusal
  | [], s => .next s
  | i :: is, s =>
    match exec i s with
    | .next t => runAll is t
    | .fault f => .fault f
    | .refused r => .refused r

/-- The rising edges of `SCL` in a waveform that begins at `q`. -/
def risingEdges (q : LineState) : List LineState → Nat
  | [] => 0
  | q' :: wave => (if q.scl = .lo ∧ q'.scl = .hi then 1 else 0) + risingEdges q' wave

/-- The steps of a waveform that begins at `q` (R137). -/
def wireSteps (q : LineState) : List LineState → List WireStep
  | [] => []
  | q' :: wave => classify q q' :: wireSteps q' wave

end Safety

end Sys2Proof
end

