-- ==== Sys2Proof/Certificates/Slice0/Obligations.lean ====
section
/-!
DEFINITION. The statements about the model, for the provers.
-/

open Sys2Proof Sys2Proof.Machine Sys2Proof.Safety

/-! ### Reset, decoding, stepping -/

/-- R29, R33, with R30 (output enables, the spec's decision D4), R32 (line state) and R34, which leaves
`PENDING` none and `RXPHASE` idle to the spec's decision D6. -/
def Obligations.ResetLeavesTheStatedState : Prop :=
  State.reset.dinv = false ∧ State.reset.trace = [] ∧
    State.reset.pins.oeScl = false ∧ State.reset.pins.oeSda = false ∧
    State.reset.pins.wire = ⟨.z, .z⟩ ∧
    State.reset.rx.regs.pending = none ∧ State.reset.rx.regs.phase = .idle

/-- R76, R77, R67: words written out from the spec's encodings (programs P1 to P5, V-EXC-2, R109). -/
def Obligations.DecodesWordsWrittenFromTheSpec : Prop :=
  decodeHost 0x0278000000000000 = .ok (.sendByte 0x78) ∧
    decodeHost 0x1381000000000000 = .ok (.cmd1 0x81) ∧
    decodeHost 0x20054DFFFFFFFFFF = .ok (.setpos 5 77) ∧
    decodeHost 0x3000000000000000 = .ok .init ∧
    decodeHost 0x4002000000000100 = .ok (.text 2 0 0x0100) ∧
    decodeHost 0x4306780414AA0000 = .ok (.fillarea 6 120 4 20 0xAA) ∧
    decodeHost 0x45007E0203000200 = .ok (.image 0 126 2 3 0x0200) ∧
    decodeHost 0xFF00000000000000 = .error .reservedOp ∧
    decode OpTable.std (.ctrl 0xA1 0) = .ok (.segremap true) ∧
    decode OpTable.std (.ctrl 0xC8 0) = .ok (.comdir true) ∧
    decode OpTable.std (.ctrl 0xB5 0) = .ok (.setpage 5) ∧
    decode OpTable.std (.ctrl 0x81 0x7F) = .ok (.setcontrast 0x7F) ∧
    decode OpTable.std (.ctrl 0xE3 0) = .error .unknownOpcode

/-- Decoding the code of an instruction gives it back, every operand at every value, whatever the
opcode values of the controller table, as long as its rows lie under their masks and do not overlap, a
premise of the model's own (log entry 21) (R67, R76, R77). -/
def Obligations.DecodeOfEncodeIsTheInstruction : Prop :=
  ∀ (t : OpTable) (i : Instr), t.wf = true → decode t (encode t i) = .ok i

/-- R80, R77: a word is refused as reserved exactly when its `op` is in no row of R77. -/
def Obligations.OnlyReservedOpsAreRefusedAsReserved : Prop :=
  ∀ (s : State) (w : HostWord) (rest : List Input), s.inputs = .issue (.host w) :: rest →
    (step s = .refused .reservedOp ↔
      HostWord.op w ∉ ([0x01, 0x02, 0x03, 0x10, 0x11, 0x12, 0x13, 0x14, 0x20, 0x30, 0x31, 0x32,
        0x33, 0x34, 0x40, 0x41, 0x42, 0x43, 0x44, 0x45] : List Byte))

/-- R79: a field a row does not use has no effect on what a word decodes to. -/
def Obligations.UnusedFieldsAreIgnored : Prop :=
  ∀ w w' : HostWord, HostWord.op w = HostWord.op w' →
    (HostWord.op w ∈ ([0x01, 0x03, 0x10, 0x11, 0x12, 0x30] : List Byte) →
      decodeHost w = decodeHost w') ∧
    (HostWord.op w ∈ ([0x02, 0x13, 0x14, 0x31, 0x32, 0x33, 0x34, 0x42] : List Byte) →
      HostWord.a w = HostWord.a w' → decodeHost w = decodeHost w') ∧
    (HostWord.op w = 0x20 → HostWord.a w = HostWord.a w' → HostWord.b w = HostWord.b w' →
      decodeHost w = decodeHost w') ∧
    (HostWord.op w ∈ ([0x40, 0x41] : List Byte) → HostWord.a w = HostWord.a w' →
      HostWord.b w = HostWord.b w' → HostWord.ptr w = HostWord.ptr w' →
      decodeHost w = decodeHost w') ∧
    (HostWord.op w = 0x43 → HostWord.a w = HostWord.a w' → HostWord.b w = HostWord.b w' →
      HostWord.c w = HostWord.c w' → HostWord.d w = HostWord.d w' → HostWord.e w = HostWord.e w' →
      decodeHost w = decodeHost w') ∧
    (HostWord.op w = 0x44 → HostWord.a w = HostWord.a w' → HostWord.b w = HostWord.b w' →
      HostWord.c w = HostWord.c w' → HostWord.d w = HostWord.d w' → HostWord.e w = HostWord.e w' →
      HostWord.ptr w = HostWord.ptr w' → decodeHost w = decodeHost w') ∧
    (HostWord.op w = 0x45 → HostWord.a w = HostWord.a w' → HostWord.b w = HostWord.b w' →
      HostWord.c w = HostWord.c w' → HostWord.d w = HostWord.d w' →
      HostWord.ptr w = HostWord.ptr w' → decodeHost w = decodeHost w')

/-- R13, R20: a step takes the next input; if it is the code of an instruction, the step is that
instruction's `exec` at the state without that input. The model's own choice (DESIGN CHOICE, log entry
5): that inputs are a list held in the state, that a controller command's code may stand in it, and
that with no input left the step answers the same state. -/
def Obligations.StepRunsTheDecodedInstruction : Prop :=
  (∀ (s : State) (c : Code) (rest : List Input) (i : Instr),
      s.inputs = .issue c :: rest → decode s.cfg.ops c = .ok i →
      step s = exec i { s with inputs := rest }) ∧
    ∀ s : State, s.inputs = [] → step s = .next s

/-- `withFetchWord` places a table word so that the very next step runs what the decoder reads from
it (the opcode values of RX being the table's for a controller command). How a program comes to run is
the model's own choice (log entry 5). -/
def Obligations.FetchWordRunsTheTableWord : Prop :=
  ∀ (s : State) (w : Nat) (i : Instr),
    (decodeTableWord 64 w = some i → step (s.withFetchWord 64 w) = exec i s) ∧
    (decodeTableWord 8 w = some i →
      step (s.withFetchWord 8 w) = exec i { s with cfg := { s.cfg with ops := OpTable.std } })

/-! ### The link layer -/

/-- R86. -/
def Obligations.BeginSendsTheStartSequence : Prop :=
  ∀ s : State, ∃ t, exec .beginSession s = .next t ∧
    Emits s t [.write .scl true, .write .sda true, .write .sda false, .write .scl false] ∧
    t.pins = { s.pins with latchScl := false, latchSda := false }

/-- R88: 27 events, most significant bit first, the acknowledgement slot with `SDA` high. -/
def Obligations.SendbShiftsOutTheByteMsbFirst : Prop :=
  ∀ (s : State) (v : Byte), ∃ t, exec (.sendByte v) s = .next t ∧
    Emits s t
      (((List.range 8).flatMap fun i =>
          [.write .sda (v.getLsbD (7 - i)), .write .scl true, .write .scl false]) ++
        [.write .sda true, .write .scl true, .write .scl false]) ∧
    t.trace.length = s.trace.length + 27 ∧
    t.pins = { s.pins with latchScl := false, latchSda := true }

/-- R90. -/
def Obligations.EndSendsTheStopSequence : Prop :=
  ∀ s : State, ∃ t, exec .endSession s = .next t ∧
    Emits s t [.write .scl false, .write .sda false, .write .scl true, .write .sda true] ∧
    t.pins = { s.pins with latchScl := true, latchSda := true }

/-- R85: each link operation is a fixed list of `drive` events that depends on the operand only; it
never fails and writes neither `DINV` nor `OE`; with the lines not driven the latches and the trace
move, the wire stays `Z` and RX sees nothing. -/
def Obligations.LinkOperationsAreFixedEventLists : Prop :=
  ∀ i : Instr, (i = .beginSession ∨ (∃ v, i = .sendByte v) ∨ i = .endSession) →
    ∃ es : List Event, (∀ e ∈ es, ∃ l b, e = .write l b) ∧
      ∀ s : State, ∃ t, exec i s = .next t ∧ Emits s t es ∧
        t.pins.oeScl = s.pins.oeScl ∧ t.pins.oeSda = s.pins.oeSda ∧
        (s.pins.oeScl = false → s.pins.oeSda = false → s.rx.prev = ⟨.z, .z⟩ →
          t.pins.wire = ⟨.z, .z⟩ ∧ t.rx = s.rx)

/-- R72: 4, 27, 4 and `62 + 27 n` events; on the waveform a byte cell has exactly 9 rising edges of
`SCL`. -/
def Obligations.EventCountsOfFrames : Prop :=
  (∀ s t : State, exec .beginSession s = .next t → t.trace.length = s.trace.length + 4) ∧
    (∀ (s t : State) (v : Byte), exec (.sendByte v) s = .next t →
      t.trace.length = s.trace.length + 27) ∧
    (∀ s t : State, exec .endSession s = .next t → t.trace.length = s.trace.length + 4) ∧
    (∀ (a k : Byte) (payload : List Byte),
      (frame (a :: k :: payload)).length = 62 + 27 * payload.length) ∧
    ∀ (p : Pins) (v : Byte), p.oeScl = true → p.oeSda = true → p.latchScl = false →
      risingEdges p.wire (waveformFrom p (sendbEvents v)) = 9

/-- R60, R140 to R145: inside a frame, between two bytes, `SENDB v` hands RX exactly the byte `v`,
and `WDATA v` the byte `v` complemented when `DINV` is set; the wire decoder is then between two
bytes again. -/
def Obligations.SentByteReachesTheReceiver : Prop :=
  ∀ (s : State) (ph : RxPhase) (i : Instr) (v b : Byte), InFrame s ph → ph ≠ .idle →
    (i = .sendByte b ∧ v = b) ∨ (i = .wdata b ∧ v = b ^^^ mask s.dinv) →
    (s.rx.receive s.cfg v).unspecified = false →
    ∃ t, exec i s = .next t ∧ Emits s t (sendbEvents v) ∧
      t.rx = { s.rx.receive s.cfg v with
        prev := ⟨.lo, .hi⟩
        regs := { (s.rx.receive s.cfg v).regs with shift := v, slot := 0 } }

/-- R19: each event changes at most one line; two event lists with the same waveform are
indistinguishable to RX. -/
def Obligations.ReceiverSeesOnlyTheWaveform : Prop :=
  (∀ (p : Pins) (e : Event),
      (p.apply e).wire.scl = p.wire.scl ∨ (p.apply e).wire.sda = p.wire.sda) ∧
    ∀ (s : State) (es es' : List Event), s.rx.prev = s.pins.wire →
      waveformFrom s.pins es = waveformFrom s.pins es' →
      (s.perform es).rx = (s.perform es').rx

/-- R92, R160: on the waveform, from idle, a frame is one START, for each byte its 8 bits and the
acknowledgement cell with `SDA` 1, one more rising edge with `SDA` 0, one STOP, and no other change
of `SDA` while `SCL` is 1; the frames decoded from the waveform of a list of frames are exactly the
byte lists that were sent, one per frame. -/
def Obligations.FramesDecodeToTheBytesSent : Prop :=
  (∀ f : List Byte,
    Pins.idle.applyAll (frame f) = Pins.idle ∧
      (wireSteps LineState.idle (waveformFrom Pins.idle (frame f))).filter (· ≠ .quiet) =
        .start :: (f.flatMap fun v =>
            (List.range 8).map (fun i => .rise (v.getLsbD (7 - i))) ++ [.rise true]) ++
          [.rise false, .stop]) ∧
    ∀ fs : List (List Byte),
      framesOf LineState.idle (waveformFrom Pins.idle (fs.flatMap frame)) = fs

/-- R91, R146: `END` and `CLOSE` leave driven lines idle from any state, and RX with no frame open,
unless its state is unspecified for good (R158, U5). -/
def Obligations.EndResynchronises : Prop :=
  ∀ (s : State) (i : Instr), i = .endSession ∨ i = .close →
    s.pins.oeScl = true → s.pins.oeSda = true → s.rx.prev = s.pins.wire →
    ∃ t, exec i s = .next t ∧ t.pins = Pins.idle ∧
      (t.rx.lost = true ∨ t.rx.regs.phase = .idle)

/-- R138, R146, R71: opening and closing a frame leaves the display state alone: no byte of RAM and
no register of RX but those of the wire decoder changes. -/
def Obligations.OpeningAndClosingLeavesTheDisplay : Prop :=
  (∀ s : State, Ready s → ∀ i ph, (i = .beginSession ∧ ph = .addr) ∨ (i = .openc ∧ ph = .cmd) ∨
      (i = .opend ∧ ph = .data) →
      ∃ t, exec i s = .next t ∧ (∀ p q, t.ram p q = s.ram p q) ∧
        sameDisplay t.rx.regs s.rx.regs ∧ t.rx.regs.phase = ph ∧ t.rx.regs.slot = 0 ∧
        t.rx.unspecified = false) ∧
    ∀ (s : State) (ph : RxPhase), InFrame s ph → ph ≠ .idle → s.rx.regs.pending = none →
      ∀ i, i = .endSession ∨ i = .close →
      ∃ t, exec i s = .next t ∧ (∀ p q, t.ram p q = s.ram p q) ∧
        sameDisplay t.rx.regs s.rx.regs ∧ t.rx.regs.phase = .idle ∧ t.rx.unspecified = false

/-! ### The framing layer -/

/-- R84: every pseudo-operation equals its expansion. -/
def Obligations.PseudoOperationsEqualTheirExpansions : Prop :=
  ∀ (s : State) (x f : Byte),
    exec .close s = exec .endSession s ∧
    exec .openc s =
      runAll [.beginSession, .sendByte s.cfg.devAddr, .sendByte s.cfg.ctrlCmd] s ∧
    exec .opend s =
      runAll [.beginSession, .sendByte s.cfg.devAddr, .sendByte s.cfg.ctrlData] s ∧
    exec (.cmd1 x) s = runAll [.openc, .sendByte x, .close] s ∧
    exec (.wdata x) s = exec (.sendByte (x ^^^ (if s.dinv then 0xFF else 0x00))) s ∧
    exec (.invscr f) s =
      exec (.cmd1 (if f ≠ 0 then s.cfg.ops.inverton else s.cfg.ops.invertoff)) s ∧
    exec (.sleep f) s =
      exec (.cmd1 (if f ≠ 0 then s.cfg.ops.dispoff else s.cfg.ops.dispon)) s ∧
    exec (.fillscr x) s = exec (.fillarea 0 0 8 128 x) s

/-- R94, R95, R96, R97, R100: what each framing operation puts on the lines, how many events it
has, and where it leaves the latches. -/
def Obligations.FramingOperationsSendTheirBytes : Prop :=
  ∀ (s : State) (x : Byte),
    (∃ t, exec .openc s = .next t ∧
      Emits s t (beginEvents ++ sendbEvents s.cfg.devAddr ++ sendbEvents s.cfg.ctrlCmd) ∧
      t.trace.length = s.trace.length + 58 ∧
      t.pins = { s.pins with latchScl := false, latchSda := true }) ∧
    (∃ t, exec .opend s = .next t ∧
      Emits s t (beginEvents ++ sendbEvents s.cfg.devAddr ++ sendbEvents s.cfg.ctrlData) ∧
      t.trace.length = s.trace.length + 58 ∧
      t.pins = { s.pins with latchScl := false, latchSda := true }) ∧
    (∃ t, exec .close s = .next t ∧
      Emits s t [.write .scl false, .write .sda false, .write .scl true, .write .sda true] ∧
      t.pins = { s.pins with latchScl := true, latchSda := true }) ∧
    (∃ t, exec (.cmd1 x) s = .next t ∧
      Emits s t (frame [s.cfg.devAddr, s.cfg.ctrlCmd, x]) ∧
      t.trace.length = s.trace.length + 89 ∧
      t.pins = { s.pins with latchScl := true, latchSda := true }) ∧
    (∃ t, exec (.wdata x) s = .next t ∧
      Emits s t (sendbEvents (if s.dinv then ~~~ x else x)) ∧
      t.trace.length = s.trace.length + 27 ∧
      t.pins = { s.pins with latchScl := false, latchSda := true })

/-- `CMD1` of a complete command of the opcode table leaves RX as that command's own effect does,
and RAM alone (R97, R144, R148). -/
def Obligations.Cmd1RunsTheCommandAtTheReceiver : Prop :=
  ∀ (s : State) (op : Byte) (k : CtrlOp), Ready s → s.cfg.ops.find op = some k →
    k.takesArg = false →
    ∃ t, exec (.cmd1 op) s = .next t ∧ (∀ p q, t.ram p q = s.ram p q) ∧
      sameDisplay t.rx.regs (s.rx.apply (k.instr op 0)).regs ∧ Ready t

/-! ### Addressing -/

/-- R102, R103: a valid position is one frame of 5 bytes, 143 events, and moves RX's cursor and
nothing else; an invalid one changes nothing at all. -/
def Obligations.SetposSendsThePositionCommand : Prop :=
  ∀ (s : State) (row col : Byte),
    (row.toNat < 8 ∧ col.toNat < 128 →
      ∃ t, exec (.setpos row col) s = .next t ∧
        Emits s t (frame [s.cfg.devAddr, s.cfg.ctrlCmd, s.cfg.ops.setpage ||| row,
          s.cfg.ops.setcolhi ||| (col >>> 4), s.cfg.ops.setcollo ||| (col &&& 0x0F)]) ∧
        t.trace.length = s.trace.length + 143 ∧
        (Ready s → Ready t ∧ (∀ p q, t.ram p q = s.ram p q) ∧
          sameDisplay t.rx.regs
            { s.rx.regs with
              page := row.extractLsb' 0 3, col := col.extractLsb' 0 7, overflowed := false })) ∧
    (¬ (row.toNat < 8 ∧ col.toNat < 128) → exec (.setpos row col) s = .next s)

/-! ### Initialization and mode control -/

/-- R108: the pin set-up, then the Command Table as one command frame; `OE` is set, `DINV` kept. -/
def Obligations.InitSetsUpThePinsAndSendsTheTable : Prop :=
  ∀ s : State, ∃ t, exec .init s = .next t ∧
    Emits s t ([.enable .scl, .enable .sda, .write .scl true, .write .sda true] ++
      frame (s.cfg.devAddr :: s.cfg.ctrlCmd :: s.cfg.cmdTable)) ∧
    t.trace.length = s.trace.length + (2 + 2 + (62 + 27 * s.cfg.cmdTable.length)) ∧
    t.pins = Pins.idle

/-- R109, R148, R149: with no frame open at an addressed RX, `INIT` runs the Command Table's
commands at RX one after the other, whatever the lines were before it, and leaves RX ready for
drawing; no byte of RAM changes (R181). -/
def Obligations.InitRunsTheCommandTable : Prop :=
  ∀ (s : State) (is : List Instr), s.cfg.wf = true → s.cfg.strap = s.cfg.rxStrap →
    tableOk s.cfg is → s.rx.prev = s.pins.wire → Memory.wf .disp s.rx.ram = true →
    s.rx.unspecified = false → s.rx.regs.phase = .idle → s.rx.regs.pending = none →
    ∃ t, exec .init s = .next t ∧ Ready t ∧ (∀ p q, t.ram p q = s.ram p q) ∧
      sameDisplay t.rx.regs (is.foldl Rx.apply s.rx).regs

/-- V-INIT: the registers RX holds after `INIT` with the default table of R109 (general knowledge
G5, G6): the cursor, `INVERSE` and `DISP_OFFSET` are unchanged. -/
def Obligations.InitWithTheDefaultTable : Prop :=
  ∀ s : State, s.cfg = Config.std → s.rx.prev = s.pins.wire →
    Memory.wf .disp s.rx.ram = true → s.rx.unspecified = false → s.rx.regs.phase = .idle →
    s.rx.regs.pending = none →
    ∃ t, exec .init s = .next t ∧ Ready t ∧ (∀ p q, t.ram p q = s.ram p q) ∧
      sameDisplay t.rx.regs
        { s.rx.regs with
          muxRatio := 0x3F, segRemap := true, comDir := true, addrMode := 2, contrast := 0x7F,
          clkDiv := 0x80, chargePump := 0x14, displayOn := true }

/-- R110 item 1: the pin set-up of `INIT` never shows a START condition. -/
def Obligations.InitNeverShowsAStart : Prop :=
  ∀ p : Pins, WireStep.start ∉ wireSteps p.wire
    (waveformFrom p [.enable .scl, .enable .sda, .write .scl true, .write .sda true])

/-- R30: the lines are inputs after reset, and `INIT` alone makes them outputs. -/
def Obligations.OnlyInitMakesTheLinesOutputs : Prop :=
  State.reset.pins.oeScl = false ∧ State.reset.pins.oeSda = false ∧
    ∀ (i : Instr) (s t : State), exec i s = .next t →
      (i = .init → t.pins.oeScl = true ∧ t.pins.oeSda = true) ∧
      (i ≠ .init → t.pins.oeScl = s.pins.oeScl ∧ t.pins.oeSda = s.pins.oeSda)

/-- R111, R112, R113: one command frame each; the register of RX named, and nothing else of the
display, takes the operand. -/
def Obligations.ModeOperationsSetTheirRegister : Prop :=
  ∀ (s : State) (x : Byte),
    (∃ t, exec (.contrast x) s = .next t ∧
      Emits s t (frame [s.cfg.devAddr, s.cfg.ctrlCmd, s.cfg.ops.setcontrast, x]) ∧
      t.trace.length = s.trace.length + 116 ∧
      (Ready s → Ready t ∧ (∀ p q, t.ram p q = s.ram p q) ∧
        sameDisplay t.rx.regs { s.rx.regs with contrast := x })) ∧
    (∃ t, exec (.invscr x) s = .next t ∧
      Emits s t (frame [s.cfg.devAddr, s.cfg.ctrlCmd,
        if x ≠ 0 then s.cfg.ops.inverton else s.cfg.ops.invertoff]) ∧
      t.trace.length = s.trace.length + 89 ∧
      (Ready s → Ready t ∧ (∀ p q, t.ram p q = s.ram p q) ∧
        sameDisplay t.rx.regs { s.rx.regs with inverse := decide (x ≠ 0) })) ∧
    ∃ t, exec (.sleep x) s = .next t ∧
      Emits s t (frame [s.cfg.devAddr, s.cfg.ctrlCmd,
        if x ≠ 0 then s.cfg.ops.dispoff else s.cfg.ops.dispon]) ∧
      t.trace.length = s.trace.length + 89 ∧
      (Ready s → Ready t ∧ (∀ p q, t.ram p q = s.ram p q) ∧
        sameDisplay t.rx.regs { s.rx.regs with displayOn := decide (x = 0) })

/-- R114: `INVDATA` sets `DINV` to the truth of its operand and does nothing else. -/
def Obligations.InvdataSetsTheFlag : Prop :=
  ∀ (s : State) (f : Byte), exec (.invdata f) s = .next { s with dinv := decide (f ≠ 0) }

/-- R17, R18: `DINV` is 0 after reset and no operation but `INVDATA` writes it; only `WDATA` and the
rendering operations read it. -/
def Obligations.OnlyInvdataWritesTheFlag : Prop :=
  State.reset.dinv = false ∧
    (∀ (i : Instr) (s t : State), (∀ f, i ≠ .invdata f) → exec i s = .next t →
      t.dinv = s.dinv) ∧
    ∀ (i : Instr) (s : State) (b : Bool),
      (∀ v, i ≠ .wdata v) → (∀ r c p, i ≠ .text r c p) → (∀ r c p, i ≠ .text2x r c p) →
      (∀ v, i ≠ .fillscr v) → (∀ a b c d e, i ≠ .fillarea a b c d e) →
      (∀ a b c d e p, i ≠ .fillpat a b c d e p) → (∀ a b c d p, i ≠ .image a b c d p) →
      ∃ t t', exec i s = .next t ∧ exec i { s with dinv := b } = .next t' ∧
        t'.trace = t.trace ∧ t'.pins = t.pins ∧ t'.rx = t.rx

/-- R18, R85: what TX does is a function of the operands, of `DINV` and of the read-only tables: it
never depends on the lines, on what was sent before, or on RX. -/
def Obligations.TransmitterIgnoresLinesAndReceiver : Prop :=
  ∀ (i : Instr) (s s' : State), s.cfg = s'.cfg → s.ps = s'.ps → s.dinv = s'.dinv →
    (∃ es t t', exec i s = .next t ∧ exec i s' = .next t' ∧ t.trace = s.trace ++ es ∧
      t'.trace = s'.trace ++ es ∧ t.pins = s.pins.applyAll es ∧ t'.pins = s'.pins.applyAll es ∧
      t.dinv = t'.dinv) ∨
    ∃ r, exec i s = .refused r ∧ exec i s' = .refused r

/-! ### Rendering: what is sent -/

/-- R118, R40, R41: one position frame, then one data frame per glyph that fits; no event for a
position off the screen; a code outside `32..PMAX_1X` is glyph 0; R134, its events. That a position
off the screen is tested before the operand list, so that nothing is refused there whatever `PS` holds
(R175), is the model's own choice (DESIGN CHOICE, log entry 10). -/
def Obligations.TextSendsOneFramePerGlyph : Prop :=
  ∀ (s : State) (row col : Byte) (ptr : PsAddr),
    (row.toNat ≥ 8 ∨ col.toNat ≥ 128 → exec (.text row col ptr) s = .next s) ∧
    ∀ codes, row.toNat < 8 → col.toNat < 128 → stringIs s ptr codes → s.cfg.fontsOk = true →
      ∃ t, exec (.text row col ptr) s = .next t ∧
        Emits s t (positionFrame s.cfg row.toNat col.toNat ++
          (codes.take ((128 - col.toNat) / 6)).flatMap fun ch =>
            dataFrame s.cfg s.dinv ((List.range 6).map fun j =>
              s.cfg.font6.getD
                ((if 32 ≤ ch.toNat ∧ ch.toNat ≤ s.cfg.pmax1x.toNat then ch.toNat - 32 else 0) * 6 + j)
                0)) ∧
        t.trace.length =
          s.trace.length + (143 + min codes.length ((128 - col.toNat) / 6) * (62 + 162))

/-- R120: `TEXT` of a string and of the prefix of it that fits are the same step. Where a font table is
too short, that only the glyphs drawn must lie in it is the model's own choice (DESIGN CHOICE, log entry
10). -/
def Obligations.TextPrefixLaw : Prop :=
  ∀ (s : State) (row col : Byte) (ptr ptr' : PsAddr) (codes : List Byte),
    col.toNat ≤ 128 → stringIs s ptr codes →
    stringIs s ptr' (codes.take (min codes.length ((128 - col.toNat) / 6))) →
    exec (.text row col ptr) s = exec (.text row col ptr') s

/-- R121, R40, R42: two passes, the upper halves on `row`, then the lower halves on `row + 1`; no event
where `row` leaves no room for two rows. The room test and the framing of a pass are the spec's decision
D20. That a position off the screen is tested before the operand list, so that nothing is refused there
whatever `PS` holds (R175), is the model's own choice (DESIGN CHOICE, log entry 10). -/
def Obligations.Text2xSendsTwoPasses : Prop :=
  ∀ (s : State) (row col : Byte) (ptr : PsAddr),
    (row.toNat ≥ 7 ∨ col.toNat ≥ 128 → exec (.text2x row col ptr) s = .next s) ∧
    ∀ codes, row.toNat < 7 → col.toNat < 128 → stringIs s ptr codes → s.cfg.fontsOk = true →
      ∃ t, exec (.text2x row col ptr) s = .next t ∧
        Emits s t ((List.range 2).flatMap fun half =>
          positionFrame s.cfg (row.toNat + half) col.toNat ++
            (codes.take ((128 - col.toNat) / 8)).flatMap fun ch =>
              dataFrame s.cfg s.dinv ((List.range 8).map fun j =>
                s.cfg.font16.getD
                  ((if 32 ≤ ch.toNat ∧ ch.toNat ≤ s.cfg.pmax2x.toNat then ch.toNat - 32 else 0) * 16 +
                    half * 8 + j) 0)) ∧
        t.trace.length =
          s.trace.length + (286 + 2 * min codes.length ((128 - col.toNat) / 8) * (62 + 216))

/-- R124: 8 position frames, each followed by a data frame of 128 equal bytes; 29288 events. -/
def Obligations.FillscrSendsEightRows : Prop :=
  ∀ (s : State) (v : Byte), ∃ t, exec (.fillscr v) s = .next t ∧
    Emits s t ((List.range 8).flatMap fun r =>
      positionFrame s.cfg r 0 ++ dataFrame s.cfg s.dinv (List.replicate 128 v)) ∧
    t.trace.length = s.trace.length + 29288

/-- R125, R126: the clipped rectangle row by row; no event for an empty one. -/
def Obligations.FillareaSendsTheClippedRectangle : Prop :=
  ∀ (s : State) (srow scol rows cols v : Byte),
    ((min (srow.toNat + rows.toNat) 8 ≤ srow.toNat ∨ min (scol.toNat + cols.toNat) 128 ≤ scol.toNat) ↔
      (8 ≤ srow.toNat ∨ 128 ≤ scol.toNat ∨ rows = 0 ∨ cols = 0)) ∧
    (8 ≤ srow.toNat ∨ 128 ≤ scol.toNat ∨ rows = 0 ∨ cols = 0 →
      exec (.fillarea srow scol rows cols v) s = .next s) ∧
    (¬ (8 ≤ srow.toNat ∨ 128 ≤ scol.toNat ∨ rows = 0 ∨ cols = 0) →
      ∃ t, exec (.fillarea srow scol rows cols v) s = .next t ∧
        Emits s t
          ((List.range (min (srow.toNat + rows.toNat) 8 - srow.toNat)).flatMap fun i =>
            positionFrame s.cfg (srow.toNat + i) scol.toNat ++
              dataFrame s.cfg s.dinv
                (List.replicate (min (scol.toNat + cols.toNat) 128 - scol.toNat) v)) ∧
        t.trace.length = s.trace.length + (min (srow.toNat + rows.toNat) 8 - srow.toNat) *
          (143 + 62 + 27 * (min (scol.toNat + cols.toNat) 128 - scol.toNat)))

/-- R128, R129, R130: column `scol + j` of every row takes `pattern[j mod plen]`; `plen` = 0 is
refused; an empty rectangle sends nothing. That `plen` = 0 is refused even for an empty rectangle, and
that an empty rectangle is tested before the pattern's bytes need lie in `PS` (R128, R175), is the model's
own choice (DESIGN CHOICE, log entry 10). -/
def Obligations.FillpatCyclesThePatternOnEveryRow : Prop :=
  ∀ (s : State) (srow scol rows cols plen : Byte) (ptr : PsAddr),
    (plen = 0 → exec (.fillpat srow scol rows cols plen ptr) s = .refused .patternLengthZero) ∧
    (plen ≠ 0 → 8 ≤ srow.toNat ∨ 128 ≤ scol.toNat ∨ rows = 0 ∨ cols = 0 →
      exec (.fillpat srow scol rows cols plen ptr) s = .next s) ∧
    (plen ≠ 0 → ¬ (8 ≤ srow.toNat ∨ 128 ≤ scol.toNat ∨ rows = 0 ∨ cols = 0) →
      ptr.toNat + plen.toNat ≤ 65536 →
      ∃ t, exec (.fillpat srow scol rows cols plen ptr) s = .next t ∧
        Emits s t
          ((List.range (min (srow.toNat + rows.toNat) 8 - srow.toNat)).flatMap fun i =>
            positionFrame s.cfg (srow.toNat + i) scol.toNat ++
              dataFrame s.cfg s.dinv
                ((List.range (min (scol.toNat + cols.toNat) 128 - scol.toNat)).map fun j =>
                  psByte s.ps (ptr.toNat + j % plen.toNat))) ∧
        t.trace.length = s.trace.length + (min (srow.toNat + rows.toNat) 8 - srow.toNat) *
          (143 + 62 + 27 * (min (scol.toNat + cols.toNat) 128 - scol.toNat)))

/-- R131, R132: the byte for row `srow + i` and column `scol + j` is `image[i * icols + j]`, `icols`
the unclipped width. That an empty rectangle is tested before the image need lie in `PS` (R44, R175), and
that the image must lie there whole, is the model's own choice (DESIGN CHOICE, log entry 10). -/
def Obligations.ImageSendsEachRowFromItsOwnStart : Prop :=
  ∀ (s : State) (srow scol irows icols : Byte) (ptr : PsAddr),
    (8 ≤ srow.toNat ∨ 128 ≤ scol.toNat ∨ irows = 0 ∨ icols = 0 →
      exec (.image srow scol irows icols ptr) s = .next s) ∧
    (¬ (8 ≤ srow.toNat ∨ 128 ≤ scol.toNat ∨ irows = 0 ∨ icols = 0) →
      ptr.toNat + irows.toNat * icols.toNat ≤ 65536 →
      ∃ t, exec (.image srow scol irows icols ptr) s = .next t ∧
        Emits s t
          ((List.range (min (srow.toNat + irows.toNat) 8 - srow.toNat)).flatMap fun i =>
            positionFrame s.cfg (srow.toNat + i) scol.toNat ++
              dataFrame s.cfg s.dinv
                ((List.range (min (scol.toNat + icols.toNat) 128 - scol.toNat)).map fun j =>
                  psByte s.ps (ptr.toNat + (i * icols.toNat + j)))) ∧
        t.trace.length = s.trace.length + (min (srow.toNat + irows.toNat) 8 - srow.toNat) *
          (143 + 62 + 27 * (min (scol.toNat + icols.toNat) 128 - scol.toNat)))

/-- R127, R130: equal fills: a clipped rectangle of the whole screen is `FILLSCR`, a one-byte
pattern is `FILLAREA`, rows beyond the screen are cut. -/
def Obligations.EqualFills : Prop :=
  ∀ (s : State) (x : Byte),
    exec (.fillarea 0 0 8 128 x) s = exec (.fillscr x) s ∧
    exec (.fillarea 0 0 255 255 x) s = exec (.fillscr x) s ∧
    exec (.fillarea 7 0 255 1 x) s = exec (.fillarea 7 0 1 1 x) s ∧
    ∀ (srow scol rows cols : Byte) (ptr : PsAddr), psByte s.ps ptr.toNat = x →
      exec (.fillpat srow scol rows cols 1 ptr) s = exec (.fillarea srow scol rows cols x) s

/-- R175 (with the model's choice of log entry 10: the bounds are tested before the operand list):
an operation ends normally but for the refusals listed: `FILLPAT` with `plen` = 0, an operand list
that runs past the end of `PS`, a glyph beyond the font. -/
def Obligations.OperationsEndNormallyOrAsListed : Prop :=
  ∀ (i : Instr) (s : State),
    (∃ t, exec i s = .next t) ∨
    (∃ a b c d p, i = .fillpat a b c d 0 p ∧ exec i s = .refused .patternLengthZero) ∨
    (∃ a b c d e p, i = .fillpat a b c d e p ∧ p.toNat + e.toNat > 65536 ∧
      exec i s = .refused .operandPastPs) ∨
    (∃ a b c d p, i = .image a b c d p ∧ p.toNat + c.toNat * d.toNat > 65536 ∧
      exec i s = .refused .operandPastPs) ∨
    (∃ r c p, (i = .text r c p ∨ i = .text2x r c p) ∧ (∀ codes, ¬ stringIs s p codes) ∧
      exec i s = .refused .operandPastPs) ∨
    (∃ r c p, (i = .text r c p ∨ i = .text2x r c p) ∧ s.cfg.fontsOk = false ∧
      exec i s = .refused .glyphPastFont)

/-! ### Rendering: what the display holds -/

/-- R135, R124: every byte of the display RAM takes the byte filled, complemented when `DINV` is
set. -/
def Obligations.FillscrSetsEveryByte : Prop :=
  ∀ (s : State) (v : Byte), Ready s →
    ∃ t, exec (.fillscr v) s = .next t ∧ Draws s t 0 8 0 128 fun _ _ => v

/-- R135, R126. -/
def Obligations.FillareaFillsTheRectangle : Prop :=
  ∀ (s : State) (srow scol rows cols v : Byte), Ready s →
    srow.toNat < 8 → scol.toNat < 128 → rows ≠ 0 → cols ≠ 0 →
    ∃ t, exec (.fillarea srow scol rows cols v) s = .next t ∧
      Draws s t srow.toNat (min (srow.toNat + rows.toNat) 8)
        scol.toNat (min (scol.toNat + cols.toNat) 128) fun _ _ => v

/-- R135, R129. -/
def Obligations.FillpatFillsTheRectangle : Prop :=
  ∀ (s : State) (srow scol rows cols plen : Byte) (ptr : PsAddr), Ready s →
    srow.toNat < 8 → scol.toNat < 128 → rows ≠ 0 → cols ≠ 0 → plen ≠ 0 →
    ptr.toNat + plen.toNat ≤ 65536 →
    ∃ t, exec (.fillpat srow scol rows cols plen ptr) s = .next t ∧
      Draws s t srow.toNat (min (srow.toNat + rows.toNat) 8)
        scol.toNat (min (scol.toNat + cols.toNat) 128) fun _ j =>
          psByte s.ps (ptr.toNat + j % plen.toNat)

/-- R135, R131, R132. -/
def Obligations.ImageFillsTheRectangle : Prop :=
  ∀ (s : State) (srow scol irows icols : Byte) (ptr : PsAddr), Ready s →
    srow.toNat < 8 → scol.toNat < 128 → irows ≠ 0 → icols ≠ 0 →
    ptr.toNat + irows.toNat * icols.toNat ≤ 65536 →
    ∃ t, exec (.image srow scol irows icols ptr) s = .next t ∧
      Draws s t srow.toNat (min (srow.toNat + irows.toNat) 8)
        scol.toNat (min (scol.toNat + icols.toNat) 128) fun i j =>
          psByte s.ps (ptr.toNat + (i * icols.toNat + j))

/-- R135, R118, R119: the glyphs drawn stand side by side from the column on, on the one row; where
none fits, the position command alone has its effect. -/
def Obligations.TextWritesItsGlyphs : Prop :=
  ∀ (s : State) (row col : Byte) (ptr : PsAddr) (codes : List Byte), Ready s →
    row.toNat < 8 → col.toNat < 128 → stringIs s ptr codes →
    ∃ t, exec (.text row col ptr) s = .next t ∧
      (0 < min codes.length ((128 - col.toNat) / 6) →
        Draws s t row.toNat (row.toNat + 1) col.toNat
          (col.toNat + 6 * min codes.length ((128 - col.toNat) / 6)) fun _ j =>
            s.cfg.font6.getD (gidx (codes.getD (j / 6) 0) s.cfg.pmax1x * 6 + j % 6) 0) ∧
      (min codes.length ((128 - col.toNat) / 6) = 0 →
        Ready t ∧ (∀ p q, t.ram p q = s.ram p q) ∧
          sameDisplay t.rx.regs { s.rx.regs with
            page := row.extractLsb' 0 3, col := col.extractLsb' 0 7, overflowed := false })

/-- R135, R121, R122: the two halves of the glyphs drawn stand on the row and the row below it; where
none fits, the two position commands alone have their effect. -/
def Obligations.Text2xWritesItsGlyphs : Prop :=
  ∀ (s : State) (row col : Byte) (ptr : PsAddr) (codes : List Byte), Ready s →
    row.toNat < 7 → col.toNat < 128 → stringIs s ptr codes →
    ∃ t, exec (.text2x row col ptr) s = .next t ∧
      (0 < min codes.length ((128 - col.toNat) / 8) →
        Draws s t row.toNat (row.toNat + 2) col.toNat
          (col.toNat + 8 * min codes.length ((128 - col.toNat) / 8)) fun half j =>
            s.cfg.font16.getD
              (gidx (codes.getD (j / 8) 0) s.cfg.pmax2x * 16 + half * 8 + j % 8) 0) ∧
      (min codes.length ((128 - col.toNat) / 8) = 0 →
        Ready t ∧ (∀ p q, t.ram p q = s.ram p q) ∧
          sameDisplay t.rx.regs { s.rx.regs with
            page := (row + 1).extractLsb' 0 3, col := col.extractLsb' 0 7, overflowed := false })

/-! ### The receiver -/

/-- R155, R156: a byte in an open data frame is written at the cursor, which advances; after column
127 the three readings of `COL_OVERFLOW`; under `discard` the mark drops the byte; a position command's
column byte clears the mark. That a mark set under `wrap` or `saturate` (a free draw can set it) drops
nothing, and is kept, is the model's own choice (DESIGN CHOICE, log entry 20). -/
def Obligations.DataByteIsWrittenAtTheCursor : Prop :=
  (∀ (s : State) (i : Instr) (b v : Byte), InFrame s .data → s.rx.regs.addrMode = 2 →
    (i = .sendByte b ∧ v = b) ∨ (i = .wdata b ∧ v = if s.dinv then ~~~ b else b) →
    ∃ t, exec i s = .next t ∧ InFrame t .data ∧ t.rx.regs.page = s.rx.regs.page ∧
      sameDisplay t.rx.regs
        { s.rx.regs with col := t.rx.regs.col, overflowed := t.rx.regs.overflowed } ∧
      (s.rx.regs.overflowed = true ∧ s.cfg.colOverflow = .discard → (∀ p q, t.ram p q = s.ram p q) ∧
        t.rx.regs.col = s.rx.regs.col ∧ t.rx.regs.overflowed = true) ∧
      (¬ (s.rx.regs.overflowed = true ∧ s.cfg.colOverflow = .discard) →
        t.ram s.rx.regs.page s.rx.regs.col = v ∧
        (∀ p q, ¬ (p = s.rx.regs.page ∧ q = s.rx.regs.col) → t.ram p q = s.ram p q) ∧
        (s.rx.regs.col.toNat < 127 →
          t.rx.regs.col.toNat = s.rx.regs.col.toNat + 1 ∧
          t.rx.regs.overflowed = s.rx.regs.overflowed) ∧
        (s.rx.regs.col.toNat = 127 → s.cfg.colOverflow = .wrap →
          t.rx.regs.col = 0 ∧ t.rx.regs.overflowed = s.rx.regs.overflowed) ∧
        (s.rx.regs.col.toNat = 127 → s.cfg.colOverflow = .saturate →
          t.rx.regs.col = 127 ∧ t.rx.regs.overflowed = s.rx.regs.overflowed) ∧
        (s.rx.regs.col.toNat = 127 → s.cfg.colOverflow = .discard →
          t.rx.regs.col = 127 ∧ t.rx.regs.overflowed = true))) ∧
    ∀ (s : State) (i : Instr) (x : BitVec 4), Ready s → i = .setcollo x ∨ i = .setcolhi x →
      ∃ t, exec i s = .next t ∧ t.rx.regs.overflowed = false ∧
        t.rx.regs.page = s.rx.regs.page ∧ ∀ p q, t.ram p q = s.ram p q

/-- R157, R67: each mode command stores its value in its register and changes nothing else of the
display. That HOST issues a mode command as a command frame of its own is the model's own choice
(DESIGN CHOICE, log entry 5). -/
def Obligations.ModeCommandsWriteTheirRegister : Prop :=
  ∀ (s : State) (v : Byte) (b : Bool),
    SendsCommand s (.addrmode v) [s.cfg.ops.addrmode, v]
      (fun g => { g with addrMode := v.extractLsb' 0 2 }) ∧
    SendsCommand s (.setcontrast v) [s.cfg.ops.setcontrast, v] (fun g => { g with contrast := v }) ∧
    SendsCommand s (.chargepump v) [s.cfg.ops.chargepump, v] (fun g => { g with chargePump := v }) ∧
    SendsCommand s (.segremap b) [s.cfg.ops.segremap ||| if b then 0x01 else 0x00]
      (fun g => { g with segRemap := b }) ∧
    SendsCommand s .invertoff [s.cfg.ops.invertoff] (fun g => { g with inverse := false }) ∧
    SendsCommand s .inverton [s.cfg.ops.inverton] (fun g => { g with inverse := true }) ∧
    SendsCommand s (.setmux v) [s.cfg.ops.setmux, v]
      (fun g => { g with muxRatio := v.extractLsb' 0 6 }) ∧
    SendsCommand s .dispoff [s.cfg.ops.dispoff] (fun g => { g with displayOn := false }) ∧
    SendsCommand s .dispon [s.cfg.ops.dispon] (fun g => { g with displayOn := true }) ∧
    SendsCommand s (.comdir b) [s.cfg.ops.comdir ||| if b then 0x08 else 0x00]
      (fun g => { g with comDir := b }) ∧
    SendsCommand s (.dispoffset v) [s.cfg.ops.dispoffset, v]
      (fun g => { g with dispOffset := v.extractLsb' 0 6 }) ∧
    SendsCommand s (.clkdiv v) [s.cfg.ops.clkdiv, v] (fun g => { g with clkDiv := v })

/-- R151, R152, R153: the cursor commands in page addressing mode; after the three bytes of a
position command for a valid position, in any prior state, the cursor is that position. That HOST
issues a cursor command as a command frame of its own is the model's own choice (log entry 5). -/
def Obligations.CursorCommandsSetTheirField : Prop :=
  ∀ s : State, s.rx.regs.addrMode = 2 →
    (∀ p : BitVec 3, SendsCommand s (.setpage p) [s.cfg.ops.setpage ||| p.setWidth 8]
      (fun g => { g with page := p })) ∧
    (∀ x : BitVec 4, ∃ q : BitVec 7, q.extractLsb' 4 3 = x.extractLsb' 0 3 ∧
      q.extractLsb' 0 4 = s.rx.regs.col.extractLsb' 0 4 ∧
      SendsCommand s (.setcolhi x) [s.cfg.ops.setcolhi ||| x.setWidth 8]
        (fun g => { g with col := q, overflowed := false })) ∧
    (∀ x : BitVec 4, ∃ q : BitVec 7, q.extractLsb' 4 3 = s.rx.regs.col.extractLsb' 4 3 ∧
      q.extractLsb' 0 4 = x ∧
      SendsCommand s (.setcollo x) [s.cfg.ops.setcollo ||| x.setWidth 8]
        (fun g => { g with col := q, overflowed := false })) ∧
    ∀ row col : Nat, row < 8 → col < 128 → s.cfg.ops.wf = true → s.rx.regs.pending = none →
      let r1 := s.rx.commandByte s.cfg (s.cfg.ops.setpage ||| BitVec.ofNat 8 row)
      let r2 := r1.commandByte s.cfg (s.cfg.ops.setcolhi ||| BitVec.ofNat 8 (col / 16))
      let r3 := r2.commandByte s.cfg (s.cfg.ops.setcollo ||| BitVec.ofNat 8 (col % 16))
      r3.regs.page.toNat = row ∧ r3.regs.col.toNat = col

/-- R154 (the model's free cursor, log entry 8; a command as a frame of its own, log entry 5): outside
page addressing mode a cursor command completes and changes nothing of the display but the cursor,
whose value is free. -/
def Obligations.CursorIsFreeOutsidePageMode : Prop :=
  ∀ (s : State) (i : Instr) (op arg : Byte), s.rx.regs.addrMode ≠ 2 →
    (∃ p, i = .setpage p) ∨ (∃ x, i = .setcolhi x) ∨ (∃ x, i = .setcollo x) →
    encode s.cfg.ops i = .ctrl op arg →
    ∃ page col ov, SendsCommand s i [op]
      (fun g => { g with page := page, col := col, overflowed := ov })

/-- R66, R144, R148, R149: a controller command is one command frame of its bytes, sent as `OPENC`,
the bytes, `CLOSE`; a listening RX then holds what the command's own effect makes of it; at RX, with
no argument pending, its opcode byte has that effect at once if its row takes no argument, and
otherwise sets `PENDING` alone, after which the argument byte, whatever its value, has it. That HOST
issues a command so is the model's own choice (DESIGN CHOICE, log entry 5). -/
def Obligations.CommandBytesHaveTheCommandsEffect : Prop :=
  ∀ (s : State) (i : Instr) (op arg : Byte), s.cfg.ops.wf = true →
    encode s.cfg.ops i = .ctrl op arg →
    ∃ k, s.cfg.ops.find op = some k ∧
      exec i s = runAll ([.openc, .sendByte op] ++
        (if k.takesArg then [.sendByte arg] else []) ++ [.close]) s ∧
      SendsCommand s i (if k.takesArg then [op, arg] else [op]) (fun _ => (s.rx.apply i).regs) ∧
      (s.rx.regs.pending = none →
        (k.takesArg = false → s.rx.commandByte s.cfg op = s.rx.apply i) ∧
        (k.takesArg = true →
          s.rx.commandByte s.cfg op =
            { s.rx with regs := { s.rx.regs with pending := some op } } ∧
          (s.rx.commandByte s.cfg op).commandByte s.cfg arg = s.rx.apply i))

/-- R99, R150 (general knowledge G9, `pendingSurvives`): a command frame that lacks its argument
leaves `PENDING` set, and the first byte of the next command frame is taken as the argument,
whatever it is. -/
def Obligations.MissingArgumentTakesTheNextCommandByte : Prop :=
  ∀ (s : State) (op v : Byte) (k : CtrlOp), Ready s → s.cfg.pendingSurvives = true →
    s.cfg.ops.find op = some k → k.takesArg = true →
    ∃ t u, exec (.cmd1 op) s = .next t ∧ t.rx.regs.pending = some op ∧
      sameDisplay t.rx.regs { s.rx.regs with pending := some op } ∧
      (∀ p q, t.ram p q = s.ram p q) ∧
      exec (.cmd1 v) t = .next u ∧ u.rx.regs.pending = none ∧
      sameDisplay u.rx.regs (s.rx.apply (k.instr op v)).regs ∧ (∀ p q, u.ram p q = s.ram p q)

/-- R158, R68 (log entry 7): a byte in no row of the opcode table marks RX unspecified, and an RX so
marked stays so whatever the lines do and whatever command reaches it. -/
def Obligations.UnspecifiedReceiverStaysUnspecified : Prop :=
  (∀ (r : Rx) (c : Config) (v : Byte), r.regs.pending = none → c.ops.find v = none →
      (r.commandByte c v).lost = true) ∧
    ∀ (s t : State) (i : Instr), s.rx.lost = true → exec i s = .next t → t.rx.lost = true

/-- R142, R162: an RX at the other address ignores every composed operation: nothing of the display
changes, and RX is idle again after it. -/
def Obligations.UnaddressedReceiverIgnoresOperations : Prop :=
  ∀ (i : Instr) (s t : State), after .idle i = some .idle → exec i s = .next t →
    s.cfg.wf = true → s.cfg.strap ≠ s.cfg.rxStrap → s.pins = Pins.idle →
    s.rx.prev = LineState.idle → s.rx.unspecified = false → s.rx.regs.phase = .idle →
    (∀ p q, t.ram p q = s.ram p q) ∧ sameDisplay t.rx.regs s.rx.regs ∧ t.rx.regs.phase = .idle ∧
      t.rx.unspecified = false

/-! ### Invariants -/

/-- The invariant holds after reset: RX has seen the lines as they are, both memories are in canonical
form, and `PENDING`, if any, is an opcode that takes an argument. -/
def Obligations.ResetHasTheInvariant : Prop := StateOk State.reset

/-- Every step keeps the invariant: RX has seen the lines as they are, the memories are in canonical
form, `PENDING` is an opcode that takes an argument unless RX is unspecified. -/
def Obligations.StepKeepsTheInvariant : Prop :=
  ∀ s t : State, StateOk s → step s = .next t → StateOk t

/-- R53, R9: no step writes the parameters or the operand storage. -/
def Obligations.StepKeepsParametersAndOperandStorage : Prop :=
  ∀ s t : State, step s = .next t → t.cfg = s.cfg ∧ t.ps = s.ps

/-- R186, R193: as long as HOST keeps the frame discipline, the lines are idle between frames, (0,1)
inside a command or data frame, and `SCL` is low after a bare `BEGIN`. -/
def Obligations.DisciplineKeepsTheLines : Prop :=
  ∀ (g g' : TxPhase) (i : Instr) (s t : State), after g i = some g' → pinsFit g s.pins →
    exec i s = .next t → pinsFit g' t.pins

/-- R186, R199: as long as HOST keeps the frame discipline, RX's frame phase follows TX's ghost
phase, unless RX becomes unspecified. -/
def Obligations.ReceiverFollowsTheDiscipline : Prop :=
  ∀ (g g' : TxPhase) (i : Instr) (s t : State), s.cfg.wf = true → s.cfg.strap = s.cfg.rxStrap →
    after g i = some g' → pinsFit g s.pins → s.rx.prev = s.pins.wire → rxFit g s.rx →
    exec i s = .next t → rxFit g' t.rx

/-! ### The other inputs -/

/-- R177, R179: the reset input puts every item of TX at its reset value and leaves RX as it was;
the lines are released. It is asynchronous: inside an operation, after `k` of its events, RX keeps what
those events left, and so is still in the frame they cut. The `CLOSE` at the end of an `INIT` after it
leaves RX with no frame open, unless its state is unspecified for good (R158, log entry 7; the cautious
readings of U2 and U5, log entries 11 and 12). That operations and resets are a list of inputs is the
model's own choice (log entry 5). -/
def Obligations.ResetInputResetsTheTransmitterOnly : Prop :=
  (∀ (s : State) (rest : List Input), s.inputs = .txReset :: rest →
      ∃ t, step s = .next t ∧ ResetsTx { s with inputs := rest } t) ∧
    (∀ (s u : State) (k : Nat) (w : HostWord) (i : Instr) (rest : List Input),
      s.inputs = .resetDuring k w :: rest → decodeHost w = .ok i →
      exec i { s with inputs := rest } = .next u →
      ∃ es t, u.trace = s.trace ++ es ∧ step s = .next t ∧
        ResetsTx (({ s with inputs := rest } : State).perform (es.take k)) t) ∧
    ∀ s t : State, ResetsTx s t →
      ∃ v, exec .init t = .next v ∧ v.pins = Pins.idle ∧
        (v.rx.lost = true ∨ v.rx.regs.phase = .idle)

/-- R168, U14: an operation stopped after `k` events has sent its first `k` events, or all of them;
stopped in the middle on driven lines, it leaves RX at any value (the model's reading of U14, log entry
15). A `CLOSE` then leaves driven lines idle and RX specified with no frame open, unless its state was
unspecified for good before. Where RX was in page addressing mode, `PENDING` may still be set after the
`CLOSE` (R150); otherwise a `SETPOS` restores a known cursor. -/
def Obligations.StoppedOperationIsRecoveredByClose : Prop :=
  ∀ (s t : State) (k : Nat) (w : HostWord) (i : Instr) (rest : List Input),
    s.inputs = .abandon k w :: rest → decodeHost w = .ok i →
    exec i { s with inputs := rest } = .next t → StateOk s →
    ∃ es u, t.trace = s.trace ++ es ∧ step s = .next u ∧ u.trace = s.trace ++ es.take k ∧
      u.pins = s.pins.applyAll (es.take k) ∧
      (0 < k → k < es.length → u.pins.oeScl = true → u.pins.oeSda = true →
        u.rx.unspecified = true) ∧
      (u.pins.oeScl = true → u.pins.oeSda = true →
        ∃ v, exec .close u = .next v ∧ v.pins = Pins.idle ∧
          (v.rx.lost = true ∨ v.rx.regs.phase = .idle) ∧
          (0 < k → k < es.length → (s.perform (es.take k)).rx.lost = false →
            v.rx.unspecified = false ∧ v.rx.regs.phase = .idle ∧ v.rx.regs.slot = 0 ∧
            ((s.perform (es.take k)).rx.regs.addrMode = 2 → s.cfg.wf = true →
              s.cfg.strap = s.cfg.rxStrap →
              (∃ op n, v.rx.regs.pending = some op ∧ s.cfg.ops.find op = some n ∧
                n.takesArg = true) ∨
              ∀ row col : Byte, row.toNat < 8 → col.toNat < 128 →
                ∃ x, exec (.setpos row col) v = .next x ∧ Ready x ∧
                  x.rx.regs.page = row.extractLsb' 0 3 ∧ x.rx.regs.col = col.extractLsb' 0 7 ∧
                  x.rx.regs.overflowed = false)))
end

