-- ==== Sys2Proof/Laws/Decode.lean ====
section
/-!
SUPPORT. The laws of the encodings: the fields of a packed host word, the row a byte matches in a
table whose rows do not overlap.
-/

namespace Sys2Proof

section HostFields
variable (o a b c d e : Byte) (ptr : PsAddr)

@[simp] theorem HostWord.op_pack : HostWord.op (HostWord.pack o a b c d e ptr) = o := by
  apply BitVec.eq_of_getLsbD_eq
  intro i hi
  simp only [HostWord.op, HostWord.pack, BitVec.getLsbD_extractLsb', BitVec.getLsbD_append]
  simp [hi]
  try grind

@[simp] theorem HostWord.a_pack : HostWord.a (HostWord.pack o a b c d e ptr) = a := by
  apply BitVec.eq_of_getLsbD_eq
  intro i hi
  simp only [HostWord.a, HostWord.pack, BitVec.getLsbD_extractLsb', BitVec.getLsbD_append]
  simp [hi]
  try grind

@[simp] theorem HostWord.b_pack : HostWord.b (HostWord.pack o a b c d e ptr) = b := by
  apply BitVec.eq_of_getLsbD_eq
  intro i hi
  simp only [HostWord.b, HostWord.pack, BitVec.getLsbD_extractLsb', BitVec.getLsbD_append]
  simp [hi]
  try grind

@[simp] theorem HostWord.c_pack : HostWord.c (HostWord.pack o a b c d e ptr) = c := by
  apply BitVec.eq_of_getLsbD_eq
  intro i hi
  simp only [HostWord.c, HostWord.pack, BitVec.getLsbD_extractLsb', BitVec.getLsbD_append]
  simp [hi]
  try grind

@[simp] theorem HostWord.d_pack : HostWord.d (HostWord.pack o a b c d e ptr) = d := by
  apply BitVec.eq_of_getLsbD_eq
  intro i hi
  simp only [HostWord.d, HostWord.pack, BitVec.getLsbD_extractLsb', BitVec.getLsbD_append]
  simp [hi]
  try grind

@[simp] theorem HostWord.e_pack : HostWord.e (HostWord.pack o a b c d e ptr) = e := by
  apply BitVec.eq_of_getLsbD_eq
  intro i hi
  simp only [HostWord.e, HostWord.pack, BitVec.getLsbD_extractLsb', BitVec.getLsbD_append]
  simp [hi]
  try grind

@[simp] theorem HostWord.ptr_pack : HostWord.ptr (HostWord.pack o a b c d e ptr) = ptr := by
  apply BitVec.eq_of_getLsbD_eq
  intro i hi
  simp only [HostWord.ptr, HostWord.pack, BitVec.getLsbD_extractLsb', BitVec.getLsbD_append]
  simp [hi]
  try grind

end HostFields

theorem CtrlOp.mem_all (k : CtrlOp) : k ∈ CtrlOp.all := by cases k <;> decide

section Table
variable {t : OpTable}

theorem OpTable.row_ok (h : t.wf = true) (k : CtrlOp) : t.val k &&& ~~~ k.mask = 0 := by
  simp only [OpTable.wf, Bool.and_eq_true, List.all_eq_true] at h
  simpa [OpTable.rowOk] using h.1 k k.mem_all

theorem OpTable.apart_of_ne (h : t.wf = true) {j k : CtrlOp} (hjk : j ≠ k) :
    t.val j &&& k.mask ≠ t.val k &&& j.mask := by
  simp only [OpTable.wf, Bool.and_eq_true, List.all_eq_true] at h
  have := h.2 j j.mem_all k k.mem_all
  simpa [OpTable.apart, hjk] using this

/-- A bit outside the mask is 0 in the `match` value (R8). -/
theorem OpTable.val_bit (h : t.wf = true) (k : CtrlOp) {i : Nat} (hi : i < 8)
    (hm : k.mask.getLsbD i = false) : (t.val k).getLsbD i = false := by
  have := congrArg (fun v : Byte => v.getLsbD i) (OpTable.row_ok h k)
  simp only [BitVec.getLsbD_and, BitVec.getLsbD_not, hi, hm] at this
  simpa using this

/-- R148: a byte that matches a row of a table without overlaps is that row's. -/
theorem OpTable.find_of_match (h : t.wf = true) {k : CtrlOp} {op : Byte}
    (hk : op &&& k.mask = t.val k) : t.find op = some k := by
  cases hf : t.find op with
  | none =>
    rw [OpTable.find, List.find?_eq_none] at hf
    exact absurd (by simpa using hk) (hf k k.mem_all)
  | some j =>
    have hj : op &&& j.mask = t.val j := by
      have := List.find?_some hf
      simpa using this
    by_cases hjk : j = k
    · rw [hjk]
    · refine absurd ?_ (OpTable.apart_of_ne h hjk)
      rw [← hj, ← hk, BitVec.and_assoc, BitVec.and_assoc, BitVec.and_comm j.mask]

/-- Every byte found is matched. -/
theorem OpTable.match_of_find {k : CtrlOp} {op : Byte} (h : t.find op = some k) :
    op &&& k.mask = t.val k := by
  have := List.find?_some h
  simpa using this

/-- A `match` value with operand bits outside the mask is still matched by its row. -/
theorem OpTable.match_or (h : t.wf = true) (k : CtrlOp) {x : Byte} (hx : x &&& k.mask = 0) :
    (t.val k ||| x) &&& k.mask = t.val k := by
  apply BitVec.eq_of_getLsbD_eq
  intro i hi
  have hx' := congrArg (fun v : Byte => v.getLsbD i) hx
  simp only [BitVec.getLsbD_and] at hx'
  cases hm : k.mask.getLsbD i with
  | true => simp_all
  | false => simp [hm, OpTable.val_bit h k hi hm]

theorem OpTable.find_val_or (h : t.wf = true) (k : CtrlOp) {x : Byte} (hx : x &&& k.mask = 0) :
    t.find (t.val k ||| x) = some k :=
  OpTable.find_of_match h (OpTable.match_or h k hx)

theorem OpTable.find_val (h : t.wf = true) (k : CtrlOp) : t.find (t.val k) = some k := by
  have := OpTable.find_val_or h k (x := 0) (by simp)
  simpa using this

end Table

theorem low4_and (x : BitVec 4) : x.setWidth 8 &&& (0xF0 : Byte) = 0 := by
  revert x; decide

theorem page_and (x : BitVec 3) : x.setWidth 8 &&& (0xF8 : Byte) = 0 := by
  revert x; decide

theorem remap_and (b : Bool) : bitByte b &&& (0xFE : Byte) = 0 := by
  revert b; decide

theorem comdir_and (b : Bool) : bitByte b <<< 3 &&& (0xF7 : Byte) = 0 := by
  revert b; decide

/-- The low bits of a `match` value with an operand are the operand (R67). -/
theorem OpTable.operand_bits {t : OpTable} (h : t.wf = true) (k : CtrlOp) (x : Byte) {i : Nat}
    (hi : i < 8) (hm : k.mask.getLsbD i = false) :
    (t.val k ||| x).getLsbD i = x.getLsbD i := by
  simp [OpTable.val_bit h k hi hm]

theorem setcollo_operand {t : OpTable} (h : t.wf = true) (x : BitVec 4) :
    (t.setcollo ||| x.setWidth 8).extractLsb' 0 4 = x := by
  apply BitVec.eq_of_getLsbD_eq
  intro i hi
  have hm : CtrlOp.setcollo.mask.getLsbD i = false := by
    interval_cases i <;> decide
  have := OpTable.operand_bits h .setcollo (x.setWidth 8) (show i < 8 by omega) hm
  simp only [OpTable.val] at this
  simp only [BitVec.getLsbD_extractLsb', Nat.zero_add, hi, decide_true, Bool.true_and, this]
  simp [show i < 8 by omega]

theorem setcolhi_operand {t : OpTable} (h : t.wf = true) (x : BitVec 4) :
    (t.setcolhi ||| x.setWidth 8).extractLsb' 0 4 = x := by
  apply BitVec.eq_of_getLsbD_eq
  intro i hi
  have hm : CtrlOp.setcolhi.mask.getLsbD i = false := by
    interval_cases i <;> decide
  have := OpTable.operand_bits h .setcolhi (x.setWidth 8) (show i < 8 by omega) hm
  simp only [OpTable.val] at this
  simp only [BitVec.getLsbD_extractLsb', Nat.zero_add, hi, decide_true, Bool.true_and, this]
  simp [show i < 8 by omega]

theorem setpage_operand {t : OpTable} (h : t.wf = true) (x : BitVec 3) :
    (t.setpage ||| x.setWidth 8).extractLsb' 0 3 = x := by
  apply BitVec.eq_of_getLsbD_eq
  intro i hi
  have hm : CtrlOp.setpage.mask.getLsbD i = false := by
    interval_cases i <;> decide
  have := OpTable.operand_bits h .setpage (x.setWidth 8) (show i < 8 by omega) hm
  simp only [OpTable.val] at this
  simp only [BitVec.getLsbD_extractLsb', Nat.zero_add, hi, decide_true, Bool.true_and, this]
  simp [show i < 8 by omega]

theorem segremap_operand {t : OpTable} (h : t.wf = true) (b : Bool) :
    (t.segremap ||| bitByte b).getLsbD 0 = b := by
  have := OpTable.operand_bits h .segremap (bitByte b) (show 0 < 8 by omega) (by decide)
  simp only [OpTable.val] at this
  rw [this]
  cases b <;> decide

theorem comdir_operand {t : OpTable} (h : t.wf = true) (b : Bool) :
    (t.comdir ||| bitByte b <<< 3).getLsbD 3 = b := by
  have := OpTable.operand_bits h .comdir (bitByte b <<< 3) (show 3 < 8 by omega) (by decide)
  simp only [OpTable.val] at this
  rw [this]
  cases b <;> decide

/-- R67: decoding the bytes of a row's code. -/
theorem decode_ctrl {t : OpTable} {op arg : Byte} {k : CtrlOp} (h : t.find op = some k) :
    decode t (.ctrl op arg) = .ok (k.instr op (if k.takesArg then arg else 0)) := by
  simp only [decode, decodeBytes, h]
  cases k.takesArg <;> rfl

end Sys2Proof
end

