-- ==== Sys2Proof/Laws/State.lean ====
section
/-!
SUPPORT. The small lemmas of the state records: one per field per update.
-/

namespace Sys2Proof

namespace Machine

section RxUpdates
variable (r : Rx) (c : Config) (f : RxRegs → RxRegs)

@[simp] theorem Rx.update_prev : (r.update f).prev = r.prev := rfl
@[simp] theorem Rx.update_regs : (r.update f).regs = f r.regs := rfl
@[simp] theorem Rx.update_ram : (r.update f).ram = r.ram := rfl
@[simp] theorem Rx.update_ramDraw : (r.update f).ramDraw = r.ramDraw := rfl
@[simp] theorem Rx.update_unspecified : (r.update f).unspecified = r.unspecified := rfl
@[simp] theorem Rx.update_untilStop : (r.update f).untilStop = r.untilStop := rfl
@[simp] theorem Rx.update_draws : (r.update f).draws = r.draws := rfl

@[simp] theorem Rx.redraw_prev : r.redraw.prev = r.prev := rfl
@[simp] theorem Rx.redraw_regs : r.redraw.regs = Config.freeRx r.draws := rfl
@[simp] theorem Rx.redraw_ram : r.redraw.ram = [] := rfl
@[simp] theorem Rx.redraw_ramDraw : r.redraw.ramDraw = r.ramDraw + 1 := rfl
@[simp] theorem Rx.redraw_unspecified : r.redraw.unspecified = r.unspecified := rfl
@[simp] theorem Rx.redraw_untilStop : r.redraw.untilStop = r.untilStop := rfl
@[simp] theorem Rx.redraw_draws : r.redraw.draws = r.draws + 1 := rfl

@[simp] theorem Rx.lose_prev : r.lose.prev = r.prev := rfl
@[simp] theorem Rx.lose_regs : r.lose.regs = Config.freeRx r.draws := rfl
@[simp] theorem Rx.lose_ram : r.lose.ram = [] := rfl
@[simp] theorem Rx.lose_ramDraw : r.lose.ramDraw = r.ramDraw + 1 := rfl
@[simp] theorem Rx.lose_unspecified : r.lose.unspecified = true := rfl
@[simp] theorem Rx.lose_untilStop : r.lose.untilStop = false := rfl
@[simp] theorem Rx.lose_draws : r.lose.draws = r.draws + 1 := rfl

@[simp] theorem Rx.drift_prev : r.drift.prev = r.prev := rfl
@[simp] theorem Rx.drift_addrMode : r.drift.regs.addrMode = r.regs.addrMode := rfl
@[simp] theorem Rx.drift_ram : r.drift.ram = [] := rfl
@[simp] theorem Rx.drift_ramDraw : r.drift.ramDraw = r.ramDraw + 1 := rfl
@[simp] theorem Rx.drift_unspecified : r.drift.unspecified = true := rfl
@[simp] theorem Rx.drift_untilStop : r.drift.untilStop = true := rfl
@[simp] theorem Rx.drift_draws : r.drift.draws = r.draws + 1 := rfl

@[simp] theorem Rx.recover_prev : (r.recover c).prev = r.prev := rfl
@[simp] theorem Rx.recover_addrMode : (r.recover c).regs.addrMode = r.regs.addrMode := rfl
@[simp] theorem Rx.recover_phase : (r.recover c).regs.phase = .idle := rfl
@[simp] theorem Rx.recover_slot : (r.recover c).regs.slot = 0 := rfl
@[simp] theorem Rx.recover_pending :
    (r.recover c).regs.pending = legalPending c (Config.freeRx r.draws).pending := rfl
@[simp] theorem Rx.recover_ram : (r.recover c).ram = [] := rfl
@[simp] theorem Rx.recover_ramDraw : (r.recover c).ramDraw = r.ramDraw + 1 := rfl
@[simp] theorem Rx.recover_unspecified : (r.recover c).unspecified = false := rfl
@[simp] theorem Rx.recover_untilStop : (r.recover c).untilStop = false := rfl
@[simp] theorem Rx.recover_draws : (r.recover c).draws = r.draws + 1 := rfl

@[simp] theorem Rx.freeCursor_prev : r.freeCursor.prev = r.prev := rfl
@[simp] theorem Rx.freeCursor_ram : r.freeCursor.ram = r.ram := rfl
@[simp] theorem Rx.freeCursor_ramDraw : r.freeCursor.ramDraw = r.ramDraw := rfl
@[simp] theorem Rx.freeCursor_unspecified : r.freeCursor.unspecified = r.unspecified := rfl
@[simp] theorem Rx.freeCursor_untilStop : r.freeCursor.untilStop = r.untilStop := rfl
@[simp] theorem Rx.freeCursor_draws : r.freeCursor.draws = r.draws + 1 := rfl
@[simp] theorem Rx.freeCursor_pending : r.freeCursor.regs.pending = r.regs.pending := rfl
@[simp] theorem Rx.freeCursor_phase : r.freeCursor.regs.phase = r.regs.phase := rfl

@[simp] theorem Rx.update_ramByte (p : BitVec 3) (q : BitVec 7) :
    (r.update f).ramByte p q = r.ramByte p q := rfl
@[simp] theorem Rx.freeCursor_ramByte (p : BitVec 3) (q : BitVec 7) :
    r.freeCursor.ramByte p q = r.ramByte p q := rfl

variable (p : BitVec 3) (q : BitVec 7) (v : Byte)

@[simp] theorem Rx.writeRam_prev : (r.writeRam p q v).prev = r.prev := rfl
@[simp] theorem Rx.writeRam_regs : (r.writeRam p q v).regs = r.regs := rfl
@[simp] theorem Rx.writeRam_ram :
    (r.writeRam p q v).ram = Memory.write .disp r.ram (dispKey p q) v := rfl
@[simp] theorem Rx.writeRam_ramDraw : (r.writeRam p q v).ramDraw = r.ramDraw := rfl
@[simp] theorem Rx.writeRam_unspecified : (r.writeRam p q v).unspecified = r.unspecified := rfl
@[simp] theorem Rx.writeRam_untilStop : (r.writeRam p q v).untilStop = r.untilStop := rfl
@[simp] theorem Rx.writeRam_draws : (r.writeRam p q v).draws = r.draws := rfl

/-- What RAM reads as depends on the cells and on the draw behind them alone. -/
theorem Rx.ramByte_of_eq {r r' : Rx} (h : r'.ram = r.ram) (h' : r'.ramDraw = r.ramDraw)
    (p : BitVec 3) (q : BitVec 7) : r'.ramByte p q = r.ramByte p q := by
  simp only [Rx.ramByte, h, h']

@[simp] theorem Rx.react_specified (w : WireStep) (h : r.unspecified = false) :
    r.react c w = r.onStep c w := by
  simp [Rx.react, h]

end RxUpdates

section Pins
variable (p : Pins) (b : Bool)

@[simp] theorem Pins.apply_scl :
    p.apply (.write .scl b) = ⟨b, p.latchSda, p.oeScl, p.oeSda⟩ := rfl
@[simp] theorem Pins.apply_sda :
    p.apply (.write .sda b) = ⟨p.latchScl, b, p.oeScl, p.oeSda⟩ := rfl
@[simp] theorem Pins.apply_enable_scl :
    p.apply (.enable .scl) = ⟨p.latchScl, p.latchSda, true, p.oeSda⟩ := rfl
@[simp] theorem Pins.apply_enable_sda :
    p.apply (.enable .sda) = ⟨p.latchScl, p.latchSda, p.oeScl, true⟩ := rfl

end Pins

section StateUpdates
variable (s : State) (es : List Event) (b : Bool)

@[simp] theorem State.perform_cfg : (s.perform es).cfg = s.cfg := rfl
@[simp] theorem State.perform_ps : (s.perform es).ps = s.ps := rfl
@[simp] theorem State.perform_dinv : (s.perform es).dinv = s.dinv := rfl
@[simp] theorem State.perform_trace : (s.perform es).trace = s.trace ++ es := rfl
@[simp] theorem State.perform_inputs : (s.perform es).inputs = s.inputs := rfl
@[simp] theorem State.perform_draws : (s.perform es).draws = s.draws := rfl

@[simp] theorem State.setDinv_cfg : (s.setDinv b).cfg = s.cfg := rfl
@[simp] theorem State.setDinv_ps : (s.setDinv b).ps = s.ps := rfl
@[simp] theorem State.setDinv_pins : (s.setDinv b).pins = s.pins := rfl
@[simp] theorem State.setDinv_dinv : (s.setDinv b).dinv = b := rfl
@[simp] theorem State.setDinv_trace : (s.setDinv b).trace = s.trace := rfl
@[simp] theorem State.setDinv_rx : (s.setDinv b).rx = s.rx := rfl
@[simp] theorem State.setDinv_inputs : (s.setDinv b).inputs = s.inputs := rfl
@[simp] theorem State.setDinv_draws : (s.setDinv b).draws = s.draws := rfl

@[simp] theorem State.txReset_cfg : s.txReset.cfg = s.cfg := rfl
@[simp] theorem State.txReset_ps : s.txReset.ps = s.ps := rfl
@[simp] theorem State.txReset_dinv : s.txReset.dinv = false := rfl
@[simp] theorem State.txReset_trace : s.txReset.trace = [] := rfl
@[simp] theorem State.txReset_inputs : s.txReset.inputs = s.inputs := rfl
@[simp] theorem State.txReset_oeScl : s.txReset.pins.oeScl = false := rfl
@[simp] theorem State.txReset_oeSda : s.txReset.pins.oeSda = false := rfl

/-- R179: RX sees the lines released, and keeps everything else. -/
@[simp] theorem State.txReset_rx : s.txReset.rx = { s.rx with prev := ⟨.z, .z⟩ } := by
  simp only [State.txReset, Rx.observe]
  split
  · next h => rw [h]
  · simp [LineState.driven]

theorem State.stopHere_eq : s.stopHere = s ∨ s.stopHere = { s with rx := s.rx.drift } := by
  unfold State.stopHere
  split
  · exact .inr rfl
  · exact .inl rfl

@[simp] theorem State.rxPowerUp_cfg : s.rxPowerUp.cfg = s.cfg := rfl
@[simp] theorem State.rxPowerUp_ps : s.rxPowerUp.ps = s.ps := rfl
@[simp] theorem State.rxPowerUp_pins : s.rxPowerUp.pins = s.pins := rfl
@[simp] theorem State.rxPowerUp_dinv : s.rxPowerUp.dinv = s.dinv := rfl
@[simp] theorem State.rxPowerUp_trace : s.rxPowerUp.trace = s.trace := rfl
@[simp] theorem State.rxPowerUp_inputs : s.rxPowerUp.inputs = s.inputs := rfl
@[simp] theorem State.rxPowerUp_phase : s.rxPowerUp.rx.regs.phase = .idle := rfl
@[simp] theorem State.rxPowerUp_pending : s.rxPowerUp.rx.regs.pending = none := rfl
@[simp] theorem State.rxPowerUp_unspecified : s.rxPowerUp.rx.unspecified = false := rfl

end StateUpdates

end Machine

end Sys2Proof
end

