-- ==== Sys2Proof/Laws/Receiver.lean ====
section
/-!
SUPPORT. What RX makes of a byte on the wire: the wire decoder's own registers (`PREV`, `SHIFT`,
`SLOT`, `RXPHASE`) never enter the effect of a byte, and the 27 events of `SENDB` hand RX exactly
the byte sent (R140).
-/

namespace Sys2Proof

namespace Machine

/-- RX with the wire decoder's registers at the given values. -/
def Rx.decoder (r : Rx) (q : LineState) (ph : RxPhase) (sh : Byte) (sl : Fin 9) : Rx :=
  { r with prev := q, regs := { r.regs with phase := ph, shift := sh, slot := sl } }

section Decoder
variable (r : Rx) (q q' : LineState) (ph ph' : RxPhase) (sh sh' : Byte) (sl sl' : Fin 9)

@[simp] theorem Rx.decoder_decoder :
    (r.decoder q ph sh sl).decoder q' ph' sh' sl' = r.decoder q' ph' sh' sl' := rfl
@[simp] theorem Rx.decoder_prev : (r.decoder q ph sh sl).prev = q := rfl
@[simp] theorem Rx.decoder_phase : (r.decoder q ph sh sl).regs.phase = ph := rfl
@[simp] theorem Rx.decoder_shift : (r.decoder q ph sh sl).regs.shift = sh := rfl
@[simp] theorem Rx.decoder_slot : (r.decoder q ph sh sl).regs.slot = sl := rfl
@[simp] theorem Rx.decoder_pending : (r.decoder q ph sh sl).regs.pending = r.regs.pending := rfl
@[simp] theorem Rx.decoder_page : (r.decoder q ph sh sl).regs.page = r.regs.page := rfl
@[simp] theorem Rx.decoder_col : (r.decoder q ph sh sl).regs.col = r.regs.col := rfl
@[simp] theorem Rx.decoder_overflowed :
    (r.decoder q ph sh sl).regs.overflowed = r.regs.overflowed := rfl
@[simp] theorem Rx.decoder_addrMode :
    (r.decoder q ph sh sl).regs.addrMode = r.regs.addrMode := rfl
@[simp] theorem Rx.decoder_unspecified : (r.decoder q ph sh sl).unspecified = r.unspecified := rfl
@[simp] theorem Rx.decoder_untilStop : (r.decoder q ph sh sl).untilStop = r.untilStop := rfl
@[simp] theorem Rx.decoder_ram : (r.decoder q ph sh sl).ram = r.ram := rfl
@[simp] theorem Rx.decoder_ramDraw : (r.decoder q ph sh sl).ramDraw = r.ramDraw := rfl
@[simp] theorem Rx.decoder_ramByte (p : BitVec 3) (x : BitVec 7) :
    (r.decoder q ph sh sl).ramByte p x = r.ramByte p x := rfl
@[simp] theorem Rx.decoder_draws : (r.decoder q ph sh sl).draws = r.draws := rfl
@[simp] theorem Rx.decoder_pageMode : (r.decoder q ph sh sl).pageMode = r.pageMode := rfl

theorem Rx.decoder_self : r.decoder r.prev r.regs.phase r.regs.shift r.regs.slot = r := rfl

theorem Rx.eq_decoder (h : r.prev = q) (h1 : r.regs.phase = ph) (h2 : r.regs.shift = sh)
    (h3 : r.regs.slot = sl) : r = r.decoder q ph sh sl := by
  subst h; subst h1; subst h2; subst h3; rfl

end Decoder

/-! ### Effects do not read the wire decoder -/

section Effects
variable (r : Rx) (q : LineState) (ph : RxPhase) (sh : Byte) (sl : Fin 9)

theorem Rx.apply_decoder (i : Instr) :
    (r.decoder q ph sh sl).apply i = (r.apply i).decoder q ph sh sl := by
  cases i with
  | setcollo x =>
    by_cases h : r.pageMode = true
    · have h' : (r.decoder q ph sh sl).pageMode = true := h
      simp only [Rx.apply, Rx.doSetcollo, Rx.setColLow, h, h', if_true]; rfl
    · have h' : ¬ (r.decoder q ph sh sl).pageMode = true := h
      simp only [Rx.apply, Rx.doSetcollo, Rx.setColLow, h, h']; rfl
  | setcolhi x =>
    by_cases h : r.pageMode = true
    · have h' : (r.decoder q ph sh sl).pageMode = true := h
      simp only [Rx.apply, Rx.doSetcolhi, Rx.setColHigh, h, h', if_true]; rfl
    · have h' : ¬ (r.decoder q ph sh sl).pageMode = true := h
      simp only [Rx.apply, Rx.doSetcolhi, Rx.setColHigh, h, h']; rfl
  | setpage x =>
    by_cases h : r.pageMode = true
    · have h' : (r.decoder q ph sh sl).pageMode = true := h
      simp only [Rx.apply, Rx.doSetpage, Rx.setPage, h, h', if_true]; rfl
    · have h' : ¬ (r.decoder q ph sh sl).pageMode = true := h
      simp only [Rx.apply, Rx.doSetpage, Rx.setPage, h, h']; rfl
  | _ => rfl

theorem advanceCol_decoder (o : ColOverflow) (g : RxRegs) :
    advanceCol o { g with phase := ph, shift := sh, slot := sl } =
      { advanceCol o g with phase := ph, shift := sh, slot := sl } := by
  simp only [advanceCol]
  split
  · rfl
  · cases o <;> rfl

theorem Rx.dataByte_decoder (o : ColOverflow) (v : Byte) :
    (r.decoder q ph sh sl).dataByte o v = (r.dataByte o v).decoder q ph sh sl := by
  by_cases h : r.pageMode = true
  · have h' : (r.decoder q ph sh sl).pageMode = true := h
    by_cases ho : (r.regs.overflowed && o == .discard) = true
    · have ho' : ((r.decoder q ph sh sl).regs.overflowed && o == .discard) = true := ho
      simp only [Rx.dataByte, h, h', ho, ho', if_true]
    · have ho' : ¬ ((r.decoder q ph sh sl).regs.overflowed && o == .discard) = true := ho
      simp only [Rx.dataByte, h, h', ho, ho', if_true]
      simp [Rx.update, Rx.writeRam, Rx.decoder, advanceCol_decoder]
  · have h' : ¬ (r.decoder q ph sh sl).pageMode = true := h
    simp only [Rx.dataByte, h, h']; rfl

theorem Rx.apply_unspecified (i : Instr) : (r.apply i).unspecified = r.unspecified := by
  cases i with
  | setcollo x => simp only [Rx.apply, Rx.doSetcollo, Rx.setColLow]; split <;> rfl
  | setcolhi x => simp only [Rx.apply, Rx.doSetcolhi, Rx.setColHigh]; split <;> rfl
  | setpage x => simp only [Rx.apply, Rx.doSetpage, Rx.setPage]; split <;> rfl
  | _ => rfl

theorem Rx.apply_pending (i : Instr) : (r.apply i).regs.pending = r.regs.pending := by
  cases i with
  | setcollo x => simp only [Rx.apply, Rx.doSetcollo, Rx.setColLow]; split <;> rfl
  | setcolhi x => simp only [Rx.apply, Rx.doSetcolhi, Rx.setColHigh]; split <;> rfl
  | setpage x => simp only [Rx.apply, Rx.doSetpage, Rx.setPage]; split <;> rfl
  | _ => rfl

theorem Rx.apply_prev (i : Instr) : (r.apply i).prev = r.prev := by
  cases i with
  | setcollo x => simp only [Rx.apply, Rx.doSetcollo, Rx.setColLow]; split <;> rfl
  | setcolhi x => simp only [Rx.apply, Rx.doSetcolhi, Rx.setColHigh]; split <;> rfl
  | setpage x => simp only [Rx.apply, Rx.doSetpage, Rx.setPage]; split <;> rfl
  | _ => rfl

theorem Rx.apply_ram (i : Instr) : (r.apply i).ram = r.ram := by
  cases i with
  | setcollo x => simp only [Rx.apply, Rx.doSetcollo, Rx.setColLow]; split <;> rfl
  | setcolhi x => simp only [Rx.apply, Rx.doSetcolhi, Rx.setColHigh]; split <;> rfl
  | setpage x => simp only [Rx.apply, Rx.doSetpage, Rx.setPage]; split <;> rfl
  | _ => rfl

theorem Rx.apply_ramDraw (i : Instr) : (r.apply i).ramDraw = r.ramDraw := by
  cases i with
  | setcollo x => simp only [Rx.apply, Rx.doSetcollo, Rx.setColLow]; split <;> rfl
  | setcolhi x => simp only [Rx.apply, Rx.doSetcolhi, Rx.setColHigh]; split <;> rfl
  | setpage x => simp only [Rx.apply, Rx.doSetpage, Rx.setPage]; split <;> rfl
  | _ => rfl

/-- A command changes no byte of RAM (R157). -/
@[simp] theorem Rx.apply_ramByte (i : Instr) (p : BitVec 3) (x : BitVec 7) :
    (r.apply i).ramByte p x = r.ramByte p x :=
  Rx.ramByte_of_eq (r.apply_ram i) (r.apply_ramDraw i) p x

theorem Rx.dataByte_unspecified (o : ColOverflow) (v : Byte) :
    (r.dataByte o v).unspecified = r.unspecified := by
  simp only [Rx.dataByte]
  split
  · split <;> rfl
  · rfl

/-- A command byte that leaves RX specified has the same effect whatever the wire decoder holds. -/
theorem Rx.commandByte_decoder (c : Config) (v : Byte)
    (h : (r.commandByte c v).unspecified = false) :
    (r.decoder q ph sh sl).commandByte c v = (r.commandByte c v).decoder q ph sh sl := by
  simp only [Rx.commandByte, Rx.decoder_pending] at h ⊢
  cases hp : r.regs.pending with
  | some op =>
    simp only [hp] at h ⊢
    cases hf : c.ops.find op with
    | some k =>
      simp only
      exact Rx.apply_decoder (r.update fun g => { g with pending := none }) q ph sh sl _
    | none => simp [hf] at h
  | none =>
    simp only [hp] at h ⊢
    cases hf : c.ops.find v with
    | some k =>
      simp only
      split
      · rfl
      · exact Rx.apply_decoder r q ph sh sl _
    | none => simp [hf] at h

/-- A command byte that leaves RX specified leaves its frame phase alone (R144). -/
theorem Rx.commandByte_phase (c : Config) (v : Byte)
    (h : (r.commandByte c v).unspecified = false) :
    (r.commandByte c v).regs.phase = r.regs.phase := by
  have := congrArg (fun x : Rx => x.regs.phase)
    (Rx.commandByte_decoder r r.prev r.regs.phase r.regs.shift r.regs.slot c v h)
  exact this

/-- A data byte leaves the frame phase alone (R145). -/
theorem Rx.dataByte_phase (o : ColOverflow) (v : Byte) :
    (r.dataByte o v).regs.phase = r.regs.phase := by
  have := congrArg (fun x : Rx => x.regs.phase)
    (Rx.dataByte_decoder r r.prev r.regs.phase r.regs.shift r.regs.slot o v)
  exact this

theorem Rx.commandByte_specified_of (c : Config) (v : Byte)
    (h : (r.commandByte c v).unspecified = false) : r.unspecified = false := by
  simp only [Rx.commandByte] at h
  split at h
  · split at h
    · simpa [Rx.apply_unspecified] using h
    · simp at h
  · split at h
    · split at h
      · simpa using h
      · simpa [Rx.apply_unspecified] using h
    · simp at h

end Effects

@[simp] theorem Rx.lose_lost (r : Rx) : r.lose.lost = true := rfl

theorem Rx.lost_unspecified {r : Rx} (h : r.lost = true) : r.unspecified = true := by
  simp only [Rx.lost, Bool.and_eq_true] at h
  exact h.1

/-- A byte received leaves RX unspecified for good, or the mark as it was. -/
theorem Rx.receive_marks (r : Rx) (c : Config) (v : Byte) :
    (r.receive c v).lost = true ∨ (r.receive c v).unspecified = r.unspecified := by
  simp only [Rx.receive]
  split
  · exact .inr rfl
  · exact .inr rfl
  · simp only [Rx.controlByte]
    split
    · exact .inr rfl
    · exact .inl rfl
  · simp only [Rx.commandByte]
    split
    · split
      · right; rw [Rx.apply_unspecified, Rx.update_unspecified]
      · exact .inl rfl
    · split
      · split
        · exact .inr rfl
        · right; rw [Rx.apply_unspecified]
      · exact .inl rfl
  · exact .inr (Rx.dataByte_unspecified _ _ _)
  · exact .inr rfl

/-! ### One byte on the wire -/

/-- The pins while a frame is open: driven, `SCL` low. -/
def Pins.inFrame (sda : Bool) : Pins := ⟨false, sda, true, true⟩

/-- The line state of those pins. -/
def frameLine (sda : Bool) : LineState := ⟨.lo, if sda then .hi else .lo⟩

@[simp] theorem Pins.inFrame_wire (b : Bool) : (Pins.inFrame b).wire = frameLine b := by
  cases b <;> rfl

/-- A byte received hands the phase and the effect on; the wire decoder is left alone. -/
theorem Rx.receive_decoder (r : Rx) (c : Config) (v : Byte) (q : LineState) (sh : Byte) (sl : Fin 9)
    (h : (r.receive c v).unspecified = false) :
    (r.decoder q r.regs.phase sh sl).receive c v =
      (r.receive c v).decoder q (r.receive c v).regs.phase sh sl := by
  simp only [Rx.receive, Rx.decoder_phase] at h ⊢
  cases hp : r.regs.phase with
  | idle => simp [hp]
  | ignore => simp [hp]
  | addr => rfl
  | ctrl =>
    simp only [hp] at h ⊢
    simp only [Rx.controlByte] at h ⊢
    split at h
    · simp only [*, if_true]; rfl
    · simp at h
  | cmd =>
    simp only [hp] at h ⊢
    rw [Rx.commandByte_phase r c v h, hp, Rx.commandByte_decoder r q .cmd sh sl c v h]
  | data =>
    simp only
    rw [Rx.dataByte_phase, hp, Rx.dataByte_decoder]

/-- A byte received leaves `SLOT` alone. -/
theorem Rx.receive_slot (r : Rx) (c : Config) (v : Byte)
    (h : (r.receive c v).unspecified = false) : (r.receive c v).regs.slot = r.regs.slot := by
  have := congrArg (fun x : Rx => x.regs.slot)
    (Rx.receive_decoder r c v r.prev r.regs.shift r.regs.slot h)
  simpa [Rx.decoder_self] using this

theorem Rx.receive_shift (r : Rx) (c : Config) (v : Byte)
    (h : (r.receive c v).unspecified = false) : (r.receive c v).regs.shift = r.regs.shift := by
  have := congrArg (fun x : Rx => x.regs.shift)
    (Rx.receive_decoder r c v r.prev r.regs.shift r.regs.slot h)
  simpa [Rx.decoder_self] using this

/-- A byte received never ends the frame. -/
theorem Rx.receive_phase (r : Rx) (c : Config) (v : Byte)
    (h : (r.receive c v).unspecified = false) (hp : r.regs.phase ≠ .idle) :
    (r.receive c v).regs.phase ≠ .idle := by
  cases hq : r.regs.phase with
  | idle => exact absurd hq hp
  | ignore => simp [Rx.receive, hq]
  | addr => simp only [Rx.receive, hq, Rx.update_regs]; split <;> simp
  | ctrl =>
    simp only [Rx.receive, hq, Rx.controlByte] at h ⊢
    split at h
    · simp only [*, if_true, Rx.update_regs]; split <;> simp
    · simp at h
  | cmd =>
    simp only [Rx.receive, hq] at h ⊢
    simp [Rx.commandByte_phase r c v h, hq]
  | data =>
    simp [Rx.receive, hq, Rx.dataByte_phase]

@[simp] theorem classify_low (a b : Bool) : classify (frameLine a) (frameLine b) = .quiet := by
  cases a <;> cases b <;> rfl

/-- One bit cell that is not the last of a byte (R58, R140). -/
theorem bitCell_shift (c : Config) (r : Rx) (a b : Bool) (ph : RxPhase) (sh : Byte) (sl : Fin 9)
    (hu : r.unspecified = false) (hp : ph ≠ .idle) (hs : sl.val < 7) :
    (bitCell b).foldl (emit c) (Pins.inFrame a, r.decoder (frameLine a) ph sh sl) =
      (Pins.inFrame b, r.decoder (frameLine b) ph (shiftIn sh b) (sl + 1)) := by
  have h8 : sl ≠ 8 := by intro h; subst h; simp at hs
  have h81 : sl + 1 ≠ 8 := by
    intro h
    have := congrArg Fin.val h
    simp only [Fin.val_add] at this
    simp at this
    omega
  cases a <;> cases b <;>
    simp [bitCell, emit, Pins.inFrame, Pins.wire, levelOf, frameLine, Rx.observe, Rx.react, hu,
      LineState.driven, classify, Rx.onStep, Rx.onRise, hp, h8, h81, Rx.decoder, Rx.update]

/-- The eighth bit cell of a byte: the byte is received (R140). -/
theorem bitCell_last (c : Config) (r : Rx) (a b : Bool) (sh : Byte)
    (hu : r.unspecified = false) (hp : r.regs.phase ≠ .idle)
    (h : (r.receive c (shiftIn sh b)).unspecified = false) :
    (bitCell b).foldl (emit c) (Pins.inFrame a, r.decoder (frameLine a) r.regs.phase sh 7) =
      (Pins.inFrame b, (r.receive c (shiftIn sh b)).decoder (frameLine b)
        (r.receive c (shiftIn sh b)).regs.phase (shiftIn sh b) 8) := by
  have key := Rx.receive_decoder r c (shiftIn sh b) ⟨.hi, if b then .hi else .lo⟩ (shiftIn sh b) 8 h
  have hu' : ((r.decoder ⟨.hi, if b then .hi else .lo⟩ r.regs.phase (shiftIn sh b) 8).receive c
      (shiftIn sh b)).unspecified = false := by
    rw [key]; exact h
  have e : ∀ x : Rx, x.decoder (frameLine b) x.regs.phase x.regs.shift x.regs.slot =
      { x with prev := frameLine b } := fun _ => rfl
  cases a <;> cases b <;>
    simp_all [bitCell, emit, Pins.inFrame, Pins.wire, levelOf, frameLine, Rx.observe, Rx.react, 
      LineState.driven, classify, Rx.onStep, Rx.onRise, Rx.decoder, Rx.update]

end Machine

end Sys2Proof
end

