-- ==== Sys2Proof/Laws/Link.lean ====
section
/-!
SUPPORT. What RX makes of a whole frame: START opens it, each `SENDB` hands over its byte (R140),
STOP closes it (R146); so a command frame is its payload's command bytes, and a data frame its
payload's data bytes, one after the other.
-/

namespace Sys2Proof

namespace Machine

@[simp] theorem Pins.idle_wire : Pins.idle.wire = LineState.idle := rfl

/-- R88: eight shifts leave the byte sent, whatever was in the register. -/
theorem shiftIn_bits (s v : Byte) : (bitsOf v).foldl shiftIn s = v := by
  apply BitVec.eq_of_getLsbD_eq
  intro i hi
  simp only [bitsOf, List.foldl, shiftIn]
  interval_cases i <;> simp [bitByte] <;> grind

/-- The acknowledgement slot (R60, R140): the sample is discarded. -/
theorem bitCell_ack (c : Config) (r : Rx) (a : Bool) (ph : RxPhase) (sh : Byte)
    (hu : r.unspecified = false) (hp : ph ≠ .idle) :
    (bitCell true).foldl (emit c) (Pins.inFrame a, r.decoder (frameLine a) ph sh 8) =
      (Pins.inFrame true, r.decoder (frameLine true) ph sh 0) := by
  cases a <;>
    simp [bitCell, emit, Pins.inFrame, Pins.wire, levelOf, frameLine, Rx.observe, Rx.react, hu,
      LineState.driven, classify, Rx.onStep, Rx.onRise, hp, Rx.decoder, Rx.update]

/-- `SENDB v` inside a frame hands RX exactly the byte `v` (R140). -/
theorem sendb_receive (c : Config) (r : Rx) (v : Byte) (a : Bool) (hu : r.unspecified = false)
    (hp : r.regs.phase ≠ .idle) (hs : r.regs.slot = 0) (hw : r.prev = frameLine a)
    (h : (r.receive c v).unspecified = false) :
    (sendbEvents v).foldl (emit c) (Pins.inFrame a, r) =
      (Pins.inFrame true,
        (r.receive c v).decoder (frameLine true) (r.receive c v).regs.phase v 0) := by
  have e := Rx.eq_decoder r (frameLine a) r.regs.phase r.regs.shift 0 hw rfl rfl hs
  have hv := shiftIn_bits r.regs.shift v
  simp only [bitsOf, List.foldl] at hv
  have h' := h
  rw [← hv] at h'
  conv_lhs => rw [e]
  simp only [sendbEvents, bitsOf, List.flatMap_cons, List.flatMap_nil, List.append_nil,
    List.foldl_append]
  rw [bitCell_shift c r _ _ _ _ _ hu hp (by decide), bitCell_shift c r _ _ _ _ _ hu hp (by decide),
    bitCell_shift c r _ _ _ _ _ hu hp (by decide), bitCell_shift c r _ _ _ _ _ hu hp (by decide),
    bitCell_shift c r _ _ _ _ _ hu hp (by decide), bitCell_shift c r _ _ _ _ _ hu hp (by decide),
    bitCell_shift c r _ _ _ _ _ hu hp (by decide)]
  have e7 : (0 : Fin 9) + 1 + 1 + 1 + 1 + 1 + 1 + 1 = 7 := by decide
  rw [e7, bitCell_last c r _ _ _ hu hp h', hv,
    bitCell_ack c _ _ _ _ h (Rx.receive_phase r c v h hp)]

/-- R142 to R145 over a list of bytes. -/
def Rx.receiveAll (c : Config) (r : Rx) (vs : List Byte) : Rx := vs.foldl (fun r v => r.receive c v) r

@[simp] theorem Rx.receiveAll_nil (c : Config) (r : Rx) : r.receiveAll c [] = r := rfl
@[simp] theorem Rx.receiveAll_cons (c : Config) (r : Rx) (v : Byte) (vs : List Byte) :
    r.receiveAll c (v :: vs) = (r.receive c v).receiveAll c vs := rfl

/-- RX once unspecified stays so: a list of bytes that leaves it specified began specified. -/
theorem Rx.receive_specified_of (r : Rx) (c : Config) (v : Byte)
    (h : (r.receive c v).unspecified = false) : r.unspecified = false := by
  simp only [Rx.receive] at h
  split at h
  · exact h
  · exact h
  · simp only [Rx.controlByte] at h
    split at h
    · exact h
    · simp at h
  · exact Rx.commandByte_specified_of r c v h
  · rwa [Rx.dataByte_unspecified] at h
  · exact h

theorem Rx.receiveAll_specified_of (r : Rx) (c : Config) (vs : List Byte)
    (h : (r.receiveAll c vs).unspecified = false) : r.unspecified = false := by
  induction vs generalizing r with
  | nil => exact h
  | cons v vs ih => exact Rx.receive_specified_of r c v (ih _ h)

theorem Rx.receiveAll_decoder (r : Rx) (c : Config) (vs : List Byte) (q : LineState) (sh : Byte)
    (sl : Fin 9) (h : (r.receiveAll c vs).unspecified = false) :
    (r.decoder q r.regs.phase sh sl).receiveAll c vs =
      (r.receiveAll c vs).decoder q (r.receiveAll c vs).regs.phase sh sl := by
  induction vs generalizing r with
  | nil => rfl
  | cons v vs ih =>
    have h1 := Rx.receiveAll_specified_of (r.receive c v) c vs h
    rw [Rx.receiveAll_cons, Rx.receive_decoder r c v q sh sl h1]
    exact ih (r.receive c v) h

theorem Rx.receiveAll_phase (r : Rx) (c : Config) (vs : List Byte)
    (h : (r.receiveAll c vs).unspecified = false) (hp : r.regs.phase ≠ .idle) :
    (r.receiveAll c vs).regs.phase ≠ .idle := by
  induction vs generalizing r with
  | nil => exact hp
  | cons v vs ih =>
    exact ih (r.receive c v) h
      (Rx.receive_phase r c v (Rx.receiveAll_specified_of _ c vs h) hp)

/-- The byte cells of a list hand RX the bytes of the list, in order (R92, R160). -/
theorem sendEvents_receive (c : Config) (r : Rx) (vs : List Byte) (hp : r.regs.phase ≠ .idle)
    (hs : r.regs.slot = 0) (hw : r.prev = frameLine true)
    (h : (r.receiveAll c vs).unspecified = false) :
    ∃ sh, (sendEvents vs).foldl (emit c) (Pins.inFrame true, r) =
      (Pins.inFrame true,
        (r.receiveAll c vs).decoder (frameLine true) (r.receiveAll c vs).regs.phase sh 0) := by
  induction vs generalizing r with
  | nil =>
    exact ⟨r.regs.shift, congrArg (Prod.mk _) (Rx.eq_decoder r _ _ _ _ hw rfl rfl hs)⟩
  | cons v vs ih =>
    have h1 := Rx.receiveAll_specified_of (r.receive c v) c vs h
    have hu := Rx.receive_specified_of r c v h1
    have hp1 := Rx.receive_phase r c v h1 hp
    simp only [sendEvents, List.flatMap_cons, List.foldl_append]
    rw [sendb_receive c r v true hu hp hs hw h1]
    have key := Rx.receiveAll_decoder (r.receive c v) c vs (frameLine true) v 0 h
    obtain ⟨sh, e⟩ := ih ((r.receive c v).decoder (frameLine true) (r.receive c v).regs.phase v 0)
      hp1 rfl rfl (by rw [key]; exact h)
    refine ⟨sh, ?_⟩
    simp only [sendEvents] at e
    rw [e, key]
    rfl

/-- `BEGIN` with no frame open: RX expects the address byte (R138). The lines may be at any level
TX can leave them. -/
theorem begin_opens (c : Config) (r : Rx) (a b : Bool) (hu : r.unspecified = false)
    (hp : r.regs.phase = .idle) (hw : r.prev = (⟨a, b, true, true⟩ : Pins).wire) :
    beginEvents.foldl (emit c) (⟨a, b, true, true⟩, r) =
      (Pins.inFrame false, r.decoder (frameLine false) .addr 0 0) := by
  cases a <;> cases b <;> simp only [Pins.wire, levelOf, if_true] at hw <;>
    simp [beginEvents, emit, Pins.inFrame, Pins.wire, levelOf, frameLine, Rx.observe, Rx.react, hu,
      hw, LineState.driven, classify, Rx.onStep, Rx.onRise, Rx.onStart, Rx.onStop, Rx.beginAddress,
      hp, Rx.decoder, Rx.update]

/-- `END` after a byte cell: RX is idle, and the first bit of a byte that never completes is
discarded (R146). -/
theorem end_closes (c : Config) (r : Rx) (hu : r.unspecified = false) (hp : r.regs.phase ≠ .idle)
    (hs : r.regs.slot = 0) (hw : r.prev = frameLine true)
    (hc : c.pendingSurvives = true ∨ r.regs.phase ≠ .cmd ∨ r.regs.pending = none) :
    endEvents.foldl (emit c) (Pins.inFrame true, r) =
      (Pins.idle, r.decoder LineState.idle .idle (shiftIn r.regs.shift false) 0) := by
  have hc' : ¬ ((r.regs.phase = .cmd ∧ r.regs.pending.isSome = true) ∧
      c.pendingSurvives = false) := by
    rintro ⟨⟨h1, h2⟩, h3⟩
    rcases hc with hc | hc | hc
    · simp [hc] at h3
    · exact hc h1
    · simp [hc] at h2
  simp only [frameLine] at hw
  simp [endEvents, emit, Pins.inFrame, Pins.idle, Pins.wire, levelOf, Rx.observe,
    Rx.react, hu, hw, hs, LineState.driven, classify, Rx.onStep, Rx.onRise, Rx.onStop,
    LineState.idle, hp, Rx.decoder, Rx.update]
  exact fun h1 h2 h3 => absurd ⟨⟨h1, h2⟩, h3⟩ hc'

/-! ### Frames -/

/-- R148, R149 over the payload of a command frame. -/
def Rx.commands (c : Config) (r : Rx) (vs : List Byte) : Rx :=
  vs.foldl (fun r v => r.commandByte c v) r

/-- R155, R156 over the payload of a data frame. -/
def Rx.datas (o : ColOverflow) (r : Rx) (vs : List Byte) : Rx :=
  vs.foldl (fun r v => r.dataByte o v) r

@[simp] theorem Rx.commands_nil (c : Config) (r : Rx) : r.commands c [] = r := rfl
@[simp] theorem Rx.commands_cons (c : Config) (r : Rx) (v : Byte) (vs : List Byte) :
    r.commands c (v :: vs) = (r.commandByte c v).commands c vs := rfl
@[simp] theorem Rx.datas_nil (o : ColOverflow) (r : Rx) : r.datas o [] = r := rfl
@[simp] theorem Rx.datas_cons (o : ColOverflow) (r : Rx) (v : Byte) (vs : List Byte) :
    r.datas o (v :: vs) = (r.dataByte o v).datas o vs := rfl

theorem Rx.datas_unspecified (o : ColOverflow) (r : Rx) (vs : List Byte) :
    (r.datas o vs).unspecified = r.unspecified := by
  induction vs generalizing r with
  | nil => rfl
  | cons v vs ih => rw [Rx.datas_cons, ih, Rx.dataByte_unspecified]

theorem Rx.commands_specified_of (r : Rx) (c : Config) (vs : List Byte)
    (h : (r.commands c vs).unspecified = false) : r.unspecified = false := by
  induction vs generalizing r with
  | nil => exact h
  | cons v vs ih => exact Rx.commandByte_specified_of r c v (ih _ h)

theorem Rx.commands_decoder (r : Rx) (c : Config) (vs : List Byte) (q : LineState) (ph : RxPhase)
    (sh : Byte) (sl : Fin 9) (h : (r.commands c vs).unspecified = false) :
    (r.decoder q ph sh sl).commands c vs = (r.commands c vs).decoder q ph sh sl := by
  induction vs generalizing r with
  | nil => rfl
  | cons v vs ih =>
    have h1 := Rx.commands_specified_of (r.commandByte c v) c vs h
    rw [Rx.commands_cons, Rx.commandByte_decoder r q ph sh sl c v h1]
    exact ih (r.commandByte c v) h

theorem Rx.datas_decoder (r : Rx) (o : ColOverflow) (vs : List Byte) (q : LineState) (ph : RxPhase)
    (sh : Byte) (sl : Fin 9) :
    (r.decoder q ph sh sl).datas o vs = (r.datas o vs).decoder q ph sh sl := by
  induction vs generalizing r with
  | nil => rfl
  | cons v vs ih => rw [Rx.datas_cons, Rx.dataByte_decoder, ih, Rx.datas_cons]

/-- In a command frame a byte received is a command byte (R144). -/
theorem Rx.receiveAll_cmd (r : Rx) (c : Config) (vs : List Byte) (hp : r.regs.phase = .cmd)
    (h : (r.commands c vs).unspecified = false) : r.receiveAll c vs = r.commands c vs := by
  induction vs generalizing r with
  | nil => rfl
  | cons v vs ih =>
    have e : r.receive c v = r.commandByte c v := by simp [Rx.receive, hp]
    have h1 := Rx.commands_specified_of (r.commandByte c v) c vs h
    rw [Rx.receiveAll_cons, Rx.commands_cons, e]
    exact ih _ (by rw [Rx.commandByte_phase r c v h1, hp]) h

/-- In a data frame a byte received is a data byte (R145). -/
theorem Rx.receiveAll_data (r : Rx) (c : Config) (vs : List Byte) (hp : r.regs.phase = .data) :
    r.receiveAll c vs = r.datas c.colOverflow vs := by
  induction vs generalizing r with
  | nil => rfl
  | cons v vs ih =>
    have e : r.receive c v = r.dataByte c.colOverflow v := by simp [Rx.receive, hp]
    rw [Rx.receiveAll_cons, Rx.datas_cons, e]
    exact ih _ (by rw [Rx.dataByte_phase, hp])

theorem Rx.commands_phase (r : Rx) (c : Config) (vs : List Byte)
    (h : (r.commands c vs).unspecified = false) :
    (r.commands c vs).regs.phase = r.regs.phase := by
  have := congrArg (fun x : Rx => x.regs.phase)
    (Rx.commands_decoder r c vs r.prev r.regs.phase r.regs.shift r.regs.slot h)
  exact this

theorem Rx.datas_phase (r : Rx) (o : ColOverflow) (vs : List Byte) :
    (r.datas o vs).regs.phase = r.regs.phase := by
  have := congrArg (fun x : Rx => x.regs.phase)
    (Rx.datas_decoder r o vs r.prev r.regs.phase r.regs.shift r.regs.slot)
  exact this

section Open
variable {c : Config} {r : Rx}

/-- The address byte and a control byte at an addressed RX (R142, R143). -/
theorem open_frame (ctl : Byte) (ph : RxPhase) (a b : Bool) (hs : c.devAddr = c.rxAddr)
    (hu : r.unspecified = false) (hp : r.regs.phase = .idle)
    (hw : r.prev = (⟨a, b, true, true⟩ : Pins).wire)
    (hctl : ∀ x : Rx, x.controlByte c ctl = x.update fun g => { g with phase := ph }) :
    (beginEvents ++ sendbEvents c.devAddr ++ sendbEvents ctl).foldl (emit c) (⟨a, b, true, true⟩, r) =
      (Pins.inFrame true, r.decoder (frameLine true) ph ctl 0) := by
  simp only [List.foldl_append]
  rw [begin_opens c r a b hu hp hw]
  have e1 : (r.decoder (frameLine false) .addr 0 0).receive c c.devAddr =
      r.decoder (frameLine false) .ctrl 0 0 := by
    simp only [Rx.receive, Rx.decoder_phase, hs, if_true]; rfl
  rw [sendb_receive c (r.decoder (frameLine false) .addr 0 0) c.devAddr false hu (by simp) rfl rfl
    (by rw [e1]; exact hu), e1, Rx.decoder_decoder, Rx.decoder_phase]
  have e2 : (r.decoder (frameLine true) .ctrl c.devAddr 0).receive c ctl =
      r.decoder (frameLine true) ph c.devAddr 0 := by
    simp only [Rx.receive, Rx.decoder_phase, hctl]; rfl
  rw [sendb_receive c (r.decoder (frameLine true) .ctrl c.devAddr 0) ctl true hu (by simp) rfl rfl
    (by rw [e2]; exact hu), e2, Rx.decoder_decoder, Rx.decoder_phase]

theorem ctrlCmd_selects (hc : c.ctrlOk = true) (x : Rx) :
    x.controlByte c c.ctrlCmd = x.update fun g => { g with phase := .cmd } := by
  simp only [Config.ctrlOk, Bool.and_eq_true, beq_iff_eq] at hc
  simp [Rx.controlByte, hc.1]

theorem ctrlData_selects (hc : c.ctrlOk = true) (x : Rx) :
    x.controlByte c c.ctrlData = x.update fun g => { g with phase := .data } := by
  simp only [Config.ctrlOk, Bool.and_eq_true, beq_iff_eq] at hc
  have h1 : (1#8 <<< c.dcBit.val) &&& ~~~ (1#8 <<< c.dcBit.val) = 0 := by
    generalize c.dcBit = d; revert d; decide
  have h2 : (1#8 <<< c.dcBit.val).getLsbD c.dcBit.val = true := by
    generalize c.dcBit = d; revert d; decide
  simp only [Rx.controlByte, hc.2, h1, h2, if_true]

/-- A command frame at an addressed RX with no frame open: its payload's command bytes. -/
theorem commandFrame_commands (vs : List Byte) (a b : Bool) (hk : c.ctrlOk = true)
    (hs : c.devAddr = c.rxAddr) (hp : r.regs.phase = .idle)
    (hw : r.prev = (⟨a, b, true, true⟩ : Pins).wire)
    (h : (r.commands c vs).unspecified = false)
    (hc : c.pendingSurvives = true ∨ (r.commands c vs).regs.pending = none) :
    ∃ sh, (commandFrame c vs).foldl (emit c) (⟨a, b, true, true⟩, r) =
      (Pins.idle, (r.commands c vs).decoder LineState.idle .idle sh 0) := by
  have hu := Rx.commands_specified_of r c vs h
  simp only [commandFrame, opencEvents]
  rw [List.foldl_append, List.foldl_append,
    open_frame c.ctrlCmd .cmd a b hs hu hp hw (ctrlCmd_selects hk)]
  have e := Rx.commands_decoder r c vs (frameLine true) .cmd c.ctrlCmd 0 h
  have e' : (r.decoder (frameLine true) .cmd c.ctrlCmd 0).receiveAll c vs =
      (r.commands c vs).decoder (frameLine true) .cmd c.ctrlCmd 0 := by
    rw [Rx.receiveAll_cmd _ c vs rfl (by rw [e]; exact h), e]
  obtain ⟨sh, es⟩ := sendEvents_receive c (r.decoder (frameLine true) .cmd c.ctrlCmd 0) vs
    (by simp) rfl rfl (by rw [e']; exact h)
  rw [es, e', Rx.decoder_decoder, Rx.decoder_phase]
  refine ⟨shiftIn sh false, ?_⟩
  have hc' : c.pendingSurvives = true ∨
      ((r.commands c vs).decoder (frameLine true) .cmd sh 0).regs.phase ≠ .cmd ∨
      ((r.commands c vs).decoder (frameLine true) .cmd sh 0).regs.pending = none := by
    rcases hc with hc | hc
    · exact .inl hc
    · exact .inr (.inr hc)
  exact end_closes c ((r.commands c vs).decoder (frameLine true) .cmd sh 0) h (by simp) rfl rfl hc'

theorem sendEvents_wdata (dinv : Bool) (vs : List Byte) :
    vs.flatMap (wdataEvents dinv) = sendEvents (vs.map (pixelByte dinv)) := by
  simp only [sendEvents, List.flatMap_map]
  rfl

/-- A data frame at an addressed RX with no frame open: its pixel bytes, one after the other. -/
theorem pixelFrame_datas (dinv : Bool) (vs : List Byte) (a b : Bool) (hk : c.ctrlOk = true)
    (hs : c.devAddr = c.rxAddr) (hu : r.unspecified = false) (hp : r.regs.phase = .idle)
    (hw : r.prev = (⟨a, b, true, true⟩ : Pins).wire) :
    ∃ sh, (pixelFrame c dinv vs).foldl (emit c) (⟨a, b, true, true⟩, r) =
      (Pins.idle, (r.datas c.colOverflow (vs.map (pixelByte dinv))).decoder
        LineState.idle .idle sh 0) := by
  simp only [pixelFrame, opendEvents, sendEvents_wdata]
  rw [List.foldl_append, List.foldl_append,
    open_frame c.ctrlData .data a b hs hu hp hw (ctrlData_selects hk)]
  have hu' : ∀ ws, (r.datas c.colOverflow ws).unspecified = false := fun ws => by
    rw [Rx.datas_unspecified]; exact hu
  have e : ∀ ws, (r.decoder (frameLine true) .data c.ctrlData 0).receiveAll c ws =
      (r.datas c.colOverflow ws).decoder (frameLine true) .data c.ctrlData 0 := fun ws => by
    rw [Rx.receiveAll_data _ c ws rfl, Rx.datas_decoder]
  obtain ⟨sh, es⟩ := sendEvents_receive c (r.decoder (frameLine true) .data c.ctrlData 0)
    (vs.map (pixelByte dinv)) (by simp) rfl rfl (by rw [e]; exact hu' _)
  rw [es, e, Rx.decoder_decoder, Rx.decoder_phase]
  exact ⟨shiftIn sh false, end_closes c
    ((r.datas c.colOverflow (vs.map (pixelByte dinv))).decoder (frameLine true) .data sh 0) (hu' _)
    (by simp) rfl rfl (.inr (.inl (by simp)))⟩

end Open

end Machine

end Sys2Proof
end

