-- ==== Sys2Proof/Laws/Memory.lean ====
section
/-!
SUPPORT. The laws of memory held as cells: a write is read back, leaves every other address alone,
and keeps the canonical form.
-/

namespace Sys2Proof

namespace Machine

namespace Memory

theorem find_cell_append (sp : Space) (a b : Nat) (v : Byte) (m : List Host.Cell) (h : b ≠ a) :
    find (cell sp a v ++ m) b = find m b := by
  unfold cell
  split <;> simp [find, h]

theorem find_of_risingFrom {lo a : Nat} {m : List Host.Cell} (h : risingFrom lo m = true)
    (ha : a < lo) : find m a = none := by
  induction m generalizing lo with
  | nil => rfl
  | cons x m ih =>
    obtain ⟨b, v⟩ := x
    simp only [risingFrom, Bool.and_eq_true, decide_eq_true_eq] at h
    have hb : a ≠ b := by omega
    simp only [find, hb, if_false]
    exact ih h.2 (by omega)

theorem read_cell_append {sp : Space} {a : Nat} {v : Byte} {m : List Host.Cell}
    (h : find m a = none) : read sp (cell sp a v ++ m) a = some v := by
  unfold cell
  split
  next hv => simp [read, h, hv]
  next => simp [read, find]

/-- A byte written is read back (R155). -/
theorem read_write_same {sp : Space} {lo : Nat} {m : List Host.Cell} (a : Nat) (v : Byte)
    (h : risingFrom lo m = true) : read sp (write sp m a v) a = some v := by
  induction m generalizing lo with
  | nil =>
    have := read_cell_append (sp := sp) (a := a) (v := v) (m := []) rfl
    simpa [write] using this
  | cons x m ih =>
    obtain ⟨b, w⟩ := x
    simp only [risingFrom, Bool.and_eq_true, decide_eq_true_eq] at h
    simp only [write]
    split
    next hlt =>
      refine read_cell_append ?_
      have hne : a ≠ b := by omega
      simp only [find, hne, if_false]
      exact find_of_risingFrom h.2 (by omega)
    next hge =>
      split
      next heq => exact read_cell_append (find_of_risingFrom h.2 (by omega))
      next hne => simpa [read, find, hne] using ih h.2

/-- A write leaves every other address alone. -/
theorem read_write_other {sp : Space} (m : List Host.Cell) {a b : Nat} (v : Byte) (h : b ≠ a) :
    read sp (write sp m a v) b = read sp m b := by
  have hf : find (write sp m a v) b = find m b := by
    induction m with
    | nil =>
      have := find_cell_append sp a b v [] h
      simpa [write] using this
    | cons x m ih =>
      obtain ⟨k, w⟩ := x
      simp only [write]
      split
      next => exact find_cell_append sp a b v _ h
      next =>
        split
        next heq =>
          subst heq
          rw [find_cell_append sp a b v _ h]
          simp [find, h]
        next => simp only [find, ih]
  simp [read, hf]

theorem risingFrom_mono {lo lo' : Nat} {m : List Host.Cell} (h : risingFrom lo m = true)
    (hl : lo' ≤ lo) : risingFrom lo' m = true := by
  cases m with
  | nil => rfl
  | cons x m =>
    simp only [risingFrom, Bool.and_eq_true, decide_eq_true_eq] at h ⊢
    exact ⟨by omega, h.2⟩

theorem risingFrom_cell_append {sp : Space} {lo a : Nat} {v : Byte} {m : List Host.Cell}
    (ha : lo ≤ a) (h : risingFrom (a + 1) m = true) :
    risingFrom lo (cell sp a v ++ m) = true := by
  unfold cell
  split
  next => exact risingFrom_mono h (by omega)
  next => simp [risingFrom, ha, h]

theorem write_rising {sp : Space} {lo : Nat} {m : List Host.Cell} {a : Nat} (v : Byte)
    (h : risingFrom lo m = true) (ha : lo ≤ a) : risingFrom lo (write sp m a v) = true := by
  induction m generalizing lo with
  | nil =>
    have := risingFrom_cell_append (sp := sp) (v := v) (m := []) ha rfl
    simpa [write] using this
  | cons x m ih =>
    obtain ⟨b, w⟩ := x
    have h' := h
    simp only [risingFrom, Bool.and_eq_true, decide_eq_true_eq] at h
    simp only [write]
    split
    next hlt =>
      refine risingFrom_cell_append ha ?_
      simp only [risingFrom, Bool.and_eq_true, decide_eq_true_eq]
      exact ⟨by omega, h.2⟩
    next =>
      split
      next heq => exact risingFrom_cell_append ha (by rw [heq]; exact h.2)
      next =>
        simp only [risingFrom, Bool.and_eq_true, decide_eq_true_eq]
        exact ⟨h.1, ih h.2 (by omega)⟩

theorem cell_ok {sp : Space} {a : Nat} {v : Byte} (ha : a < size sp) :
    (cell sp a v).all (cellOk sp) = true := by
  unfold cell
  split
  next => rfl
  next hv => simp [cellOk, ha, hv]

/-- A write inside the space keeps the canonical form. -/
theorem write_wf {sp : Space} {m : List Host.Cell} {a : Nat} (v : Byte) (h : wf sp m = true)
    (ha : a < size sp) : wf sp (write sp m a v) = true := by
  simp only [wf, Bool.and_eq_true] at h ⊢
  refine ⟨write_rising v h.1 (Nat.zero_le a), ?_⟩
  have hm := h.2
  clear h
  induction m with
  | nil => simpa [write] using cell_ok (v := v) ha
  | cons x m ih =>
    obtain ⟨b, w⟩ := x
    simp only [List.all_cons, Bool.and_eq_true] at hm
    simp only [write]
    split
    next => simp [cell_ok (v := v) ha, hm.1, hm.2]
    next =>
      split
      next => simp [cell_ok (v := v) ha, hm.2]
      next => simp [hm.1, ih hm.2]

@[simp] theorem wf_nil (sp : Space) : wf sp [] = true := rfl

theorem rising_of_wf {sp : Space} {m : List Host.Cell} (h : wf sp m = true) :
    risingFrom 0 m = true := by
  simp only [wf, Bool.and_eq_true] at h
  exact h.1

end Memory

theorem dispKey_lt (p : BitVec 3) (q : BitVec 7) : dispKey p q < Memory.size .disp := by
  have hp := p.isLt
  have hq := q.isLt
  simp only [dispKey, Memory.size, numCols, numRows]
  omega

theorem dispKey_inj {p p' : BitVec 3} {q q' : BitVec 7} :
    dispKey p q = dispKey p' q' ↔ p = p' ∧ q = q' := by
  have hq := q.isLt
  have hq' := q'.isLt
  constructor
  · intro h
    simp only [dispKey, numCols] at h
    refine ⟨BitVec.eq_of_toNat_eq (by omega), BitVec.eq_of_toNat_eq (by omega)⟩
  · rintro ⟨rfl, rfl⟩
    rfl

/-- A byte of the display RAM written is read back (R155), and every other byte reads as before. -/
theorem Rx.writeRam_ramByte {r : Rx} (h : Memory.wf .disp r.ram = true) (p p' : BitVec 3)
    (q q' : BitVec 7) (v : Byte) :
    (r.writeRam p q v).ramByte p' q' = if p' = p ∧ q' = q then v else r.ramByte p' q' := by
  simp only [Rx.ramByte, Rx.writeRam]
  split
  next e => rw [e.1, e.2, Memory.read_write_same _ _ (Memory.rising_of_wf h)]; rfl
  next e => rw [Memory.read_write_other _ _ fun hk => e (dispKey_inj.mp hk)]

end Machine

end Sys2Proof
end

