-- ==== Sys2Proof/Laws/Perform.lean ====
section
/-!
SUPPORT. What performing a list of pin events does: the events follow the trace, the pins move with
them, RX has seen the lines as they are, and nothing else of the state changes.
-/

namespace Sys2Proof

namespace Machine

open Safety

@[simp] theorem State.perform_nil (s : State) : s.perform [] = s := by
  simp [State.perform]

theorem State.perform_rx (s : State) (es : List Event) :
    (s.perform es).rx = (es.foldl (emit s.cfg) (s.pins, s.rx)).2 := rfl

theorem foldl_emit_pins (c : Config) (es : List Event) (x : Pins × Rx) :
    (es.foldl (emit c) x).1 = x.1.applyAll es := by
  induction es generalizing x with
  | nil => rfl
  | cons e es ih => exact ih (emit c x e)

@[simp] theorem State.perform_pins (s : State) (es : List Event) :
    (s.perform es).pins = s.pins.applyAll es := foldl_emit_pins s.cfg es _

theorem State.perform_append (s : State) (es fs : List Event) :
    s.perform (es ++ fs) = (s.perform es).perform fs := by
  simp [State.perform, List.append_assoc]

@[simp] theorem Pins.applyAll_nil (p : Pins) : p.applyAll [] = p := rfl
@[simp] theorem Pins.applyAll_cons (p : Pins) (e : Event) (es : List Event) :
    p.applyAll (e :: es) = (p.apply e).applyAll es := rfl
@[simp] theorem Pins.applyAll_append (p : Pins) (es fs : List Event) :
    p.applyAll (es ++ fs) = (p.applyAll es).applyAll fs := by
  simp [Pins.applyAll]

/-- What the performing of events leaves of TX. -/
theorem perform_emits (s : State) (es : List Event) : Emits s (s.perform es) es where
  trace := rfl
  pins := s.perform_pins es
  dinv := rfl
  cfg := rfl
  ps := rfl
  inputs := rfl
  draws := rfl

/-! ### The pins after the fixed event lists -/

@[simp] theorem applyAll_begin (p : Pins) :
    p.applyAll beginEvents = { p with latchScl := false, latchSda := false } := rfl

@[simp] theorem applyAll_bitCell (p : Pins) (b : Bool) :
    p.applyAll (bitCell b) = { p with latchScl := false, latchSda := b } := rfl

@[simp] theorem applyAll_sendb (p : Pins) (v : Byte) :
    p.applyAll (sendbEvents v) = { p with latchScl := false, latchSda := true } := rfl

@[simp] theorem applyAll_end (p : Pins) :
    p.applyAll endEvents = { p with latchScl := true, latchSda := true } := rfl

theorem applyAll_sends (p : Pins) (vs : List Byte) :
    p.applyAll (sendEvents vs) =
      if vs = [] then p else { p with latchScl := false, latchSda := true } := by
  induction vs generalizing p with
  | nil => rfl
  | cons v vs ih =>
    simp only [sendEvents, List.flatMap_cons, Pins.applyAll_append, applyAll_sendb] at ih ⊢
    rw [ih]
    by_cases h : vs = [] <;> simp [h]

@[simp] theorem applyAll_frame (p : Pins) (bytes : List Byte) :
    p.applyAll (frame bytes) = { p with latchScl := true, latchSda := true } := by
  simp only [frame, Pins.applyAll_append, applyAll_begin, applyAll_sends, applyAll_end]
  split <;> rfl

/-! ### Lengths (R72) -/

@[simp] theorem begin_length : beginEvents.length = 4 := rfl
@[simp] theorem end_length : endEvents.length = 4 := rfl
@[simp] theorem sendb_length (v : Byte) : (sendbEvents v).length = 27 := rfl

@[simp] theorem sends_length (vs : List Byte) : (sendEvents vs).length = 27 * vs.length := by
  induction vs with
  | nil => rfl
  | cons v vs ih =>
    simp only [sendEvents, List.flatMap_cons, List.length_append, sendb_length,
      List.length_cons] at ih ⊢
    omega

@[simp] theorem frame_length (bytes : List Byte) :
    (frame bytes).length = 8 + 27 * bytes.length := by
  simp only [frame, List.length_append, begin_length, sends_length, end_length]
  omega

/-! ### The composed event lists are frames (R92) -/

@[simp] theorem sendEvents_cons (v : Byte) (vs : List Byte) :
    sendEvents (v :: vs) = sendbEvents v ++ sendEvents vs := rfl

@[simp] theorem sendEvents_nil : sendEvents [] = [] := rfl

theorem commandFrame_frame (c : Config) (bytes : List Byte) :
    commandFrame c bytes = frame (c.devAddr :: c.ctrlCmd :: bytes) := by
  simp [commandFrame, opencEvents, frame]

theorem pixelByte_mask (dinv : Bool) : pixelByte dinv = (· ^^^ mask dinv) := rfl

theorem pixelFrame_frame (c : Config) (dinv : Bool) (bytes : List Byte) :
    pixelFrame c dinv bytes = dataFrame c dinv bytes := by
  simp [pixelFrame, opendEvents, dataFrame, frame, sendEvents_wdata, pixelByte_mask]

@[simp] theorem positionFrame_length (c : Config) (row col : Nat) :
    (positionFrame c row col).length = 143 := by
  simp [positionFrame]

@[simp] theorem dataFrame_length (c : Config) (dinv : Bool) (bytes : List Byte) :
    (dataFrame c dinv bytes).length = 62 + 27 * bytes.length := by
  simp only [dataFrame, frame_length, List.length_cons, List.length_map]
  omega

theorem setposEvents_frame (c : Config) {row col : Nat} (hr : row < 8) (hc : col < 128) :
    setposEvents c row col = positionFrame c row col := by
  simp [setposEvents, validPos, numRows, numCols, hr, hc, commandFrame_frame, positionFrame,
    positionBytes]

/-! ### What RX has seen -/

theorem Rx.commandByte_prev (r : Rx) (c : Config) (v : Byte) :
    (r.commandByte c v).prev = r.prev := by
  simp only [Rx.commandByte]
  split <;> split <;> simp [Rx.apply_prev]
  split <;> simp [Rx.apply_prev]

theorem Rx.dataByte_prev (r : Rx) (o : ColOverflow) (v : Byte) :
    (r.dataByte o v).prev = r.prev := by
  simp only [Rx.dataByte]
  split
  · split <;> rfl
  · rfl

theorem Rx.receive_prev (r : Rx) (c : Config) (v : Byte) : (r.receive c v).prev = r.prev := by
  simp only [Rx.receive]
  split
  · rfl
  · rfl
  · simp only [Rx.controlByte]; split <;> rfl
  · exact r.commandByte_prev c v
  · exact r.dataByte_prev _ v
  · rfl

theorem Rx.onStep_prev (r : Rx) (c : Config) (w : WireStep) : (r.onStep c w).prev = r.prev := by
  cases w with
  | quiet => rfl
  | start => simp only [Rx.onStep, Rx.onStart]; split <;> rfl
  | stop =>
    simp only [Rx.onStep, Rx.onStop]
    split
    · rfl
    · split <;> rfl
  | rise b =>
    simp only [Rx.onStep, Rx.onRise]
    split
    · rfl
    · split
      · rfl
      · split
        · exact Rx.receive_prev _ _ _
        · rfl

theorem Rx.react_prev (r : Rx) (c : Config) (w : WireStep) : (r.react c w).prev = r.prev := by
  simp only [Rx.react, Rx.wander]
  split
  · split
    · split <;> rfl
    · rfl
  · exact r.onStep_prev c w

@[simp] theorem Rx.observe_prev (r : Rx) (c : Config) (q : LineState) :
    (r.observe c q).prev = q := by
  simp only [Rx.observe]
  split
  · simp [*]
  · split
    · exact Rx.react_prev _ _ _
    · rfl

theorem foldl_emit_prev (c : Config) (es : List Event) (x : Pins × Rx) (h : x.2.prev = x.1.wire) :
    (es.foldl (emit c) x).2.prev = (es.foldl (emit c) x).1.wire := by
  induction es generalizing x with
  | nil => exact h
  | cons e es ih => exact ih _ (by simp [emit])

/-- RX has seen the lines as they are (R25, R51). -/
theorem State.perform_prev (s : State) (es : List Event) (h : s.rx.prev = s.pins.wire) :
    (s.perform es).rx.prev = (s.pins.applyAll es).wire := by
  have := foldl_emit_prev s.cfg es (s.pins, s.rx) h
  rw [foldl_emit_pins] at this
  exact this

/-- With the lines not driven RX sees nothing (R16, R85). -/
theorem foldl_emit_undriven (c : Config) (es : List Event) (p : Pins) (r : Rx)
    (he : ∀ e ∈ es, ∃ l b, e = .write l b) (h1 : p.oeScl = false) (h2 : p.oeSda = false)
    (hr : r.prev = ⟨.z, .z⟩) : (es.foldl (emit c) (p, r)).2 = r := by
  induction es generalizing p with
  | nil => rfl
  | cons e es ih =>
    obtain ⟨l, b, rfl⟩ := he e (by simp)
    have : emit c (p, r) (.write l b) = (p.apply (.write l b), r) := by
      cases l <;> simp [emit, Pins.wire, levelOf, h1, h2, Rx.observe, hr]
    rw [List.foldl_cons, this]
    refine ih _ (fun e he' => he e (by simp [he'])) ?_ ?_ <;> cases l <;> simp [h1, h2]

end Machine

end Sys2Proof
end

