-- ==== Sys2Proof/Laws/Exec.lean ====
section
/-!
SUPPORT. Everything an instruction and a step can do, said once.
-/

namespace Sys2Proof

namespace Machine

open Safety

/-- What an instruction can do: perform pin events, set `DINV`, or be refused for its operands
(R175). -/
theorem exec_cases (i : Instr) (s : State) :
    (∃ es, exec i s = .next (s.perform es)) ∨
    (∃ f, i = .invdata f ∧ exec i s = .next (s.setDinv (flagOf f))) ∨
    exec i s = .refused .patternLengthZero ∨ exec i s = .refused .operandPastPs ∨
    exec i s = .refused .glyphPastFont := by
  cases i with
  | invdata f => exact .inr (.inl ⟨f, rfl, rfl⟩)
  | text r c p =>
    simp only [exec, execText]
    split
    · exact .inl ⟨_, rfl⟩
    · split
      · simp
      · split
        · simp
        · exact .inl ⟨_, rfl⟩
  | text2x r c p =>
    simp only [exec, execText2x]
    split
    · exact .inl ⟨_, rfl⟩
    · split
      · simp
      · split
        · exact .inl ⟨_, rfl⟩
        · simp
  | fillarea a b c d e =>
    simp only [exec, execFillarea]
    split <;> exact .inl ⟨_, rfl⟩
  | fillpat a b c d e p =>
    simp only [exec, execFillpat]
    split
    · simp
    · split
      · exact .inl ⟨_, rfl⟩
      · split
        · exact .inl ⟨_, rfl⟩
        · simp
  | image a b c d p =>
    simp only [exec, execImage]
    split
    · exact .inl ⟨_, rfl⟩
    · split
      · exact .inl ⟨_, rfl⟩
      · simp
  | beginSession | sendByte | endSession | openc | opend | close | cmd1 | wdata | setpos | init
  | contrast | invscr | sleep | fillscr | setcollo | setcolhi | addrmode | setcontrast | chargepump
  | segremap | invertoff | inverton | setmux | dispoff | dispon | setpage | comdir | dispoffset
  | clkdiv => exact .inl ⟨_, rfl⟩

/-- What an instruction that answers a next state did. -/
theorem exec_next {i : Instr} {s t : State} (h : exec i s = .next t) :
    (∃ es, t = s.perform es) ∨ ∃ f, i = .invdata f ∧ t = s.setDinv (flagOf f) := by
  rcases exec_cases i s with ⟨es, e⟩ | ⟨f, hi, e⟩ | e | e | e <;> rw [e] at h <;> cases h
  · exact .inl ⟨es, rfl⟩
  · exact .inr ⟨f, hi, rfl⟩

/-- No instruction is refused as a reserved code. -/
theorem exec_not_reserved (i : Instr) (s : State) : exec i s ≠ .refused .reservedOp := by
  rcases exec_cases i s with ⟨es, e⟩ | ⟨f, hi, e⟩ | e | e | e <;> rw [e] <;> simp

/-- No instruction faults (R175). -/
theorem exec_no_fault (i : Instr) (s : State) (f : Fault) : exec i s ≠ .fault f := nomatch f

@[simp] theorem eventsTo_perform (s : State) (es : List Event) :
    s.eventsTo (s.perform es) = es := by
  simp only [State.eventsTo, State.perform_trace, List.drop_left]

@[simp] theorem eventsTo_setDinv (s : State) (b : Bool) : s.eventsTo (s.setDinv b) = [] := by
  simp [State.eventsTo]

/-- Stopping an operation after some of its events is performing a prefix of them (R168), after which
RX may be at any value (U14). -/
theorem stoppedAfter_perform (s : State) (k : Nat) (es : List Event) :
    s.stoppedAfter k (s.perform es) =
      if 0 < k ∧ k < es.length then (s.perform (es.take k)).stopHere else s.perform (es.take k) := by
  simp only [State.stoppedAfter, eventsTo_perform]
  split
  next h => rw [List.take_of_length_le h, if_neg (by omega)]
  next h =>
    split
    next hk => rw [if_neg (by omega), hk, List.take_zero, State.perform_nil]
    next hk => rw [if_pos (by omega)]

/-- An operation that emitted no event has ended. -/
@[simp] theorem stoppedAfter_setDinv (s : State) (k : Nat) (b : Bool) :
    s.stoppedAfter k (s.setDinv b) = s.setDinv b := by
  simp [State.stoppedAfter]

/-- A reset inside an operation is a reset after a prefix of its events (R177, R179). -/
@[simp] theorem resetAfter_perform (s : State) (k : Nat) (es : List Event) :
    s.resetAfter k (s.perform es) = (s.perform (es.take k)).txReset := by
  simp [State.resetAfter]

@[simp] theorem resetAfter_setDinv (s : State) (k : Nat) (b : Bool) :
    s.resetAfter k (s.setDinv b) = s.txReset := by
  simp [State.resetAfter]

/-- A power-up of RX inside an operation lies between two parts of its events (R34, R179). -/
@[simp] theorem powerUpAfter_perform (s : State) (k : Nat) (es : List Event) :
    s.powerUpAfter k (s.perform es) = ((s.perform (es.take k)).rxPowerUp).perform (es.drop k) := by
  simp only [State.powerUpAfter, eventsTo_perform]
  rfl

@[simp] theorem powerUpAfter_setDinv (s : State) (k : Nat) (b : Bool) :
    s.powerUpAfter k (s.setDinv b) = s.rxPowerUp.setDinv b := by
  simp [State.powerUpAfter]

theorem stepIssue_host_next {w : HostWord} {s t : State} (h : stepIssue (.host w) s = .next t) :
    ∃ i, decodeHost w = .ok i ∧ exec i s = .next t := by
  cases hd : decodeHost w with
  | error e => simp [stepIssue, decode, hd] at h
  | ok i =>
    simp only [stepIssue, decode, hd] at h
    exact ⟨i, rfl, h⟩

/-- An operation that the outside world cuts into answers what becomes of it. -/
theorem stepCut_next {cut : State → State} {w : HostWord} {s t : State}
    (h : stepCut cut w s = .next t) :
    ∃ i u, decodeHost w = .ok i ∧ exec i s = .next u ∧ t = cut u := by
  cases hu : stepIssue (.host w) s with
  | fault f => exact nomatch f
  | refused r => simp [stepCut, hu] at h
  | next u =>
    simp only [stepCut, hu] at h
    cases h
    obtain ⟨i, hd, hi⟩ := stepIssue_host_next hu
    exact ⟨i, u, hd, hi, rfl⟩

/-- An operation stopped early has performed a prefix of its events, after which RX may be at any
value, or has ended. -/
theorem stepAbandon_next {k : Nat} {w : HostWord} {s t : State} (h : stepAbandon k w s = .next t) :
    (∃ es, t = s.perform es) ∨ (∃ es, t = (s.perform es).stopHere) ∨ ∃ i, exec i s = .next t := by
  obtain ⟨i, u, -, hi, rfl⟩ := stepCut_next h
  rcases exec_next hi with ⟨es, rfl⟩ | ⟨f, -, rfl⟩
  · rw [stoppedAfter_perform]
    split
    · exact .inr (.inl ⟨_, rfl⟩)
    · exact .inl ⟨_, rfl⟩
  · exact .inr (.inr ⟨i, by rwa [stoppedAfter_setDinv]⟩)

/-- A reset inside an operation leaves the reset of what a list of events left. -/
theorem stepResetDuring_next {k : Nat} {w : HostWord} {s t : State}
    (h : stepResetDuring k w s = .next t) : ∃ es, t = (s.perform es).txReset := by
  obtain ⟨i, u, -, hi, rfl⟩ := stepCut_next h
  rcases exec_next hi with ⟨es, rfl⟩ | ⟨f, -, rfl⟩
  · exact ⟨_, resetAfter_perform _ _ _⟩
  · exact ⟨[], by rw [resetAfter_setDinv, State.perform_nil]⟩

/-- A power-up of RX inside an operation lies between two lists of events. -/
theorem stepPowerUpDuring_next {k : Nat} {w : HostWord} {s t : State}
    (h : stepPowerUpDuring k w s = .next t) :
    ∃ es fs b, t = (((s.perform es).rxPowerUp).perform fs).setDinv b := by
  obtain ⟨i, u, -, hi, rfl⟩ := stepCut_next h
  rcases exec_next hi with ⟨es, rfl⟩ | ⟨f, -, rfl⟩
  · exact ⟨_, _, s.dinv, powerUpAfter_perform _ _ _⟩
  · exact ⟨[], [], flagOf f, by rw [powerUpAfter_setDinv, State.perform_nil, State.perform_nil]⟩

/-- What a step that answers a next state did. -/
theorem step_next {s t : State} (h : step s = .next t) :
    t = s ∨ ∃ rest, ∃ s' : State, s' = { s with inputs := rest } ∧
      ((∃ i, exec i s' = .next t) ∨ (∃ es, t = s'.perform es) ∨
        (∃ es, t = (s'.perform es).stopHere) ∨ (∃ es, t = (s'.perform es).txReset) ∨
        ∃ es fs b, t = (((s'.perform es).rxPowerUp).perform fs).setDinv b) := by
  simp only [step] at h
  split at h
  · cases h; exact .inl rfl
  · next c rest hs =>
    refine .inr ⟨rest, _, rfl, ?_⟩
    simp only [stepIssue] at h
    split at h
    · exact .inl ⟨_, h⟩
    · simp at h
    · cases h; exact .inr (.inl ⟨_, rfl⟩)
  · next k w rest hs =>
    refine .inr ⟨rest, _, rfl, ?_⟩
    rcases stepAbandon_next h with he | he | hi
    · exact .inr (.inl he)
    · exact .inr (.inr (.inl he))
    · exact .inl hi
  · next rest hs =>
    cases h
    exact .inr ⟨rest, _, rfl, .inr (.inr (.inr (.inl ⟨[], by rw [State.perform_nil]⟩)))⟩
  · next k w rest hs =>
    exact .inr ⟨rest, _, rfl, .inr (.inr (.inr (.inl (stepResetDuring_next h))))⟩
  · next rest hs =>
    cases h
    refine .inr ⟨rest, _, rfl, .inr (.inr (.inr (.inr ⟨[], [], s.dinv, ?_⟩)))⟩
    rw [State.perform_nil, State.perform_nil]
    rfl
  · next k w rest hs =>
    exact .inr ⟨rest, _, rfl, .inr (.inr (.inr (.inr (stepPowerUpDuring_next h))))⟩

end Machine

end Sys2Proof
end

