-- ==== Sys2Proof/Laws/Effect.lean ====
section
/-!
SUPPORT. What each instruction that answers a next state has done, by its kind: the link and framing
operations, the composed operations and the controller commands (a list of whole frames, R93), and
`INVDATA`.
-/

namespace Sys2Proof

namespace Machine

open Safety

/-- The events are whole frames of TX: each the address byte, a control byte, a payload (R61). -/
def IsFrames (c : Config) (es : List Event) : Prop :=
  ∃ fs : List (List Byte), es = fs.flatMap frame ∧
    ∀ f ∈ fs, ∃ ctl payload, f = c.devAddr :: ctl :: payload ∧ (ctl = c.ctrlCmd ∨ ctl = c.ctrlData)

section
variable (c : Config)

theorem IsFrames.nil : IsFrames c [] := ⟨[], rfl, by simp⟩

variable {c}

theorem IsFrames.append {es es' : List Event} (h : IsFrames c es) (h' : IsFrames c es') :
    IsFrames c (es ++ es') := by
  obtain ⟨fs, rfl, hf⟩ := h
  obtain ⟨fs', rfl, hf'⟩ := h'
  refine ⟨fs ++ fs', by simp, ?_⟩
  intro f hm
  rcases List.mem_append.mp hm with hm | hm
  · exact hf f hm
  · exact hf' f hm

theorem IsFrames.flatMap {α : Type} (g : α → List Event) (h : ∀ x, IsFrames c (g x)) (l : List α) :
    IsFrames c (l.flatMap g) := by
  induction l with
  | nil => exact IsFrames.nil c
  | cons x l ih => exact (h x).append ih

variable (c)

theorem IsFrames.command (bytes : List Byte) : IsFrames c (commandFrame c bytes) :=
  ⟨[c.devAddr :: c.ctrlCmd :: bytes], by simp [commandFrame_frame], by simp⟩

theorem IsFrames.pixels (dinv : Bool) (bytes : List Byte) : IsFrames c (pixelFrame c dinv bytes) :=
  ⟨[c.devAddr :: c.ctrlData :: bytes.map (· ^^^ mask dinv)],
    by simp [pixelFrame_frame, dataFrame], by simp⟩

theorem IsFrames.setpos (row col : Nat) : IsFrames c (setposEvents c row col) := by
  simp only [setposEvents]
  split
  · exact IsFrames.command c _
  · exact IsFrames.nil c

theorem IsFrames.text (dinv : Bool) (row col : Nat) (glyphs : List (List Byte)) :
    IsFrames c (textPass c dinv row col glyphs) :=
  (IsFrames.setpos c row col).append (IsFrames.flatMap _ (IsFrames.pixels c dinv) glyphs)

theorem IsFrames.rect (dinv : Bool) (srow scol height : Nat) (rowBytes : Nat → List Byte) :
    IsFrames c (rectEvents c dinv srow scol height rowBytes) :=
  IsFrames.flatMap _ (fun _ => (IsFrames.setpos c _ _).append (IsFrames.pixels c dinv _)) _

end

/-- What an instruction that answers `t` at `s` has done. -/
inductive Effect (s : State) : Instr → State → Prop
  | start : Effect s .beginSession (s.perform beginEvents)
  | byte (v : Byte) : Effect s (.sendByte v) (s.perform (sendbEvents v))
  | pixel (v : Byte) : Effect s (.wdata v) (s.perform (sendbEvents (v ^^^ mask s.dinv)))
  | stop {i : Instr} (h : i = .endSession ∨ i = .close) : Effect s i (s.perform endEvents)
  | openc : Effect s .openc (s.perform (opencEvents s.cfg))
  | opend : Effect s .opend (s.perform (opendEvents s.cfg))
  | init : Effect s .init
      (s.perform (initPinEvents ++ frame (s.cfg.devAddr :: s.cfg.ctrlCmd :: s.cfg.cmdTable)))
  | invdata (f : Byte) : Effect s (.invdata f) (s.setDinv (flagOf f))
  | frames {i : Instr} {es : List Event} (hi : ∀ g, after g i = fromIdle g .idle)
      (hn : i ≠ .init) (h : IsFrames s.cfg es) : Effect s i (s.perform es)

theorem exec_effect {i : Instr} {s t : State} (h : exec i s = .next t) : Effect s i t := by
  cases i with
  | beginSession => cases h; exact .start
  | sendByte v => cases h; exact .byte v
  | endSession => cases h; exact .stop (.inl rfl)
  | openc => cases h; exact .openc
  | opend => cases h; exact .opend
  | close => cases h; exact .stop (.inr rfl)
  | wdata v => cases h; exact .pixel v
  | init =>
    have e : exec .init s = .next (s.perform (initPinEvents ++
      frame (s.cfg.devAddr :: s.cfg.ctrlCmd :: s.cfg.cmdTable))) := by
      simp only [exec, execInit, commandFrame_frame]
    rw [e] at h; cases h; exact .init
  | invdata f => cases h; exact .invdata f
  | cmd1 v => cases h; exact .frames (fun _ => rfl) (by simp) (.command _ _)
  | setpos r c => cases h; exact .frames (fun _ => rfl) (by simp) (.setpos _ _ _)
  | contrast v => cases h; exact .frames (fun _ => rfl) (by simp) (.command _ _)
  | invscr v => cases h; exact .frames (fun _ => rfl) (by simp) (.command _ _)
  | sleep v => cases h; exact .frames (fun _ => rfl) (by simp) (.command _ _)
  | fillscr v => cases h; exact .frames (fun _ => rfl) (by simp) (.rect _ _ _ _ _ _)
  | text r c p =>
    simp only [exec, execText] at h
    split at h
    · cases h; exact .frames (fun _ => rfl) (by simp) (.nil _)
    · split at h
      · simp at h
      · split at h
        · simp at h
        · cases h; exact .frames (fun _ => rfl) (by simp) (.text _ _ _ _ _)
  | text2x r c p =>
    simp only [exec, execText2x] at h
    split at h
    · cases h; exact .frames (fun _ => rfl) (by simp) (.nil _)
    · split at h
      · simp at h
      · split at h
        · cases h
          exact .frames (fun _ => rfl) (by simp) (.append (.text _ _ _ _ _) (.text _ _ _ _ _))
        · simp at h
  | fillarea a b c d e =>
    simp only [exec, execFillarea] at h
    split at h <;> cases h
    · exact .frames (fun _ => rfl) (by simp) (.nil _)
    · exact .frames (fun _ => rfl) (by simp) (.rect _ _ _ _ _ _)
  | fillpat a b c d e p =>
    simp only [exec, execFillpat] at h
    split at h
    · simp at h
    · split at h
      · cases h; exact .frames (fun _ => rfl) (by simp) (.nil _)
      · split at h
        · cases h; exact .frames (fun _ => rfl) (by simp) (.rect _ _ _ _ _ _)
        · simp at h
  | image a b c d p =>
    simp only [exec, execImage] at h
    split at h
    · cases h; exact .frames (fun _ => rfl) (by simp) (.nil _)
    · split at h
      · cases h; exact .frames (fun _ => rfl) (by simp) (.rect _ _ _ _ _ _)
      · simp at h
  | setcollo | setcolhi | addrmode | setcontrast | chargepump | segremap | invertoff | inverton
  | setmux | dispoff | dispon | setpage | comdir | dispoffset | clkdiv =>
    cases h; exact .frames (fun _ => rfl) (by simp) (.command _ _)

/-! ### The lines after it -/

theorem applyAll_flatMap_frame (fs : List (List Byte)) (p : Pins) :
    p.applyAll (fs.flatMap frame) = p ∨
      p.applyAll (fs.flatMap frame) = { p with latchScl := true, latchSda := true } := by
  induction fs using List.reverseRecOn with
  | nil => exact .inl rfl
  | append_singleton fs f ih =>
    right
    simp only [List.flatMap_append, List.flatMap_cons, List.flatMap_nil, List.append_nil,
      Pins.applyAll_append, applyAll_frame]
    rcases ih with e | e <;> rw [e]

theorem applyAll_frames {c : Config} {es : List Event} (h : IsFrames c es) (p : Pins) :
    p.applyAll es = p ∨ p.applyAll es = { p with latchScl := true, latchSda := true } := by
  obtain ⟨fs, rfl, -⟩ := h
  exact applyAll_flatMap_frame fs p

@[simp] theorem applyAll_openc (p : Pins) (c : Config) :
    p.applyAll (opencEvents c) = { p with latchScl := false, latchSda := true } := by
  simp [opencEvents]

@[simp] theorem applyAll_opend (p : Pins) (c : Config) :
    p.applyAll (opendEvents c) = { p with latchScl := false, latchSda := true } := by
  simp [opendEvents]

@[simp] theorem applyAll_initPins (p : Pins) : p.applyAll initPinEvents = Pins.idle := rfl

/-! ### RX after it -/

/-- An RX whose state is unspecified for good stays so whatever it observes. -/
theorem Rx.observe_lost {r : Rx} (c : Config) (q : LineState) (h : r.lost = true) :
    (r.observe c q).lost = true := by
  have h' : r.unspecified = true ∧ r.untilStop = false := by simpa [Rx.lost] using h
  simp only [Rx.observe]
  split
  · exact h
  · split
    · simp [Rx.react, Rx.wander, h', Rx.lost]
    · exact h

theorem foldl_emit_lost (c : Config) (es : List Event) (x : Pins × Rx) (h : x.2.lost = true) :
    (es.foldl (emit c) x).2.lost = true := by
  induction es generalizing x with
  | nil => exact h
  | cons e es ih => exact ih _ (Rx.observe_lost c _ h)

/-- RX at a STOP on driven lines. -/
theorem foldl_emit_end (c : Config) (x : Pins × Rx) (h1 : x.1.oeScl = true)
    (h2 : x.1.oeSda = true) (hp : x.2.prev = x.1.wire) :
    ∃ y : Rx, y = ([Event.write .scl false, .write .sda false, .write .scl true].foldl
        (emit c) x).2 ∧
      (endEvents.foldl (emit c) x).2 = ({ y with prev := LineState.idle } : Rx).react c .stop := by
  refine ⟨_, rfl, ?_⟩
  have e : endEvents = [.write .scl false, .write .sda false, .write .scl true] ++
      [.write .sda true] := rfl
  rw [e, List.foldl_append]
  have hq := foldl_emit_prev c [.write .scl false, .write .sda false, .write .scl true] x hp
  have hw := foldl_emit_pins c [.write .scl false, .write .sda false, .write .scl true] x
  generalize [Event.write .scl false, .write .sda false, .write .scl true].foldl (emit c) x = y at *
  obtain ⟨p, r⟩ := y
  obtain ⟨a, b, c1, c2⟩ := p
  simp only [Pins.applyAll_cons, Pins.apply_scl, Pins.apply_sda, Pins.applyAll_nil, h1, h2,
    Pins.mk.injEq] at hw
  obtain ⟨rfl, rfl, rfl, rfl⟩ := hw
  simp only [Pins.wire, levelOf, if_true] at hq
  simp [emit, Pins.wire, levelOf, Rx.observe, hq, LineState.driven, classify, LineState.idle]

/-- A STOP leaves an RX that is not unspecified for good with no frame open, or, by the cautious
reading of U5, unspecified for good (R146, R147, R168). -/
theorem Rx.react_stop (r : Rx) (c : Config) :
    (r.react c .stop).lost = true ∨ (r.react c .stop).regs.phase = .idle := by
  simp only [Rx.react, Rx.wander]
  split
  next hu =>
    split
    · exact .inr rfl
    next ht => left; simp [Rx.lost, hu, ht]
  next hu =>
    simp only [Rx.onStep, Rx.onStop]
    split
    · right; assumption
    · split
      · left; rfl
      · right; rfl

/-- A STOP on driven lines leaves RX with no frame open, or unspecified for good. -/
theorem foldl_emit_stop (c : Config) (x : Pins × Rx) (h1 : x.1.oeScl = true)
    (h2 : x.1.oeSda = true) (hp : x.2.prev = x.1.wire) :
    (endEvents.foldl (emit c) x).2.lost = true ∨
      (endEvents.foldl (emit c) x).2.regs.phase = .idle := by
  obtain ⟨y, -, e⟩ := foldl_emit_end c x h1 h2 hp
  rw [e]
  exact Rx.react_stop _ c

/-- A STOP on driven lines brings an RX that a stopped operation left at any value to idle, in the
addressing mode it had (R168, U14). -/
theorem foldl_emit_end_adrift (c : Config) (x : Pins × Rx) (h1 : x.1.oeScl = true)
    (h2 : x.1.oeSda = true) (hp : x.2.prev = x.1.wire) (hu : x.2.unspecified = true)
    (ht : x.2.untilStop = true) :
    ∃ y : Rx, (endEvents.foldl (emit c) x).2 = y.recover c ∧ y.prev = LineState.idle ∧
      y.regs.addrMode = x.2.regs.addrMode := by
  obtain ⟨⟨a, b, oc, od⟩, r⟩ := x
  simp only at h1 h2 hp hu ht
  subst h1; subst h2
  cases a <;> cases b <;> simp only [Pins.wire, levelOf, if_true] at hp <;>
    simp [endEvents, emit, Pins.wire, levelOf, Rx.observe, hp, LineState.driven, classify, Rx.react,
      hu, Rx.wander, ht] <;>
    exact ⟨_, rfl, rfl, rfl⟩

end Machine

end Sys2Proof
end

