-- ==== Sys2Proof/Laws/Display.lean ====
section
/-!
SUPPORT. What a frame does to the display: the three bytes of a position command set the cursor
(R153), a run of pixel bytes fills consecutive columns of the page (R155), and both leave RX ready
for the next operation (R135).
-/

namespace Sys2Proof

namespace Machine

open Safety

theorem sameDisplay_refl (g : RxRegs) : sameDisplay g g := rfl

theorem sameDisplay_trans {g h k : RxRegs} (h1 : sameDisplay g h) (h2 : sameDisplay h k) :
    sameDisplay g k := by
  unfold sameDisplay at *
  rw [h2] at h1
  exact h1

@[simp] theorem sameDisplay_decoder (r : Rx) (q : LineState) (ph : RxPhase) (sh : Byte)
    (sl : Fin 9) : sameDisplay (r.decoder q ph sh sl).regs r.regs := rfl

/-! ### A command byte that is a complete command -/

theorem commandByte_complete {r : Rx} {c : Config} {op : Byte} {k : CtrlOp}
    (hp : r.regs.pending = none) (hk : c.ops.find op = some k) (ha : k.takesArg = false) :
    r.commandByte c op = r.apply (k.instr op 0) := by
  simp [Rx.commandByte, hp, hk, ha]

theorem commandByte_opens {r : Rx} {c : Config} {op : Byte} {k : CtrlOp}
    (hp : r.regs.pending = none) (hk : c.ops.find op = some k) (ha : k.takesArg = true) :
    r.commandByte c op = r.update fun g => { g with pending := some op } := by
  simp [Rx.commandByte, hp, hk, ha]

theorem commandByte_argument {r : Rx} {c : Config} {op v : Byte} {k : CtrlOp}
    (hp : r.regs.pending = some op) (hk : c.ops.find op = some k) :
    r.commandByte c v = (r.update fun g => { g with pending := none }).apply (k.instr op v) := by
  simp [Rx.commandByte, hp, hk]

/-! ### The position command -/

theorem column_nibbles : ∀ col : Fin 128,
    ((BitVec.ofNat 4 (col.val / 16)).extractLsb' 0 3 ++ BitVec.ofNat 4 (col.val % 16) : BitVec 7) =
      BitVec.ofNat 7 col.val := by decide

/-- R151 to R153: after the bytes of a position command the cursor is the position. -/
theorem position_commands {r : Rx} {c : Config} {row col : Nat} (hw : c.ops.wf = true)
    (hp : r.regs.pending = none) (hm : r.regs.addrMode = 2) (hr : row < 8) (hc : col < 128) :
    r.commands c (positionBytes c.ops row col) = r.update fun g =>
      { g with page := BitVec.ofNat 3 row, col := BitVec.ofNat 7 col, overflowed := false } := by
  have e1 : c.ops.setpage ||| BitVec.ofNat 8 row =
      c.ops.setpage ||| (BitVec.ofNat 3 row).setWidth 8 := by
    congr 1
    apply BitVec.eq_of_toNat_eq
    simp only [BitVec.toNat_ofNat, BitVec.toNat_setWidth]
    omega
  have e2 : c.ops.setcolhi ||| BitVec.ofNat 8 (col / 16) =
      c.ops.setcolhi ||| (BitVec.ofNat 4 (col / 16)).setWidth 8 := by
    congr 1
    apply BitVec.eq_of_toNat_eq
    simp only [BitVec.toNat_ofNat, BitVec.toNat_setWidth]
    omega
  have e3 : c.ops.setcollo ||| BitVec.ofNat 8 (col % 16) =
      c.ops.setcollo ||| (BitVec.ofNat 4 (col % 16)).setWidth 8 := by
    congr 1
    apply BitVec.eq_of_toNat_eq
    simp only [BitVec.toNat_ofNat, BitVec.toNat_setWidth]
    omega
  have f1 := OpTable.find_val_or hw .setpage (page_and (BitVec.ofNat 3 row))
  have f2 := OpTable.find_val_or hw .setcolhi (low4_and (BitVec.ofNat 4 (col / 16)))
  have f3 := OpTable.find_val_or hw .setcollo (low4_and (BitVec.ofNat 4 (col % 16)))
  have o1 := setpage_operand hw (BitVec.ofNat 3 row)
  have o2 := setcolhi_operand hw (BitVec.ofNat 4 (col / 16))
  have o3 := setcollo_operand hw (BitVec.ofNat 4 (col % 16))
  simp only [OpTable.val] at f1 f2 f3
  simp only [positionBytes, e1, e2, e3, Rx.commands_cons, Rx.commands_nil]
  rw [commandByte_complete hp f1 rfl]
  simp only [CtrlOp.instr, o1]
  have s1 : r.apply (.setpage (BitVec.ofNat 3 row)) =
      r.update fun g => { g with page := BitVec.ofNat 3 row } := by
    simp [Rx.apply, Rx.doSetpage, Rx.setPage, Rx.pageMode, hm]
  rw [s1, commandByte_complete (by exact hp) f2 rfl]
  simp only [CtrlOp.instr, o2]
  rw [show ∀ x : Rx, x.regs.addrMode = 2 → x.apply (.setcolhi (BitVec.ofNat 4 (col / 16))) =
      x.update fun g => { g with
        col := (BitVec.ofNat 4 (col / 16)).extractLsb' 0 3 ++ g.col.extractLsb' 0 4
        overflowed := false } from fun x hx => by
    simp [Rx.apply, Rx.doSetcolhi, Rx.setColHigh, Rx.pageMode, hx]]
  · rw [commandByte_complete (by exact hp) f3 rfl]
    simp only [CtrlOp.instr, o3]
    rw [show ∀ x : Rx, x.regs.addrMode = 2 → x.apply (.setcollo (BitVec.ofNat 4 (col % 16))) =
        x.update fun g => { g with
          col := g.col.extractLsb' 4 3 ++ BitVec.ofNat 4 (col % 16), overflowed := false }
        from fun x hx => by
      simp [Rx.apply, Rx.doSetcollo, Rx.setColLow, Rx.pageMode, hx]]
    · have ec : ∀ q : BitVec 7,
          (((BitVec.ofNat 4 (col / 16)).extractLsb' 0 3 ++ q.extractLsb' 0 4 :
            BitVec 7).extractLsb' 4 3 ++ BitVec.ofNat 4 (col % 16) : BitVec 7) =
            BitVec.ofNat 7 col := by
        intro q
        rw [show ∀ (x : BitVec 3) (y : BitVec 4), (x ++ y).extractLsb' 4 3 = x by decide]
        exact column_nibbles ⟨col, hc⟩
      simp only [Rx.update]
      rw [← ec r.regs.col]
    · exact hm
  · exact hm

/-! ### A run of pixel bytes -/

/-- The advance of the column pointer changes nothing but it and the overflow mark. -/
theorem advanceCol_others (o : ColOverflow) (g : RxRegs) :
    advanceCol o g =
      { g with col := (advanceCol o g).col, overflowed := (advanceCol o g).overflowed } := by
  simp only [advanceCol]
  split
  · rfl
  · cases o <;> rfl

theorem colAfter_of_lt {o : ColOverflow} {e : Nat} (h : e < 128) :
    colAfter o e = BitVec.ofNat 7 e := by
  simp [colAfter, numCols, h]

/-- R156: the overflow mark after a write run whose last column is `e - 1`. -/
def markAfter (o : ColOverflow) (e : Nat) : Bool := e == numCols && o == .discard

theorem markAfter_of_lt {o : ColOverflow} {e : Nat} (h : e < 128) : markAfter o e = false := by
  have : ¬ e = numCols := by simp only [numCols]; omega
  simp [markAfter, this]

theorem markAfter_iff {o : ColOverflow} {e : Nat} :
    markAfter o e = true ↔ e = numCols ∧ o = .discard := by
  simp [markAfter]

/-- The bytes `vs` on page `p0` from column `c0` on. -/
def runAt (p0 : BitVec 3) (c0 : Nat) (vs : List Byte) (p : BitVec 3) (q : BitVec 7) : Option Byte :=
  if p = p0 ∧ c0 ≤ q.toNat then vs[q.toNat - c0]? else none

/-- R155: a data byte with the mark clear. -/
theorem dataByte_run {o : ColOverflow} {r : Rx} {v : Byte} (hm : r.regs.addrMode = 2)
    (ho : r.regs.overflowed = false) :
    r.dataByte o v = (r.writeRam r.regs.page r.regs.col v).update (advanceCol o) := by
  simp [Rx.dataByte, Rx.pageMode, hm, ho]

/-- R155, R156: what a run of data bytes that stays on its page does to RX. -/
theorem datas_run (o : ColOverflow) (vs : List Byte) (r : Rx) (hm : r.regs.addrMode = 2)
    (ho : vs ≠ [] → r.regs.overflowed = false) (hn : r.regs.col.toNat + vs.length ≤ 128)
    (hw : Memory.wf .disp r.ram = true) :
    (r.datas o vs).regs = { r.regs with
      col := if vs = [] then r.regs.col else colAfter o (r.regs.col.toNat + vs.length)
      overflowed :=
        if vs = [] then r.regs.overflowed else markAfter o (r.regs.col.toNat + vs.length) } ∧
    Memory.wf .disp (r.datas o vs).ram = true ∧ (r.datas o vs).prev = r.prev ∧
    ∀ p q, (r.datas o vs).ramByte p q =
      (runAt r.regs.page r.regs.col.toNat vs p q).getD (r.ramByte p q) := by
  induction vs generalizing r with
  | nil =>
    refine ⟨rfl, hw, rfl, fun p q => ?_⟩
    simp [runAt]
  | cons v vs ih =>
    have ho' := ho (by simp)
    simp only [List.length_cons] at hn
    have e := dataByte_run (v := v) (o := o) hm ho'
    have hw' : Memory.wf .disp (r.dataByte o v).ram = true := by
      rw [e]; exact Memory.write_wf v hw (dispKey_lt _ _)
    have hrd : ∀ p q, (r.dataByte o v).ramByte p q =
        if p = r.regs.page ∧ q = r.regs.col then v else r.ramByte p q := by
      intro p q
      rw [e, Rx.update_ramByte, Rx.writeRam_ramByte hw]
    have hpv : (r.dataByte o v).prev = r.prev := by rw [e]; rfl
    have hq1 : ∀ q : BitVec 7, q = r.regs.col ↔ q.toNat = r.regs.col.toNat := fun q =>
      ⟨fun h => by rw [h], fun h => BitVec.eq_of_toNat_eq h⟩
    rw [Rx.datas_cons]
    by_cases hl : r.regs.col.toNat < 127
    · have hc : (r.regs.col + 1).toNat = r.regs.col.toNat + 1 := by bv_omega
      have e2 : (r.dataByte o v).regs = { r.regs with col := r.regs.col + 1 } := by
        rw [e]; simp [advanceCol, hl]
      obtain ⟨i1, i3, i4, i5⟩ := ih (r.dataByte o v) (by rw [e2]; exact hm)
        (fun _ => by rw [e2]; exact ho') (by rw [e2]; simp only [hc]; omega) hw'
      refine ⟨?_, i3, i4.trans hpv, ?_⟩
      · rw [i1, e2]
        simp only [hc, List.length_cons]
        rw [show r.regs.col.toNat + 1 + vs.length = r.regs.col.toNat + (vs.length + 1) by omega]
        by_cases hv : vs = []
        · subst hv
          have : colAfter o (r.regs.col.toNat + 1) = r.regs.col + 1 := by
            rw [colAfter_of_lt (by omega)]
            apply BitVec.eq_of_toNat_eq
            rw [hc, BitVec.toNat_ofNat]
            omega
          simp [this, ho', markAfter_of_lt (show r.regs.col.toNat + 1 < 128 by omega)]
        · simp [hv]
      · intro p q
        rw [i5 p q, hrd p q, e2]
        simp only [runAt, hc, hq1]
        by_cases hp : p = r.regs.page
        · by_cases hq : q.toNat = r.regs.col.toNat
          · simp [hp, hq]
          · by_cases hq2 : r.regs.col.toNat + 1 ≤ q.toNat
            · rw [if_pos ⟨hp, hq2⟩, if_neg (fun h => hq h.2), if_pos ⟨hp, by omega⟩,
                show q.toNat - r.regs.col.toNat = q.toNat - (r.regs.col.toNat + 1) + 1 by omega,
                List.getElem?_cons_succ]
            · rw [if_neg (fun h => hq2 h.2), if_neg (fun h => hq h.2),
                if_neg (fun h => hq (by omega))]
        · simp [hp]
    · have hv : vs = [] := by
        apply List.eq_nil_of_length_eq_zero
        omega
      subst hv
      have h127 : r.regs.col.toNat = 127 := by
        have := r.regs.col.isLt
        omega
      have hcol : r.regs.col = 127 := BitVec.eq_of_toNat_eq h127
      rw [Rx.datas_nil]
      refine ⟨?_, hw', hpv, ?_⟩
      · rw [e]
        simp only [Rx.update_regs, Rx.writeRam_regs, advanceCol, hl, if_false]
        cases o <;> (apply RxRegs.ext <;> simp [colAfter, markAfter, numCols, ho', hcol])
      · intro p q
        rw [hrd p q]
        have hlt := q.isLt
        simp only [runAt, hq1]
        by_cases hin : p = r.regs.page ∧ q.toNat = r.regs.col.toNat
        · rw [if_pos hin, if_pos ⟨hin.1, by omega⟩, hin.2]
          simp
        · rw [if_neg hin, if_neg]
          · rfl
          · rintro ⟨h1, h2⟩
            exact hin ⟨h1, by omega⟩

end Machine

end Sys2Proof
end

