-- ==== Sys2Proof/Laws/Drawing.lean ====
section
/-!
SUPPORT. What whole frames do at an RX that is ready (R135): a command frame, the position frame, a
data frame, and then rows and rectangles of them, one after the other.
-/

namespace Sys2Proof

theorem devAddr_eq_rxAddr {c : Config} (h : c.strap = c.rxStrap) : c.devAddr = c.rxAddr := by
  simp [Config.devAddr, Config.rxAddr, h]

section WellFormedConfig
variable {c : Config} (h : c.wf = true)
include h

theorem Config.wf_addr : c.addrOk = true := by
  simp only [Config.wf, Bool.and_eq_true] at h; exact h.1.1.1
theorem Config.wf_ctrl : c.ctrlOk = true := by
  simp only [Config.wf, Bool.and_eq_true] at h; exact h.1.1.2
theorem Config.wf_fonts : c.fontsOk = true := by
  simp only [Config.wf, Bool.and_eq_true] at h; exact h.1.2
theorem Config.wf_ops : c.ops.wf = true := by
  simp only [Config.wf, Bool.and_eq_true] at h; exact h.2

end WellFormedConfig

namespace Safety

open Machine

section Ready
variable {s : State}

/-- A command frame at an addressed RX with no frame open runs its payload's command bytes, the lines
driven at any level before it. -/
theorem commandFrame_rx (vs : List Byte) (a b : Bool) (hk : s.cfg.ctrlOk = true)
    (hs : s.cfg.strap = s.cfg.rxStrap) (hpins : s.pins = ⟨a, b, true, true⟩)
    (hp : s.rx.regs.phase = .idle) (hw : s.rx.prev = s.pins.wire)
    (h : (s.rx.commands s.cfg vs).unspecified = false)
    (hc : s.cfg.pendingSurvives = true ∨ (s.rx.commands s.cfg vs).regs.pending = none) :
    ∃ sh, (s.perform (commandFrame s.cfg vs)).rx =
      (s.rx.commands s.cfg vs).decoder LineState.idle .idle sh 0 := by
  obtain ⟨sh, e⟩ := commandFrame_commands vs a b hk (devAddr_eq_rxAddr hs) hp
    (by rw [hw, hpins]) h hc
  exact ⟨sh, by rw [State.perform_rx, hpins, e]⟩

/-- A command frame at a listening RX runs its payload's command bytes. -/
theorem Listening.commandFrame_rx (h : Listening s) (vs : List Byte)
    (hu : (s.rx.commands s.cfg vs).unspecified = false)
    (hp : s.cfg.pendingSurvives = true ∨ (s.rx.commands s.cfg vs).regs.pending = none) :
    ∃ sh, (s.perform (commandFrame s.cfg vs)).rx =
      (s.rx.commands s.cfg vs).decoder LineState.idle .idle sh 0 :=
  Safety.commandFrame_rx vs true true (Config.wf_ctrl h.cfg) h.addressed h.pins h.phase
    (by rw [h.seen, h.pins]; rfl) hu hp

/-- A data frame at a ready RX writes its pixel bytes. -/
theorem Ready.pixelFrame_rx (h : Ready s) (vs : List Byte) :
    ∃ sh, (s.perform (pixelFrame s.cfg s.dinv vs)).rx =
      (s.rx.datas s.cfg.colOverflow (vs.map (pixelByte s.dinv))).decoder
        LineState.idle .idle sh 0 := by
  obtain ⟨sh, e⟩ := pixelFrame_datas s.dinv vs true true (Config.wf_ctrl h.cfg)
    (devAddr_eq_rxAddr h.addressed) h.specified h.phase h.seen
  refine ⟨sh, ?_⟩
  have e' := congrArg Prod.snd e
  simp only [State.perform, h.pins, Pins.idle]
  exact e'

/-- A frame that leaves RX specified and with nothing pending leaves it listening. -/
theorem Listening.after_frame (h : Listening s) {es : List Event} {r : Rx} {sh : Byte}
    (hx : (s.perform es).rx = r.decoder LineState.idle .idle sh 0)
    (hpins : s.pins.applyAll es = Pins.idle) (hw : Memory.wf .disp r.ram = true)
    (hu : r.unspecified = false) (hp : r.regs.pending = none) : Listening (s.perform es) where
  cfg := h.cfg
  addressed := h.addressed
  pins := by rw [State.perform_pins, hpins]
  seen := by rw [hx]; rfl
  ram := by rw [hx]; exact hw
  specified := by rw [hx]; exact hu
  phase := by rw [hx]; rfl
  pending := by rw [hx]; exact hp

theorem Listening.idle_frame (h : Listening s) (bytes : List Byte) :
    s.pins.applyAll (frame bytes) = Pins.idle := by
  rw [h.pins, applyAll_frame]; rfl

/-- A command frame whose commands leave RAM and `PENDING` as a listening RX has them leaves RX
listening, with the registers those commands give. -/
theorem Listening.command (h : Listening s) {vs : List Byte} {r : Rx}
    (e : s.rx.commands s.cfg vs = r) (hram : r.ram = s.rx.ram) (hdraw : r.ramDraw = s.rx.ramDraw)
    (hu : r.unspecified = false) (hp : r.regs.pending = none) :
    Listening (s.perform (commandFrame s.cfg vs)) ∧
    (∀ p q, (s.perform (commandFrame s.cfg vs)).ram p q = s.ram p q) ∧
    sameDisplay (s.perform (commandFrame s.cfg vs)).rx.regs r.regs := by
  subst e
  obtain ⟨sh, hx⟩ := h.commandFrame_rx vs hu (.inr hp)
  refine ⟨h.after_frame hx (by rw [commandFrame_frame]; exact h.idle_frame _)
    (by rw [hram]; exact h.ram) hu hp, ?_, ?_⟩
  · intro p q
    simp only [State.ram]
    rw [hx, Rx.decoder_ramByte, Rx.ramByte_of_eq hram hdraw]
  · rw [hx]
    rfl

/-- In the registers of a display the addressing mode is one. -/
theorem addrMode_of_sameDisplay {g k : RxRegs} (h : sameDisplay g k) : g.addrMode = k.addrMode := by
  unfold sameDisplay at h
  rw [h]

/-- So is a ready RX left ready, where the commands leave it in page addressing mode. -/
theorem Ready.command (h : Ready s) {vs : List Byte} {r : Rx}
    (e : s.rx.commands s.cfg vs = r) (hram : r.ram = s.rx.ram) (hdraw : r.ramDraw = s.rx.ramDraw)
    (hu : r.unspecified = false) (hp : r.regs.pending = none) (hm : r.regs.addrMode = 2) :
    Ready (s.perform (commandFrame s.cfg vs)) ∧
    (∀ p q, (s.perform (commandFrame s.cfg vs)).ram p q = s.ram p q) ∧
    sameDisplay (s.perform (commandFrame s.cfg vs)).rx.regs r.regs := by
  obtain ⟨h1, h2, h3⟩ := h.toListening.command e hram hdraw hu hp
  exact ⟨⟨h1, (addrMode_of_sameDisplay h3).trans hm⟩, h2, h3⟩

end Ready

/-! ### Drawing -/

/-- From a ready RX to a ready RX: the bytes `f` gives are in the display RAM, every other byte is
as before, and only the cursor and the wire decoder have changed beside them. -/
structure Wrote (s t : State) (f : BitVec 3 → BitVec 7 → Option Byte) : Prop where
  ready : Ready t
  ram : ∀ p q, t.ram p q = (f p q).getD (s.ram p q)
  others : sameDisplay t.rx.regs
    { s.rx.regs with
      page := t.rx.regs.page, col := t.rx.regs.col, overflowed := t.rx.regs.overflowed }
  cfg : t.cfg = s.cfg
  dinv : t.dinv = s.dinv
  ps : t.ps = s.ps

theorem Wrote.refl {s : State} (h : Ready s) : Wrote s s fun _ _ => none :=
  ⟨h, fun _ _ => rfl, rfl, rfl, rfl, rfl⟩

theorem Wrote.trans {s t u : State} {f g : BitVec 3 → BitVec 7 → Option Byte} (h : Wrote s t f)
    (h' : Wrote t u g) : Wrote s u fun p q => (g p q).or (f p q) where
  ready := h'.ready
  ram p q := by rw [h'.ram, h.ram]; cases g p q <;> rfl
  others := by
    have e1 := h'.others
    have e2 := h.others
    unfold sameDisplay at *
    rw [e1, e2]
  cfg := h'.cfg.trans h.cfg
  dinv := h'.dinv.trans h.dinv
  ps := h'.ps.trans h.ps

theorem Wrote.congr {s t : State} {f g : BitVec 3 → BitVec 7 → Option Byte} (h : Wrote s t f)
    (e : ∀ p q, f p q = g p q) : Wrote s t g := by
  have : f = g := funext fun p => funext fun q => e p q
  exact this ▸ h

/-- R103, R135: the position frame of a valid position sets the cursor and nothing else. -/
theorem Ready.setpos {s : State} (h : Ready s) {row col : Nat} (hr : row < 8) (hc : col < 128) :
    Wrote s (s.perform (setposEvents s.cfg row col)) (fun _ _ => none) ∧
    sameDisplay (s.perform (setposEvents s.cfg row col)).rx.regs
      { s.rx.regs with
        page := BitVec.ofNat 3 row, col := BitVec.ofNat 7 col, overflowed := false } := by
  have hv : setposEvents s.cfg row col = commandFrame s.cfg (positionBytes s.cfg.ops row col) := by
    simp [setposEvents, validPos, numRows, numCols, hr, hc]
  have e := position_commands (Config.wf_ops h.cfg) h.pending h.pageMode hr hc
  rw [hv]
  obtain ⟨hR, hram, hs⟩ := h.command e rfl rfl h.specified h.pending h.pageMode
  have hs' : sameDisplay (s.perform (commandFrame s.cfg (positionBytes s.cfg.ops row col))).rx.regs
      { s.rx.regs with
        page := BitVec.ofNat 3 row, col := BitVec.ofNat 7 col, overflowed := false } := hs
  refine ⟨⟨hR, hram, ?_, rfl, rfl, rfl⟩, hs'⟩
  unfold sameDisplay at hs' ⊢
  rw [hs']

/-- R135, R155: a data frame that stays on its page fills consecutive columns from the cursor on. -/
theorem Ready.pixels {s : State} (h : Ready s) {vs : List Byte}
    (ho : vs ≠ [] → s.rx.regs.overflowed = false) (hn : s.rx.regs.col.toNat + vs.length ≤ 128) :
    Wrote s (s.perform (pixelFrame s.cfg s.dinv vs))
      (runAt s.rx.regs.page s.rx.regs.col.toNat (vs.map (pixelByte s.dinv))) ∧
    (s.perform (pixelFrame s.cfg s.dinv vs)).rx.regs.page = s.rx.regs.page ∧
    (s.perform (pixelFrame s.cfg s.dinv vs)).rx.regs.col =
      (if vs = [] then s.rx.regs.col
        else colAfter s.cfg.colOverflow (s.rx.regs.col.toNat + vs.length)) ∧
    (s.perform (pixelFrame s.cfg s.dinv vs)).rx.regs.overflowed =
      if vs = [] then s.rx.regs.overflowed
        else markAfter s.cfg.colOverflow (s.rx.regs.col.toNat + vs.length) := by
  obtain ⟨sh, hx⟩ := h.pixelFrame_rx vs
  obtain ⟨i1, i3, i4, i5⟩ := datas_run s.cfg.colOverflow (vs.map (pixelByte s.dinv)) s.rx
    h.pageMode (fun hne => ho (by simpa using hne)) (by simpa using hn) h.ram
  have hL := h.after_frame hx (by rw [pixelFrame_frame]; exact h.idle_frame _) i3
    (by rw [Rx.datas_unspecified]; exact h.specified) (by rw [i1]; exact h.pending)
  have hR : Ready (s.perform (pixelFrame s.cfg s.dinv vs)) :=
    ⟨hL, by rw [hx, Rx.decoder_addrMode, i1]; exact h.pageMode⟩
  refine ⟨⟨hR, fun p q => ?_, ?_, rfl, rfl, rfl⟩, ?_, ?_, ?_⟩
  · simp only [State.ram]
    rw [hx, Rx.decoder_ramByte, i5 p q]
  · rw [hx]
    unfold sameDisplay
    simp only [Rx.decoder]
    rw [i1]
  · rw [hx, Rx.decoder_page, i1]
  · rw [hx, Rx.decoder_col, i1]
    simp
  · rw [hx, Rx.decoder_overflowed, i1]
    simp

/-! ### Rows, rectangles, text -/

/-- R125: when a clipped rectangle is empty. -/
theorem emptyRect_iff (srow scol rows cols : Byte) : emptyRect srow scol rows cols = true ↔
    8 ≤ srow.toNat ∨ 128 ≤ scol.toNat ∨ rows = 0 ∨ cols = 0 := by
  have e : ∀ v : Byte, v = 0 ↔ v.toNat = 0 := fun v =>
    ⟨fun h => by rw [h]; rfl, fun h => BitVec.eq_of_toNat_eq h⟩
  rw [e rows, e cols]
  unfold emptyRect clipEnd
  generalize rows.toNat = x
  generalize cols.toNat = y
  generalize srow.toNat = a
  generalize scol.toNat = b
  simp [numRows, numCols]
  omega

theorem toNat_page {row : Nat} (h : row < 8) : (BitVec.ofNat 3 row).toNat = row := by
  rw [BitVec.toNat_ofNat]; omega

theorem toNat_col {col : Nat} (h : col < 128) : (BitVec.ofNat 7 col).toNat = col := by
  rw [BitVec.toNat_ofNat]; omega

theorem eq_page {row : Nat} (h : row < 8) (p : BitVec 3) :
    p = BitVec.ofNat 3 row ↔ p.toNat = row := by
  constructor
  · rintro rfl; exact toNat_page h
  · intro hp; exact BitVec.eq_of_toNat_eq (by rw [toNat_page h, hp])

theorem toNat_pos {v : Byte} (h : v ≠ 0) : 0 < v.toNat := by
  rcases Nat.eq_zero_or_pos v.toNat with e | e
  · exact absurd (BitVec.eq_of_toNat_eq e) h
  · exact e

theorem not_emptyRect {srow scol rows cols : Byte} (h1 : srow.toNat < 8) (h2 : scol.toNat < 128)
    (h3 : rows ≠ 0) (h4 : cols ≠ 0) : ¬ emptyRect srow scol rows cols = true := by
  rw [emptyRect_iff]
  rintro (h | h | h | h)
  · omega
  · omega
  · exact h3 h
  · exact h4 h

/-- The fields a position command leaves. -/
theorem setpos_fields {s : State} (h : Ready s) {row col : Nat} (hr : row < 8) (hc : col < 128) :
    (s.perform (setposEvents s.cfg row col)).rx.regs.page = BitVec.ofNat 3 row ∧
    (s.perform (setposEvents s.cfg row col)).rx.regs.col = BitVec.ofNat 7 col ∧
    (s.perform (setposEvents s.cfg row col)).rx.regs.overflowed = false := by
  have e := (h.setpos hr hc).2
  unfold sameDisplay at e
  rw [e]
  exact ⟨rfl, rfl, rfl⟩

/-- A position frame and one data frame: one row of a rectangle. -/
theorem Ready.row {s : State} (h : Ready s) {row col : Nat} {vs : List Byte} (hr : row < 8)
    (hc : col < 128) (hn : col + vs.length ≤ 128) (hv : vs ≠ []) :
    Wrote s (s.perform (setposEvents s.cfg row col ++ pixelFrame s.cfg s.dinv vs))
      (runAt (BitVec.ofNat 3 row) col (vs.map (pixelByte s.dinv))) ∧
    (s.perform (setposEvents s.cfg row col ++ pixelFrame s.cfg s.dinv vs)).rx.regs.page =
      BitVec.ofNat 3 row ∧
    (s.perform (setposEvents s.cfg row col ++ pixelFrame s.cfg s.dinv vs)).rx.regs.col =
      colAfter s.cfg.colOverflow (col + vs.length) ∧
    (s.perform (setposEvents s.cfg row col ++ pixelFrame s.cfg s.dinv vs)).rx.regs.overflowed =
      markAfter s.cfg.colOverflow (col + vs.length) := by
  obtain ⟨w1, -⟩ := h.setpos hr hc
  obtain ⟨f1, f2, f3⟩ := setpos_fields h hr hc
  rw [State.perform_append]
  have hcol : (s.perform (setposEvents s.cfg row col)).rx.regs.col.toNat = col := by
    rw [f2, toNat_col hc]
  obtain ⟨w2, g1, g2, g3⟩ := w1.ready.pixels (vs := vs) (fun _ => f3) (by rw [hcol]; exact hn)
  simp only [State.perform_cfg, State.perform_dinv] at w2 g1 g2 g3
  rw [f1, hcol] at w2
  refine ⟨(w1.trans w2).congr fun p q => Option.or_none, by rw [g1, f1], ?_, ?_⟩
  · rw [g2, if_neg hv, hcol]
  · rw [g3, if_neg hv, hcol]

/-- The bytes of a rectangle of `height` rows and `width` columns at (`r0`, `c0`). -/
def rectAt (r0 height c0 width : Nat) (byte : Nat → Nat → Byte) (p : BitVec 3) (q : BitVec 7) :
    Option Byte :=
  if (r0 ≤ p.toNat ∧ p.toNat < r0 + height) ∧ c0 ≤ q.toNat ∧ q.toNat < c0 + width then
    some (byte (p.toNat - r0) (q.toNat - c0))
  else none

/-- R135: a rectangle drawn row by row. -/
theorem Ready.rect {s : State} (h : Ready s) (r0 height c0 width : Nat)
    (byte : Nat → Nat → Byte) (hr : r0 + height ≤ 8) (hc : c0 + width ≤ 128) (hw : 0 < width)
    (hh : 0 < height) :
    Wrote s (s.perform (rectEvents s.cfg s.dinv r0 c0 height fun i =>
        (List.range width).map (byte i)))
      (rectAt r0 height c0 width fun i j => pixelByte s.dinv (byte i j)) ∧
    (s.perform (rectEvents s.cfg s.dinv r0 c0 height fun i =>
        (List.range width).map (byte i))).rx.regs.page.toNat + 1 = r0 + height ∧
    (s.perform (rectEvents s.cfg s.dinv r0 c0 height fun i =>
        (List.range width).map (byte i))).rx.regs.col =
      colAfter s.cfg.colOverflow (c0 + width) ∧
    (s.perform (rectEvents s.cfg s.dinv r0 c0 height fun i =>
        (List.range width).map (byte i))).rx.regs.overflowed =
      markAfter s.cfg.colOverflow (c0 + width) := by
  have hlast : ∀ n, r0 + (n + 1) ≤ 8 → ∀ t : State, Ready t → t.cfg = s.cfg → t.dinv = s.dinv →
      Wrote t (t.perform (setposEvents t.cfg (r0 + n) c0 ++
          pixelFrame t.cfg t.dinv ((List.range width).map (byte n))))
        (fun p q => if p.toNat = r0 + n ∧ c0 ≤ q.toNat ∧ q.toNat < c0 + width then
          some (pixelByte s.dinv (byte n (q.toNat - c0))) else none) ∧
      (t.perform (setposEvents t.cfg (r0 + n) c0 ++
          pixelFrame t.cfg t.dinv ((List.range width).map (byte n)))).rx.regs.page =
        BitVec.ofNat 3 (r0 + n) ∧
      (t.perform (setposEvents t.cfg (r0 + n) c0 ++
          pixelFrame t.cfg t.dinv ((List.range width).map (byte n)))).rx.regs.col =
        colAfter s.cfg.colOverflow (c0 + width) ∧
      (t.perform (setposEvents t.cfg (r0 + n) c0 ++
          pixelFrame t.cfg t.dinv ((List.range width).map (byte n)))).rx.regs.overflowed =
        markAfter s.cfg.colOverflow (c0 + width) := by
    intro n hn t ht hcfg hd
    have hlt : r0 + n < 8 := by omega
    obtain ⟨w, g1, g2, g3⟩ := ht.row (row := r0 + n) (col := c0)
      (vs := (List.range width).map (byte n)) hlt (by omega)
      (by simpa using hc) (by simp; omega)
    refine ⟨w.congr fun p q => ?_, g1, ?_, by rw [g3, hcfg]; simp⟩
    · simp only [runAt, eq_page hlt, List.map_map, hd]
      by_cases hin : p.toNat = r0 + n ∧ c0 ≤ q.toNat
      · rw [if_pos hin]
        by_cases hq : q.toNat < c0 + width
        · rw [if_pos ⟨hin.1, hin.2, hq⟩, List.getElem?_eq_getElem (by simp; omega)]
          simp
        · rw [if_neg (fun hh => hq hh.2.2), List.getElem?_eq_none (by simp; omega)]
      · rw [if_neg hin, if_neg (fun hh => hin ⟨hh.1, hh.2.1⟩)]
    · rw [g2, hcfg]; simp
  induction height with
  | zero => omega
  | succ n ih =>
    simp only [rectEvents, List.range_succ, List.flatMap_append, List.flatMap_cons,
      List.flatMap_nil, List.append_nil]
    rw [State.perform_append]
    by_cases hn : n = 0
    · subst hn
      obtain ⟨w, g1, g2, g3⟩ := hlast 0 hr s h rfl rfl
      simp only [List.range_zero, List.flatMap_nil, State.perform_nil]
      refine ⟨w.congr fun p q => ?_, ?_, g2, g3⟩
      · simp only [rectAt]
        by_cases hin : p.toNat = r0 + 0 ∧ c0 ≤ q.toNat ∧ q.toNat < c0 + width
        · rw [if_pos hin, if_pos ⟨by omega, hin.2⟩, show p.toNat - r0 = 0 by omega]
        · rw [if_neg hin, if_neg (fun hh => hin ⟨by omega, hh.2⟩)]
      · rw [g1, toNat_page (by omega)]
    · obtain ⟨w, g1, -, -⟩ := ih (by omega) (by omega)
      simp only [rectEvents] at w g1
      obtain ⟨w', g1', g2', g3'⟩ := hlast n hr _ w.ready w.cfg w.dinv
      simp only [State.perform_cfg, State.perform_dinv] at w' g1' g2' g3'
      refine ⟨(w.trans w').congr fun p q => ?_, ?_, g2', g3'⟩
      · simp only [rectAt]
        by_cases hc1 : c0 ≤ q.toNat ∧ q.toNat < c0 + width
        · by_cases hp : p.toNat = r0 + n
          · rw [if_pos ⟨hp, hc1⟩, Option.some_or, if_pos ⟨by omega, hc1⟩,
              show p.toNat - r0 = n by omega]
          · rw [if_neg (fun hh => hp hh.1)]
            by_cases hp2 : r0 ≤ p.toNat ∧ p.toNat < r0 + n
            · rw [if_pos ⟨hp2, hc1⟩, if_pos ⟨by omega, hc1⟩]; rfl
            · rw [if_neg (fun hh => hp2 hh.1), if_neg (fun hh => hp2 (by omega))]; rfl
        · rw [if_neg (fun hh => hc1 hh.2), if_neg (fun hh => hc1 hh.2),
            if_neg (fun hh => hc1 hh.2)]
          rfl
      · rw [g1', toNat_page (by omega)]; omega

/-- R118, R121: data frames of `width` bytes each, one after the other, from the cursor on. -/
theorem Ready.glyphs (gs : List (List Byte)) {s : State} (h : Ready s) {width : Nat}
    (hw : 0 < width) (hg : ∀ g ∈ gs, g.length = width)
    (ho : gs ≠ [] → s.rx.regs.overflowed = false)
    (hn : s.rx.regs.col.toNat + width * gs.length ≤ 128) :
    Wrote s (s.perform (gs.flatMap (pixelFrame s.cfg s.dinv)))
      (runAt s.rx.regs.page s.rx.regs.col.toNat (gs.flatten.map (pixelByte s.dinv))) ∧
    (s.perform (gs.flatMap (pixelFrame s.cfg s.dinv))).rx.regs.page = s.rx.regs.page ∧
    (s.perform (gs.flatMap (pixelFrame s.cfg s.dinv))).rx.regs.col =
      (if gs = [] then s.rx.regs.col
        else colAfter s.cfg.colOverflow (s.rx.regs.col.toNat + width * gs.length)) ∧
    (s.perform (gs.flatMap (pixelFrame s.cfg s.dinv))).rx.regs.overflowed =
      (if gs = [] then s.rx.regs.overflowed
        else markAfter s.cfg.colOverflow (s.rx.regs.col.toNat + width * gs.length)) := by
  induction gs generalizing s with
  | nil =>
    simp only [List.flatMap_nil, State.perform_nil]
    exact ⟨(Wrote.refl h).congr fun p q => by simp [runAt], trivial, rfl, rfl⟩
  | cons g gs ih =>
    simp only [List.length_cons, Nat.mul_succ] at hn
    have hgl : g.length = width := hg g (by simp)
    have hg0 : g ≠ [] := by rintro rfl; simp at hgl; omega
    simp only [List.flatMap_cons, State.perform_append]
    obtain ⟨w1, f1, f2, f3⟩ := h.pixels (vs := g) (fun _ => ho (by simp)) (by omega)
    rw [if_neg hg0, hgl] at f2 f3
    by_cases hgs : gs = []
    · subst hgs
      simp only [List.flatMap_nil, State.perform_nil]
      exact ⟨w1.congr fun p q => by simp, f1, by rw [f2]; simp, by rw [f3]; simp⟩
    · have hpos : 0 < gs.length := List.length_pos_iff.mpr hgs
      have hmul : width ≤ width * gs.length := Nat.le_mul_of_pos_right _ hpos
      have hcol : (s.perform (pixelFrame s.cfg s.dinv g)).rx.regs.col.toNat =
          s.rx.regs.col.toNat + width := by
        rw [f2, colAfter_of_lt (by omega), toNat_col (by omega)]
      have hov : (s.perform (pixelFrame s.cfg s.dinv g)).rx.regs.overflowed = false := by
        rw [f3, markAfter_of_lt (by omega)]
      obtain ⟨w2, i1, i2, i3⟩ := ih w1.ready (fun g' hm => hg g' (by simp [hm])) (fun _ => hov)
        (by rw [hcol]; omega)
      simp only [State.perform_cfg, State.perform_dinv] at w2 i1 i2 i3
      have hsum : s.rx.regs.col.toNat + width + width * gs.length =
          s.rx.regs.col.toNat + width * (g :: gs).length := by
        rw [List.length_cons, Nat.mul_succ]; omega
      refine ⟨(w1.trans w2).congr fun p q => ?_, i1.trans f1, ?_, ?_⟩
      · rw [f1, hcol]
        simp only [runAt, List.flatten_cons, List.map_append]
        by_cases hp : p = s.rx.regs.page
        · by_cases hq : s.rx.regs.col.toNat ≤ q.toNat
          · by_cases hq2 : s.rx.regs.col.toNat + width ≤ q.toNat
            · rw [if_pos ⟨hp, hq2⟩, if_pos ⟨hp, hq⟩, if_pos ⟨hp, hq⟩, List.getElem?_append_right (by simp; omega),
                List.getElem?_eq_none (l := g.map (pixelByte s.dinv)) (by simp; omega)]
              simp only [List.length_map, hgl, Option.or_none]
              rw [show q.toNat - (s.rx.regs.col.toNat + width) =
                q.toNat - s.rx.regs.col.toNat - width by omega]
            · rw [if_neg (fun hh => hq2 hh.2), if_pos ⟨hp, hq⟩, if_pos ⟨hp, hq⟩,
                List.getElem?_append_left (by simp; omega)]
              rfl
          · rw [if_neg (fun hh => hq (by omega)), if_neg (fun hh => hq hh.2),
              if_neg (fun hh => hq hh.2)]
            rfl
        · rw [if_neg (fun hh => hp hh.1), if_neg (fun hh => hp hh.1), if_neg (fun hh => hp hh.1)]
          rfl
      · rw [i2, if_neg hgs, hcol, if_neg (by simp), hsum]
      · rw [i3, if_neg hgs, hcol, if_neg (by simp), hsum]

/-- R135: what a drawing operation on a rectangle leaves. -/
theorem Ready.draws {s : State} (h : Ready s) (r0 r1 c0 c1 : Nat) (byte : Nat → Nat → Byte)
    (hr : r1 ≤ 8) (hc : c1 ≤ 128) (h1 : r0 < r1) (h2 : c0 < c1) :
    Draws s (s.perform (rectEvents s.cfg s.dinv r0 c0 (r1 - r0) fun i =>
      (List.range (c1 - c0)).map (byte i))) r0 r1 c0 c1 byte := by
  obtain ⟨w, g1, g2, g3⟩ := h.rect r0 (r1 - r0) c0 (c1 - c0) byte (by omega) (by omega) (by omega)
    (by omega)
  rw [show r0 + (r1 - r0) = r1 by omega] at g1
  rw [show c0 + (c1 - c0) = c1 by omega] at g2 g3
  refine ⟨?_, ?_, g1, g2, by rw [g3, markAfter_iff], w.others, w.ready⟩
  · intro p q hin
    simp only [inRect] at hin
    rw [w.ram]
    simp only [rectAt]
    rw [if_pos (by omega)]
    rfl
  · intro p q hin
    simp only [inRect] at hin
    rw [w.ram]
    simp only [rectAt]
    rw [if_neg (by omega)]
    rfl

theorem flatten_glyphs (l : List Byte) (w : Nat) (hw : 0 < w) (f : Byte → Nat → Byte) :
    ∀ j, j < w * l.length → (l.map fun ch => (List.range w).map (f ch)).flatten[j]? =
      some (f (l.getD (j / w) 0) (j % w)) := by
  induction l with
  | nil => intro j hj; simp at hj
  | cons a l ih =>
    intro j hj
    simp only [List.map_cons, List.flatten_cons]
    by_cases h : j < w
    · rw [List.getElem?_append_left (by simpa using h), Nat.div_eq_of_lt h, Nat.mod_eq_of_lt h]
      simp [h]
    · simp only [List.length_cons, Nat.mul_succ] at hj
      rw [List.getElem?_append_right (by simp; omega)]
      simp only [List.length_map, List.length_range]
      rw [ih (j - w) (by omega)]
      have e1 : j / w = (j - w) / w + 1 := by
        conv_lhs => rw [show j = j - w + w by omega]
        exact Nat.add_div_right _ hw
      have e2 : j % w = (j - w) % w := by
        conv_lhs => rw [show j = j - w + w by omega]
        exact Nat.add_mod_right _ _
      rw [e1, e2]
      simp

/-- R118, R135: one pass of text: a position frame, then a data frame of `w` bytes per glyph, of
which there may be none. -/
theorem Ready.textPass {s : State} (h : Ready s) {row col w : Nat} (hw : 0 < w) (hr : row < 8)
    (hc : col < 128) (l : List Byte) (f : Byte → Nat → Byte)
    (hn : col + w * l.length ≤ 128) :
    Wrote s (s.perform (textPass s.cfg s.dinv row col
        (l.map fun ch => (List.range w).map (f ch))))
      (rectAt row 1 col (w * l.length) fun _ j =>
        f (l.getD (j / w) 0) (j % w) ^^^ mask s.dinv) ∧
    (s.perform (Machine.textPass s.cfg s.dinv row col
        (l.map fun ch => (List.range w).map (f ch)))).rx.regs.page = BitVec.ofNat 3 row ∧
    (s.perform (Machine.textPass s.cfg s.dinv row col
        (l.map fun ch => (List.range w).map (f ch)))).rx.regs.col =
      colAfter s.cfg.colOverflow (col + w * l.length) ∧
    (s.perform (Machine.textPass s.cfg s.dinv row col
        (l.map fun ch => (List.range w).map (f ch)))).rx.regs.overflowed =
      markAfter s.cfg.colOverflow (col + w * l.length) := by
  obtain ⟨w1, -⟩ := h.setpos hr hc
  obtain ⟨f1, f2, f3⟩ := setpos_fields h hr hc
  simp only [Machine.textPass, State.perform_append]
  have hcol : (s.perform (setposEvents s.cfg row col)).rx.regs.col.toNat = col := by
    rw [f2, toNat_col hc]
  obtain ⟨w2, g1, g2, g3⟩ := w1.ready.glyphs (l.map fun ch => (List.range w).map (f ch)) hw (by simp)
    (fun _ => f3) (by rw [hcol]; simpa using hn)
  simp only [State.perform_cfg, State.perform_dinv, f1, f2, f3, toNat_col hc, List.length_map,
    List.map_eq_nil_iff] at w2 g1 g2 g3
  refine ⟨(w1.trans w2).congr fun p q => ?_, g1, ?_, ?_⟩
  · simp only [Option.or_none, runAt, rectAt, eq_page hr]
    by_cases hin : p.toNat = row ∧ col ≤ q.toNat
    · rw [if_pos hin]
      by_cases hq : q.toNat < col + w * l.length
      · rw [if_pos (by omega), List.getElem?_map, flatten_glyphs l w hw f _ (by omega)]
        rfl
      · rw [if_neg (by omega), List.getElem?_eq_none]
        simp only [List.length_map, List.length_flatten, List.map_map, Function.comp_def,
          List.length_range, List.map_const', List.sum_replicate, smul_eq_mul]
        rw [Nat.mul_comm]
        omega
    · rw [if_neg hin, if_neg (by omega)]
  · rw [g2]
    split
    next e => rw [e, List.length_nil, Nat.mul_zero, Nat.add_zero, colAfter_of_lt hc]
    next => rfl
  · rw [g3]
    split
    next e => rw [e, List.length_nil, Nat.mul_zero, Nat.add_zero, markAfter_of_lt hc]
    next => rfl

end Safety

end Sys2Proof
end

