-- ==== Sys2Proof/Laws/PerInstr.lean ====
section
/-!
SUPPORT. Statements made of every instruction, one lemma per constructor.
-/

namespace Sys2Proof

namespace Laws

namespace RoundTrip

/-- Decoding the code of an instruction gives it back, whatever the opcode values of the controller
table, as long as its rows do not overlap. -/
def Statement (i : Instr) : Prop :=
  ∀ t : OpTable, t.wf = true → decode t (encode t i) = .ok i

theorem beginSession : Statement .beginSession := fun _ _ => by simp [encode, decode, decodeHost]
theorem sendByte (v) : Statement (.sendByte v) := fun _ _ => by simp [encode, decode, decodeHost]
theorem endSession : Statement .endSession := fun _ _ => by simp [encode, decode, decodeHost]
theorem openc : Statement .openc := fun _ _ => by simp [encode, decode, decodeHost]
theorem opend : Statement .opend := fun _ _ => by simp [encode, decode, decodeHost]
theorem close : Statement .close := fun _ _ => by simp [encode, decode, decodeHost]
theorem cmd1 (v) : Statement (.cmd1 v) := fun _ _ => by simp [encode, decode, decodeHost]
theorem wdata (v) : Statement (.wdata v) := fun _ _ => by simp [encode, decode, decodeHost]
theorem setpos (r c) : Statement (.setpos r c) := fun _ _ => by simp [encode, decode, decodeHost]
theorem init : Statement .init := fun _ _ => by simp [encode, decode, decodeHost]
theorem contrast (v) : Statement (.contrast v) := fun _ _ => by simp [encode, decode, decodeHost]
theorem invscr (v) : Statement (.invscr v) := fun _ _ => by simp [encode, decode, decodeHost]
theorem sleep (v) : Statement (.sleep v) := fun _ _ => by simp [encode, decode, decodeHost]
theorem invdata (v) : Statement (.invdata v) := fun _ _ => by simp [encode, decode, decodeHost]
theorem text (r c p) : Statement (.text r c p) := fun _ _ => by simp [encode, decode, decodeHost]
theorem text2x (r c p) : Statement (.text2x r c p) := fun _ _ => by
  simp [encode, decode, decodeHost]
theorem fillscr (v) : Statement (.fillscr v) := fun _ _ => by simp [encode, decode, decodeHost]
theorem fillarea (a b c d e) : Statement (.fillarea a b c d e) := fun _ _ => by
  simp [encode, decode, decodeHost]
theorem fillpat (a b c d e p) : Statement (.fillpat a b c d e p) := fun _ _ => by
  simp [encode, decode, decodeHost]
theorem image (a b c d p) : Statement (.image a b c d p) := fun _ _ => by
  simp [encode, decode, decodeHost]

theorem setcollo (x) : Statement (.setcollo x) := fun t h => by
  refine (decode_ctrl (OpTable.find_val_or h .setcollo (low4_and x))).trans ?_
  exact congrArg Except.ok (congrArg Instr.setcollo (setcollo_operand h x))
theorem setcolhi (x) : Statement (.setcolhi x) := fun t h => by
  refine (decode_ctrl (OpTable.find_val_or h .setcolhi (low4_and x))).trans ?_
  exact congrArg Except.ok (congrArg Instr.setcolhi (setcolhi_operand h x))
theorem addrmode (v) : Statement (.addrmode v) := fun _ h =>
  decode_ctrl (OpTable.find_val h .addrmode)
theorem setcontrast (v) : Statement (.setcontrast v) := fun _ h =>
  decode_ctrl (OpTable.find_val h .setcontrast)
theorem chargepump (v) : Statement (.chargepump v) := fun _ h =>
  decode_ctrl (OpTable.find_val h .chargepump)
theorem segremap (b) : Statement (.segremap b) := fun t h => by
  refine (decode_ctrl (OpTable.find_val_or h .segremap (remap_and b))).trans ?_
  exact congrArg Except.ok (congrArg Instr.segremap (segremap_operand h b))
theorem invertoff : Statement .invertoff := fun _ h => decode_ctrl (OpTable.find_val h .invertoff)
theorem inverton : Statement .inverton := fun _ h => decode_ctrl (OpTable.find_val h .inverton)
theorem setmux (v) : Statement (.setmux v) := fun _ h => decode_ctrl (OpTable.find_val h .setmux)
theorem dispoff : Statement .dispoff := fun _ h => decode_ctrl (OpTable.find_val h .dispoff)
theorem dispon : Statement .dispon := fun _ h => decode_ctrl (OpTable.find_val h .dispon)
theorem setpage (x) : Statement (.setpage x) := fun t h => by
  refine (decode_ctrl (OpTable.find_val_or h .setpage (page_and x))).trans ?_
  exact congrArg Except.ok (congrArg Instr.setpage (setpage_operand h x))
theorem comdir (b) : Statement (.comdir b) := fun t h => by
  refine (decode_ctrl (OpTable.find_val_or h .comdir (comdir_and b))).trans ?_
  exact congrArg Except.ok (congrArg Instr.comdir (comdir_operand h b))
theorem dispoffset (v) : Statement (.dispoffset v) := fun _ h =>
  decode_ctrl (OpTable.find_val h .dispoffset)
theorem clkdiv (v) : Statement (.clkdiv v) := fun _ h => decode_ctrl (OpTable.find_val h .clkdiv)

end RoundTrip

end Laws

end Sys2Proof
end

