-- ==== Sys2Proof/Laws/Controller.lean ====
section
/-!
SUPPORT. A controller command as an instruction: the command frame of its bytes (R66, R67), which has
the command's own effect at a listening RX (R148, R149).
-/

namespace Sys2Proof

namespace Machine

open Safety

/-- The row of an encoded controller command, and the instruction its bytes are read as. -/
theorem encode_ctrl {t : OpTable} {i : Instr} {op arg : Byte} (hw : t.wf = true)
    (he : encode t i = .ctrl op arg) :
    ∃ k, t.find op = some k ∧ k.instr op (if k.takesArg then arg else 0) = i := by
  have hd : decode t (.ctrl op arg) = .ok i := by
    rw [← he]
    cases i with
    | setcollo x => exact Laws.RoundTrip.setcollo _ _ hw
    | setcolhi x => exact Laws.RoundTrip.setcolhi _ _ hw
    | addrmode x => exact Laws.RoundTrip.addrmode _ _ hw
    | setcontrast x => exact Laws.RoundTrip.setcontrast _ _ hw
    | chargepump x => exact Laws.RoundTrip.chargepump _ _ hw
    | segremap x => exact Laws.RoundTrip.segremap _ _ hw
    | invertoff => exact Laws.RoundTrip.invertoff _ hw
    | inverton => exact Laws.RoundTrip.inverton _ hw
    | setmux x => exact Laws.RoundTrip.setmux _ _ hw
    | dispoff => exact Laws.RoundTrip.dispoff _ hw
    | dispon => exact Laws.RoundTrip.dispon _ hw
    | setpage x => exact Laws.RoundTrip.setpage _ _ hw
    | comdir x => exact Laws.RoundTrip.comdir _ _ hw
    | dispoffset x => exact Laws.RoundTrip.dispoffset _ _ hw
    | clkdiv x => exact Laws.RoundTrip.clkdiv _ _ hw
    | _ => simp [encode] at he
  cases hf : t.find op with
  | none => simp [decode, decodeBytes, hf, Except.map] at hd
  | some k =>
    refine ⟨k, rfl, ?_⟩
    cases ha : k.takesArg <;> simp [decode, decodeBytes, hf, Except.map, ha] at hd <;> simpa using hd

/-- The rows of the commands whose meaning is a frame of two bytes are those with an argument. -/
theorem exec_ctrl {s : State} {i : Instr} {op arg : Byte} {k : CtrlOp}
    (he : encode s.cfg.ops i = .ctrl op arg)
    (hk : k.instr op (if k.takesArg then arg else 0) = i) :
    exec i s = s.sendCommand (if k.takesArg then [op, arg] else [op]) := by
  subst hk
  cases k <;> simp only [CtrlOp.instr, CtrlOp.takesArg, encode, Code.ctrl.injEq] at he <;>
    simp only [CtrlOp.instr, CtrlOp.takesArg, Bool.false_eq_true, if_false, if_true, exec,
      execSetcollo, execSetcolhi, execAddrmode, execSetcontrast, execChargepump, execSegremap,
      execInvertoff, execInverton, execSetmux, execDispoff, execDispon, execSetpage, execComdir,
      execDispoffset, execClkdiv, he.1]

/-- R148, R149: the bytes of a command, with nothing pending, have its effect. -/
theorem commands_ctrl {r : Rx} {c : Config} {i : Instr} {op arg : Byte} {k : CtrlOp}
    (hp : r.regs.pending = none) (hf : c.ops.find op = some k)
    (hk : k.instr op (if k.takesArg then arg else 0) = i) :
    r.commands c (if k.takesArg then [op, arg] else [op]) = r.apply i := by
  cases ha : k.takesArg with
  | false =>
    simp only [ha, Bool.false_eq_true, if_false] at hk
    simp only [Bool.false_eq_true, if_false, Rx.commands_cons, Rx.commands_nil]
    rw [commandByte_complete hp hf ha, hk]
  | true =>
    simp only [ha, if_true] at hk
    simp only [if_true, Rx.commands_cons, Rx.commands_nil]
    rw [commandByte_opens hp hf ha, commandByte_argument (op := op) rfl hf, hk]
    congr 1
    simp only [Rx.update]
    rw [← hp]

/-- A controller command is one command frame with its effect at a listening RX. -/
theorem sendsCommand_ctrl {s : State} {i : Instr} {op arg : Byte} {k : CtrlOp}
    (he : encode s.cfg.ops i = .ctrl op arg) (hf : s.cfg.ops.find op = some k)
    (hk : k.instr op (if k.takesArg then arg else 0) = i) :
    SendsCommand s i (if k.takesArg then [op, arg] else [op]) (fun _ => (s.rx.apply i).regs) := by
  refine ⟨_, exec_ctrl he hk, ?_, fun h => ?_⟩
  · rw [commandFrame_frame]
    exact perform_emits _ _
  · exact h.command (commands_ctrl h.pending hf hk) (Rx.apply_ram _ _) (Rx.apply_ramDraw _ _)
      (by rw [Rx.apply_unspecified]; exact h.specified)
      (by rw [Rx.apply_pending]; exact h.pending)

end Machine

end Sys2Proof
end

