-- ==== Sys2Proof/Laws/Discipline.lean ====
section
/-!
SUPPORT. Bytes and frames at an RX that need not stay specified: a byte that leaves RX unspecified
leaves it so at the end of its byte cell.
-/

namespace Sys2Proof

namespace Machine

open Safety

/-- Whether a byte leaves RX specified does not depend on the wire decoder's `SHIFT` and `SLOT`. -/
theorem Rx.receive_unspecified_decoder (r : Rx) (c : Config) (v : Byte) (q : LineState) (sh : Byte)
    (sl : Fin 9) :
    ((r.decoder q r.regs.phase sh sl).receive c v).unspecified = (r.receive c v).unspecified := by
  cases h : (r.receive c v).unspecified with
  | false => rw [Rx.receive_decoder r c v q sh sl h]; exact h
  | true =>
    cases h' : ((r.decoder q r.regs.phase sh sl).receive c v).unspecified with
    | true => rfl
    | false =>
      have := Rx.receive_decoder (r.decoder q r.regs.phase sh sl) c v r.prev r.regs.shift r.regs.slot h'
      rw [Rx.decoder_decoder, Rx.decoder_phase] at this
      change r.receive c v = _ at this
      rw [this] at h
      exact absurd h (by rw [Rx.decoder_unspecified, h']; simp)

/-- A byte that leaves RX unspecified does so by the end of its byte cell. -/
theorem sendb_lost (c : Config) (r : Rx) (v : Byte) (a : Bool) (hu : r.unspecified = false)
    (hp : r.regs.phase ≠ .idle) (hs : r.regs.slot = 0) (hw : r.prev = frameLine a)
    (h : (r.receive c v).unspecified = true) :
    ((sendbEvents v).foldl (emit c) (Pins.inFrame a, r)).2.lost = true := by
  have e := Rx.eq_decoder r (frameLine a) r.regs.phase r.regs.shift 0 hw rfl rfl hs
  have hv := shiftIn_bits r.regs.shift v
  simp only [bitsOf, List.foldl] at hv
  conv_lhs => rw [e]
  simp only [sendbEvents, bitsOf, List.flatMap_cons, List.flatMap_nil, List.append_nil,
    List.foldl_append]
  rw [bitCell_shift c r _ _ _ _ _ hu hp (by decide), bitCell_shift c r _ _ _ _ _ hu hp (by decide),
    bitCell_shift c r _ _ _ _ _ hu hp (by decide), bitCell_shift c r _ _ _ _ _ hu hp (by decide),
    bitCell_shift c r _ _ _ _ _ hu hp (by decide), bitCell_shift c r _ _ _ _ _ hu hp (by decide),
    bitCell_shift c r _ _ _ _ _ hu hp (by decide)]
  have e7 : (0 : Fin 9) + 1 + 1 + 1 + 1 + 1 + 1 + 1 = 7 := by decide
  rw [e7]
  refine foldl_emit_lost c _ _ ?_
  generalize hx : shiftIn (shiftIn (shiftIn (shiftIn (shiftIn (shiftIn (shiftIn r.regs.shift
    (v.getLsbD 7)) (v.getLsbD 6)) (v.getLsbD 5)) (v.getLsbD 4)) (v.getLsbD 3)) (v.getLsbD 2))
    (v.getLsbD 1) = x at hv ⊢
  generalize v.getLsbD 0 = b0 at hv ⊢
  generalize v.getLsbD 1 = b1
  subst hv
  have key := Rx.receive_unspecified_decoder r c (shiftIn x b0)
    ⟨.hi, if b0 then .hi else .lo⟩ (shiftIn x b0) 8
  rw [h] at key
  have key := (Rx.receive_marks _ c _).resolve_right (fun e => by
    rw [key, Rx.decoder_unspecified, hu] at e; exact absurd e (by simp))
  have e3 : bitCell b0 = [.write .sda b0, .write .scl true] ++ [.write .scl false] := rfl
  rw [e3, List.foldl_append]
  refine foldl_emit_lost c _ _ ?_
  cases b0 <;> cases b1 <;>
    simpa [emit, Pins.inFrame, Pins.wire, levelOf, frameLine, Rx.observe, Rx.react, hu, hp,
      LineState.driven, classify, Rx.onStep, Rx.onRise, Rx.decoder, Rx.update] using key

/-! ### An RX whose state is unspecified, and lines that show no STOP -/

/-- Only a STOP can end the mark, and a byte cell shows none (R58). -/
theorem bitCell_unspecified (c : Config) (r : Rx) (a b : Bool) (hu : r.unspecified = true)
    (hw : r.prev = frameLine a) :
    ∃ y : Rx, (bitCell b).foldl (emit c) (Pins.inFrame a, r) = (Pins.inFrame b, y) ∧
      y.unspecified = true ∧ y.prev = frameLine b := by
  cases ht : r.untilStop <;> cases a <;> cases b <;>
    simp [bitCell, emit, Pins.inFrame, Pins.wire, levelOf, frameLine, Rx.observe, hw, hu, ht,
      LineState.driven, classify, Rx.react, Rx.wander]

theorem bitCells_unspecified (c : Config) (bs : List Bool) (r : Rx) (a : Bool)
    (hu : r.unspecified = true) (hw : r.prev = frameLine a) :
    ∃ y b, (bs.flatMap bitCell).foldl (emit c) (Pins.inFrame a, r) = (Pins.inFrame b, y) ∧
      y.unspecified = true ∧ y.prev = frameLine b := by
  induction bs generalizing r a with
  | nil => exact ⟨r, a, rfl, hu, hw⟩
  | cons b bs ih =>
    obtain ⟨y, e, h1, h2⟩ := bitCell_unspecified c r a b hu hw
    simp only [List.flatMap_cons, List.foldl_append, e]
    exact ih y b h1 h2

/-- `BEGIN` from idle lines shows no STOP (R86). -/
theorem begin_unspecified (c : Config) (r : Rx) (hu : r.unspecified = true)
    (hw : r.prev = LineState.idle) :
    ∃ y : Rx, beginEvents.foldl (emit c) (Pins.idle, r) = (Pins.inFrame false, y) ∧
      y.unspecified = true ∧ y.prev = frameLine false := by
  cases ht : r.untilStop <;>
    simp [beginEvents, emit, Pins.idle, Pins.inFrame, LineState.idle, Pins.wire, levelOf, frameLine,
      Rx.observe, hw, hu, ht, LineState.driven, classify, Rx.react, Rx.wander]

end Machine

end Sys2Proof
end

