-- ==== Sys2Proof/Laws/Init.lean ====
section
/-!
SUPPORT. What `INIT` rests on (R108, R109): its pin set-up leaves an RX with no frame open as it
was, and a payload that is a sequence of complete commands runs those commands one after the other.
-/

namespace Sys2Proof

namespace Machine

open Safety

/-- R108, R110: the pin set-up shows RX at most a STOP with no frame open. -/
theorem initPins_rx (c : Config) (p : Pins) (r : Rx) (hw : r.prev = p.wire)
    (hp : r.regs.phase = .idle) (hu : r.unspecified = false) :
    initPinEvents.foldl (emit c) (p, r) =
      (Pins.idle, r.decoder LineState.idle r.regs.phase r.regs.shift r.regs.slot) := by
  have e : r.decoder LineState.idle r.regs.phase r.regs.shift r.regs.slot =
      { r with prev := LineState.idle } := rfl
  rw [e]
  obtain ⟨a, b, oc, od⟩ := p
  cases a <;> cases b <;> cases oc <;> cases od <;> simp only [Pins.wire, levelOf, if_true] at hw <;>
    simp [initPinEvents, emit, Pins.wire, levelOf, Rx.observe, hw, Rx.react, hu, classify,
      Rx.onStep, Rx.onStop, Rx.onRise, hp, LineState.driven, Pins.idle, LineState.idle]
  apply Rx.ext <;> simp [hw, hu]

/-- R148, R149: a payload cut into complete commands runs them one after the other. -/
theorem commands_of_parse (c : Config) (n : Nat) :
    ∀ (vs : List Byte) (is : List Instr) (r : Rx), vs.length ≤ n → c.ops.parse vs = some is →
      r.regs.pending = none → r.commands c vs = is.foldl Rx.apply r := by
  induction n with
  | zero =>
    intro vs is r hl h _
    obtain rfl : vs = [] := by simpa using hl
    simp only [OpTable.parse, Option.some.injEq] at h
    subst h
    rfl
  | succ n ih =>
    intro vs is r hl h hp
    cases vs with
    | nil =>
      simp only [OpTable.parse, Option.some.injEq] at h
      subst h
      rfl
    | cons op rest =>
      simp only [OpTable.parse] at h
      cases hf : c.ops.find op with
      | none => simp [hf] at h
      | some k =>
        simp only [hf] at h
        cases ha : k.takesArg with
        | false =>
          cases hr : c.ops.parse rest with
          | none => simp [ha, hr] at h
          | some js =>
            simp only [ha, hr, Option.map_some, Bool.false_eq_true, if_false,
              Option.some.injEq] at h
            subst h
            rw [Rx.commands_cons, commandByte_complete hp hf ha]
            exact ih rest js _ (by simp at hl; omega) hr (by rw [Rx.apply_pending]; exact hp)
        | true =>
          cases rest with
          | nil => simp [ha] at h
          | cons arg rest =>
            cases hr : c.ops.parse rest with
            | none => simp [ha, hr] at h
            | some js =>
              simp only [ha, if_true, hr, Option.map_some, Option.some.injEq] at h
              subst h
              have e : (r.update fun g => { g with pending := some op }).commandByte c arg =
                  r.apply (k.instr op arg) := by
                rw [commandByte_argument (op := op) rfl hf]
                congr 1
                simp only [Rx.update]
                rw [← hp]
              rw [Rx.commands_cons, Rx.commands_cons, commandByte_opens hp hf ha, e]
              exact ih rest js _ (by simp at hl; omega) hr (by rw [Rx.apply_pending]; exact hp)

section
variable (is : List Instr) (r : Rx)

theorem applies_unspecified : (is.foldl Rx.apply r).unspecified = r.unspecified := by
  induction is generalizing r with
  | nil => rfl
  | cons i is ih => exact (ih _).trans (Rx.apply_unspecified r i)

theorem applies_pending : (is.foldl Rx.apply r).regs.pending = r.regs.pending := by
  induction is generalizing r with
  | nil => rfl
  | cons i is ih => exact (ih _).trans (Rx.apply_pending r i)

theorem applies_ram : (is.foldl Rx.apply r).ram = r.ram := by
  induction is generalizing r with
  | nil => rfl
  | cons i is ih => exact (ih _).trans (Rx.apply_ram r i)

theorem applies_ramDraw : (is.foldl Rx.apply r).ramDraw = r.ramDraw := by
  induction is generalizing r with
  | nil => rfl
  | cons i is ih => exact (ih _).trans (Rx.apply_ramDraw r i)

/-- A sequence of commands changes no byte of RAM (R157, R181). -/
theorem applies_ramByte (p : BitVec 3) (q : BitVec 7) :
    (is.foldl Rx.apply r).ramByte p q = r.ramByte p q :=
  Rx.ramByte_of_eq (applies_ram is r) (applies_ramDraw is r) p q

theorem applies_decoder (q : LineState) (ph : RxPhase) (sh : Byte) (sl : Fin 9) :
    is.foldl Rx.apply (r.decoder q ph sh sl) = (is.foldl Rx.apply r).decoder q ph sh sl := by
  induction is generalizing r with
  | nil => rfl
  | cons i is ih => rw [List.foldl_cons, Rx.apply_decoder, ih]; rfl

end

theorem apply_addrMode (r : Rx) (i : Instr) (h : ∀ a, i ≠ .addrmode a) :
    (r.apply i).regs.addrMode = r.regs.addrMode := by
  cases i with
  | addrmode a => exact absurd rfl (h a)
  | setcollo x => simp only [Rx.apply, Rx.doSetcollo, Rx.setColLow]; split <;> rfl
  | setcolhi x => simp only [Rx.apply, Rx.doSetcolhi, Rx.setColHigh]; split <;> rfl
  | setpage x => simp only [Rx.apply, Rx.doSetpage, Rx.setPage]; split <;> rfl
  | _ => rfl

/-- R109: the last addressing mode a sequence of commands sets is the one it leaves. -/
theorem applies_addrMode (is : List Instr) (a : Byte) (r : Rx)
    (h : (is.filter fun i => match i with
      | .addrmode _ => true
      | _ => false).getLast? = some (.addrmode a)) :
    (is.foldl Rx.apply r).regs.addrMode = a.extractLsb' 0 2 := by
  induction is using List.reverseRecOn with
  | nil => simp at h
  | append_singleton is i ih =>
    rw [List.foldl_append, List.foldl_cons, List.foldl_nil]
    by_cases hi : ∃ b, i = .addrmode b
    · obtain ⟨b, rfl⟩ := hi
      simp only [List.filter_append, List.filter_cons_of_pos, List.filter_nil,
        List.getLast?_append, List.getLast?_singleton, Option.some_or, Option.some.injEq,
        Instr.addrmode.injEq] at h
      subst h
      rfl
    · rw [apply_addrMode _ _ (fun b hb => hi ⟨b, hb⟩)]
      refine ih ?_
      rw [List.filter_append] at h
      have e : List.filter (fun i => match i with
          | .addrmode _ => true
          | _ => false) [i] = [] := by
        cases i with
        | addrmode b => exact absurd ⟨b, rfl⟩ hi
        | _ => rfl
      rwa [e, List.append_nil] at h

end Machine

end Sys2Proof
end

