-- ==== Sys2Proof/Laws/Invariant.lean ====
section
/-!
SUPPORT. The invariant of the receiver is kept by everything that can happen to RX.
-/

namespace Sys2Proof

namespace Safety

open Machine

section
variable {c : Config} {r : Rx}

theorem RxOk.redraw (h : r.unspecified = true) : RxOk c r.redraw :=
  ⟨Memory.wf_nil _, fun hu => by rw [Rx.redraw_unspecified, h] at hu; cases hu⟩

theorem RxOk.lose : RxOk c r.lose := ⟨Memory.wf_nil _, fun hu => by simp at hu⟩

theorem RxOk.drift : RxOk c r.drift := ⟨Memory.wf_nil _, fun hu => by simp at hu⟩

/-- What a draw of `PENDING` is filtered to is an opcode that takes an argument. -/
theorem legalPending_ok {p : Option Byte} {op : Byte} (h : legalPending c p = some op) :
    ∃ k, c.ops.find op = some k ∧ k.takesArg = true := by
  simp only [legalPending] at h
  split at h
  · simp at h
  · split at h
    · simp at h
    next k hk =>
      split at h
      next ha =>
        simp only [Option.some.injEq] at h
        subst h
        exact ⟨k, hk, ha⟩
      · simp at h

theorem RxOk.recover : RxOk c (r.recover c) :=
  ⟨Memory.wf_nil _, fun _ _ hp => legalPending_ok (by simpa using hp)⟩

/-- A change that leaves the RAM, the mark and `PENDING` alone. -/
theorem RxOk.of_eq {r' : Rx} (h : RxOk c r) (h1 : r'.ram = r.ram)
    (h2 : r'.unspecified = r.unspecified) (h3 : r'.regs.pending = r.regs.pending) : RxOk c r' :=
  ⟨by rw [h1]; exact h.ram, fun hu op hp => h.pending (by rw [← h2]; exact hu) op (by rw [← h3]; exact hp)⟩

theorem RxOk.apply (h : RxOk c r) (i : Instr) : RxOk c (r.apply i) :=
  h.of_eq (r.apply_ram i) (r.apply_unspecified i) (r.apply_pending i)

theorem RxOk.dataByte (h : RxOk c r) (o : ColOverflow) (v : Byte) : RxOk c (r.dataByte o v) := by
  have hk : ∀ g : RxRegs, (advanceCol o g).pending = g.pending := by
    intro g
    simp only [advanceCol]
    split
    · rfl
    · cases o <;> rfl
  simp only [Rx.dataByte]
  split
  · split
    · exact h
    · exact ⟨Memory.write_wf v h.ram (dispKey_lt _ _), fun hu op hp =>
        h.pending hu op (by rw [← hk r.regs]; exact hp)⟩
  · exact ⟨Memory.write_wf v h.ram (dispKey_lt _ _), fun hu op hp => h.pending hu op hp⟩

theorem RxOk.commandByte (h : RxOk c r) (v : Byte) : RxOk c (r.commandByte c v) := by
  simp only [Rx.commandByte]
  split
  · split
    · refine RxOk.apply (r := Rx.update _ _) ⟨h.ram, ?_⟩ _
      intro _ op hp
      simp at hp
    · exact .lose
  · split
    next k hk =>
      split
      next ha =>
        refine ⟨h.ram, ?_⟩
        intro _ op hp
        simp only [Rx.update_regs, Option.some.injEq] at hp
        subst hp
        exact ⟨k, hk, ha⟩
      next => exact h.apply _
    next => exact .lose

theorem RxOk.receive (h : RxOk c r) (v : Byte) : RxOk c (r.receive c v) := by
  simp only [Rx.receive]
  split
  · exact h
  · exact h.of_eq rfl rfl rfl
  · simp only [Rx.controlByte]
    split
    · exact h.of_eq rfl rfl rfl
    · exact .lose
  · exact h.commandByte v
  · exact h.dataByte _ v
  · exact h

theorem RxOk.onStep (h : RxOk c r) (w : WireStep) : RxOk c (r.onStep c w) := by
  cases w with
  | quiet => exact h
  | start =>
    simp only [Rx.onStep, Rx.onStart]
    split
    · exact h.of_eq rfl rfl rfl
    · exact .lose
  | stop =>
    simp only [Rx.onStep, Rx.onStop]
    split
    · exact h
    · split
      · exact .lose
      · exact h.of_eq rfl rfl rfl
  | rise b =>
    simp only [Rx.onStep, Rx.onRise]
    split
    · exact h
    · split
      · exact h.of_eq rfl rfl rfl
      · split
        · exact RxOk.receive (r := Rx.update _ _) (h.of_eq rfl rfl rfl) _
        · exact h.of_eq rfl rfl rfl

theorem RxOk.react (h : RxOk c r) (w : WireStep) : RxOk c (r.react c w) := by
  simp only [Rx.react, Rx.wander]
  split
  next hu =>
    split
    · split
      · exact .recover
      · exact .drift
    · exact .redraw hu
  next => exact h.onStep w

theorem RxOk.observe (h : RxOk c r) (q : LineState) : RxOk c (r.observe c q) := by
  have h' : RxOk c { r with prev := q } := h.of_eq rfl rfl rfl
  simp only [Rx.observe]
  split
  · exact h
  · split
    · exact h'.react _
    · exact h'

theorem RxOk.emits (h : RxOk c r) (p : Pins) (es : List Event) :
    RxOk c (es.foldl (emit c) (p, r)).2 := by
  induction es generalizing p r with
  | nil => exact h
  | cons e es ih => exact ih (h.observe _) _

end

section
variable {s : State}

theorem StateOk.perform (h : StateOk s) (es : List Event) : StateOk (s.perform es) :=
  ⟨by rw [State.perform_pins]; exact s.perform_prev es h.seen, h.ps, h.rx.emits _ _⟩

theorem StateOk.stopHere (h : StateOk s) : StateOk s.stopHere := by
  rcases s.stopHere_eq with e | e <;> rw [e]
  · exact h
  · exact ⟨h.seen, h.ps, .drift⟩

theorem StateOk.setDinv (h : StateOk s) (b : Bool) : StateOk (s.setDinv b) := ⟨h.seen, h.ps, h.rx⟩

theorem StateOk.exec (h : StateOk s) {i : Instr} {t : State} (e : exec i s = .next t) : StateOk t := by
  rcases exec_next e with ⟨es, rfl⟩ | ⟨f, -, rfl⟩
  · exact h.perform es
  · exact h.setDinv _

theorem StateOk.txReset (h : StateOk s) : StateOk s.txReset :=
  ⟨Rx.observe_prev _ _ _, h.ps, h.rx.observe _⟩

theorem StateOk.rxPowerUp (h : StateOk s) : StateOk s.rxPowerUp :=
  ⟨rfl, h.ps, Memory.wf_nil _, fun _ op hp => by cases hp⟩

end

end Safety

end Sys2Proof
end

