-- ==== Sys2Proof/Laws/Text.lean ====
section
/-!
SUPPORT. The operands of text: a zero-terminated string (R44) is read whole, clipping is a prefix
(R119, R120), and a font that covers its printable range has every glyph (R40 to R42, R195).
-/

namespace Sys2Proof

namespace Machine

open Safety

theorem stringFrom_of {ps : List Host.Cell} (codes : List Byte) :
    ∀ (fuel a : Nat), codes.length < fuel →
      (∀ i, (h : i < codes.length) → psByte ps (a + i) = codes[i] ∧ codes[i] ≠ 0) →
      psByte ps (a + codes.length) = 0 → stringFrom ps fuel a = some codes := by
  induction codes with
  | nil =>
    intro fuel a hf _ hz
    obtain ⟨n, rfl⟩ : ∃ n, fuel = n + 1 := ⟨fuel - 1, by simp at hf; omega⟩
    simp only [List.length_nil, Nat.add_zero] at hz
    simp [stringFrom, hz]
  | cons v vs ih =>
    intro fuel a hf hc hz
    obtain ⟨n, rfl⟩ : ∃ n, fuel = n + 1 := ⟨fuel - 1, by simp at hf; omega⟩
    have h0 := hc 0 (by simp)
    simp only [Nat.add_zero, List.getElem_cons_zero] at h0
    have hne : ¬ psByte ps a = 0 := by rw [h0.1]; exact h0.2
    simp only [stringFrom, hne, if_false]
    rw [ih n (a + 1) (by simp at hf; omega) ?_ ?_]
    · simp [h0.1]
    · intro i hi
      have := hc (i + 1) (by simp; omega)
      simpa [Nat.add_assoc, Nat.add_comm 1 i] using this
    · simpa [Nat.add_assoc, Nat.add_comm 1] using hz

/-- The string at an address is what R44 says it is. -/
theorem stringAt_of {s : State} {ptr : PsAddr} {codes : List Byte} (h : stringIs s ptr codes) :
    s.stringAt ptr = some codes := by
  obtain ⟨h1, h2, h3⟩ := h
  exact stringFrom_of codes _ _ (by omega) h2 h3

theorem stringFrom_sound {ps : List Host.Cell} : ∀ (fuel a : Nat) (codes : List Byte),
    stringFrom ps fuel a = some codes → codes.length < fuel ∧
      (∀ i, (h : i < codes.length) → psByte ps (a + i) = codes[i] ∧ codes[i] ≠ 0) ∧
      psByte ps (a + codes.length) = 0 := by
  intro fuel
  induction fuel with
  | zero => intro a codes h; simp [stringFrom] at h
  | succ n ih =>
    intro a codes h
    simp only [stringFrom] at h
    split at h
    next hz =>
      cases h
      exact ⟨by simp, by simp, by simpa using hz⟩
    next hz =>
      cases hr : stringFrom ps n (a + 1) with
      | none => simp [hr] at h
      | some vs =>
        simp only [hr, Option.map_some, Option.some.injEq] at h
        subst h
        obtain ⟨i1, i2, i3⟩ := ih (a + 1) vs hr
        refine ⟨by simp; omega, ?_, by simpa [Nat.add_assoc, Nat.add_comm 1] using i3⟩
        intro i hi
        cases i with
        | zero => exact ⟨rfl, hz⟩
        | succ j =>
          have := i2 j (by simpa using hi)
          simpa [Nat.add_assoc, Nat.add_comm 1 j] using this

/-- A string is refused only where there is none (R44, R175). -/
theorem stringIs_of_stringAt {s : State} {ptr : PsAddr} {codes : List Byte}
    (h : s.stringAt ptr = some codes) : stringIs s ptr codes := by
  obtain ⟨h1, h2, h3⟩ := stringFrom_sound _ _ _ h
  exact ⟨by omega, h2, h3⟩

/-- R119: the number of characters drawn. -/
theorem clipText_take (width : Nat) (hw : 0 < width) (hw2 : width ≤ 128) (codes : List Byte) :
    ∀ col, col ≤ 128 → clipText width col codes = codes.take ((128 - col) / width) := by
  induction codes with
  | nil => intro col _; simp [clipText]
  | cons ch rest ih =>
    intro col hc
    simp only [clipText, numCols]
    split
    next h =>
      have : (128 - col) / width = 0 := Nat.div_eq_of_lt (by omega)
      simp [this]
    next h =>
      rw [ih (col + width) (by omega)]
      have e : (128 - col) / width = (128 - (col + width)) / width + 1 := by
        rw [show 128 - col = 128 - (col + width) + width by omega, Nat.add_div_right _ hw]
      rw [e, List.take_succ_cons]

/-- A run of reads of a list that covers it. -/
theorem memReads_of (s : State) (sp : Space) (l : List Byte) (h : ∀ a, s.memRead sp a = l[a]?) :
    ∀ (n a : Nat), a + n ≤ l.length →
      s.memReads sp a n = some ((List.range n).map fun j => l.getD (a + j) 0) := by
  intro n
  induction n with
  | zero => intro a _; rfl
  | succ n ih =>
    intro a ha
    simp only [State.memReads, h]
    rw [ih (a + 1) (by omega), List.getElem?_eq_getElem (by omega)]
    simp only [List.range_succ_eq_map, List.map_cons, List.map_map, Option.some.injEq]
    congr 1
    · simp [List.getD, List.getElem?_eq_getElem (show a < l.length by omega)]
    · apply List.map_congr_left
      intro j _
      simp [Function.comp, Nat.add_assoc, Nat.add_comm 1 j]

theorem glyphsOf_map {glyph : Byte → Option (List Byte)} {g : Byte → List Byte}
    (h : ∀ ch, glyph ch = some (g ch)) (codes : List Byte) :
    glyphsOf glyph codes = some (codes.map g) := by
  induction codes with
  | nil => rfl
  | cons ch rest ih => simp [glyphsOf, h, ih]

theorem gidx_le {ch pmax : Byte} (h : 32 ≤ pmax.toNat) : gidx ch pmax + 32 ≤ pmax.toNat := by
  simp only [gidx, charBase]
  split <;> omega

section Fonts
variable {s : State} (h : s.cfg.fontsOk = true)
include h

theorem fontsOk_spec : 32 ≤ s.cfg.pmax1x.toNat ∧ 32 ≤ s.cfg.pmax2x.toNat ∧
    s.cfg.font6.length = 6 * (s.cfg.pmax1x.toNat - 31) ∧
    s.cfg.font16.length = 16 * (s.cfg.pmax2x.toNat - 31) := by
  simp only [Config.fontsOk, Bool.and_eq_true, decide_eq_true_eq, beq_iff_eq, charBase,
    glyph6Width, glyph16Stride] at h
  exact ⟨h.1.1.1, h.1.1.2, h.1.2, h.2⟩

/-- R41: a glyph of `FONT6`. -/
theorem glyph6_of (ch : Byte) : s.glyph6 ch =
    some ((List.range 6).map fun j => s.cfg.font6.getD (gidx ch s.cfg.pmax1x * 6 + j) 0) := by
  obtain ⟨h1, -, h3, -⟩ := fontsOk_spec h
  have := gidx_le (ch := ch) h1
  exact memReads_of s .font6 s.cfg.font6 (fun _ => rfl) 6 _ (by rw [h3, glyph6Width]; omega)

/-- R42: one half of a glyph of `FONT16`. -/
theorem glyph16_of (half : Nat) (hh : half < 2) (ch : Byte) : s.glyph16 half ch =
    some ((List.range 8).map fun j =>
      s.cfg.font16.getD (gidx ch s.cfg.pmax2x * 16 + half * 8 + j) 0) := by
  obtain ⟨-, h2, -, h4⟩ := fontsOk_spec h
  have := gidx_le (ch := ch) h2
  exact memReads_of s .font16 s.cfg.font16 (fun _ => rfl) 8 _
    (by rw [h4, glyph16Stride]; omega)

end Fonts

/-- R118: what `TEXT` performs on a string of a covering font. -/
theorem exec_text {s : State} {row col : Byte} {ptr : PsAddr} {codes : List Byte}
    (hr : row.toNat < 8) (hc : col.toNat < 128) (hs : stringIs s ptr codes)
    (hf : s.cfg.fontsOk = true) :
    exec (.text row col ptr) s = .next (s.perform (textPass s.cfg s.dinv row.toNat col.toNat
      ((codes.take ((128 - col.toNat) / 6)).map fun ch => (List.range 6).map fun j =>
        s.cfg.font6.getD (gidx ch s.cfg.pmax1x * 6 + j) 0))) := by
  simp only [exec, execText]
  rw [if_neg (by simp [numRows, numCols]; omega), stringAt_of hs]
  simp only
  rw [clipText_take glyph6Width (by decide) (by decide) codes _ (by omega),
    glyphsOf_map (glyph6_of hf)]

/-- R121: what `TEXT2X` performs on a string of a covering font. -/
theorem exec_text2x {s : State} {row col : Byte} {ptr : PsAddr} {codes : List Byte}
    (hr : row.toNat < 7) (hc : col.toNat < 128) (hs : stringIs s ptr codes)
    (hf : s.cfg.fontsOk = true) :
    exec (.text2x row col ptr) s = .next (s.perform
      (textPass s.cfg s.dinv row.toNat col.toNat
        ((codes.take ((128 - col.toNat) / 8)).map fun ch => (List.range 8).map fun j =>
          s.cfg.font16.getD (gidx ch s.cfg.pmax2x * 16 + 0 * 8 + j) 0) ++
      textPass s.cfg s.dinv (row.toNat + 1) col.toNat
        ((codes.take ((128 - col.toNat) / 8)).map fun ch => (List.range 8).map fun j =>
          s.cfg.font16.getD (gidx ch s.cfg.pmax2x * 16 + 1 * 8 + j) 0))) := by
  simp only [exec, execText2x]
  rw [if_neg (by simp [numRows, numCols]; omega), stringAt_of hs]
  simp only
  rw [clipText_take glyph16Width (by decide) (by decide) codes _ (by omega),
    glyphsOf_map (glyph16_of hf 0 (by decide)), glyphsOf_map (glyph16_of hf 1 (by decide))]

end Machine

end Sys2Proof
end

