-- ==== Sys2Proof/Laws/Unaddressed.lean ====
section
/-!
SUPPORT. Frames addressed to another receiver (R142).
-/

namespace Sys2Proof

namespace Machine

open Safety

/-- R142: RX takes no byte of a frame it ignores. -/
theorem Rx.receiveAll_ignore (c : Config) (vs : List Byte) (r : Rx) (h : r.regs.phase = .ignore) :
    r.receiveAll c vs = r := by
  induction vs with
  | nil => rfl
  | cons v vs ih => simpa only [Rx.receiveAll_cons, Rx.receive, h] using ih

/-- A frame with an address byte that is not RX's own leaves the display of RX alone. -/
theorem frame_ignored {c : Config} {r : Rx} {a : Byte} (payload : List Byte) (ha : a ≠ c.rxAddr)
    (hu : r.unspecified = false) (hp : r.regs.phase = .idle) (hw : r.prev = LineState.idle) :
    ∃ sh, (frame (a :: payload)).foldl (emit c) (Pins.idle, r) =
      (Pins.idle, r.decoder LineState.idle .idle sh 0) := by
  have hb := begin_opens c r true true hu hp hw
  have e1 : (r.decoder (frameLine false) .addr 0 0).receive c a =
      r.decoder (frameLine false) .ignore 0 0 := by
    simp [Rx.receive, ha, Rx.update, Rx.decoder]
  have h1 := sendb_receive c (r.decoder (frameLine false) .addr 0 0) a false hu (by simp) rfl rfl
    (by rw [e1]; exact hu)
  rw [e1] at h1
  obtain ⟨sh, h2⟩ := sendEvents_receive c (r.decoder (frameLine true) .ignore a 0) payload (by simp)
    rfl rfl (by rw [Rx.receiveAll_ignore _ _ _ rfl]; exact hu)
  rw [Rx.receiveAll_ignore _ _ _ rfl] at h2
  have h3 := end_closes c (r.decoder (frameLine true) .ignore sh 0) hu (by simp) rfl rfl
    (.inr (.inl (by simp)))
  refine ⟨shiftIn sh false, ?_⟩
  simp only [frame, sendEvents_cons, List.foldl_append]
  have : (Pins.idle, r) = ((⟨true, true, true, true⟩ : Pins), r) := rfl
  rw [this, hb, h1]
  simp only [Rx.decoder_decoder, Rx.decoder_phase] at h2 ⊢
  rw [h2]
  simpa using h3

/-- So does a list of such frames. -/
theorem frames_ignored {c : Config} (fs : List (List Byte)) {r : Rx}
    (hf : ∀ f ∈ fs, ∃ a payload, f = a :: payload ∧ a ≠ c.rxAddr)
    (hu : r.unspecified = false) (hp : r.regs.phase = .idle) (hw : r.prev = LineState.idle) :
    ∃ sh sl, (fs.flatMap frame).foldl (emit c) (Pins.idle, r) =
      (Pins.idle, r.decoder LineState.idle .idle sh sl) := by
  induction fs generalizing r with
  | nil => exact ⟨r.regs.shift, r.regs.slot, congrArg (Prod.mk _) (Rx.eq_decoder r _ _ _ _ hw hp rfl rfl)⟩
  | cons f fs ih =>
    obtain ⟨a, payload, rfl, ha⟩ := hf f (by simp)
    obtain ⟨sh, e⟩ := frame_ignored payload ha hu hp hw
    obtain ⟨sh', sl', e'⟩ := ih (r := r.decoder LineState.idle .idle sh 0) (fun f h => hf f (by simp [h])) hu rfl rfl
    refine ⟨sh', sl', ?_⟩
    rw [List.flatMap_cons, List.foldl_append, e, e']
    rfl

end Machine

end Sys2Proof
end

