-- ==== Sys2Proof/Laws/Wave.lean ====
section
/-!
SUPPORT. The waveform of events (R19), what RX makes of it, and the frames decoded from it (R160).
-/

namespace Sys2Proof

namespace Machine

open Safety

/-- R19: what RX makes of events is what it makes of their waveform. -/
theorem foldl_emit_waveform (c : Config) (es : List Event) (p : Pins) (r : Rx) (h : r.prev = p.wire) :
    (es.foldl (emit c) (p, r)).2 = (waveformFrom p es).foldl (fun r q => r.observe c q) r := by
  induction es generalizing p r with
  | nil => rfl
  | cons e es ih =>
    simp only [List.foldl_cons, waveformFrom, emit]
    have key := ih (p.apply e) (r.observe c (p.apply e).wire) (by simp)
    split
    · next hq =>
      have e1 : r.observe c (p.apply e).wire = r := by simp [Rx.observe, hq, h]
      rw [key, e1]
    · simpa using key

/-- The waveform of events performed one list after another. -/
theorem waveformFrom_append (p : Pins) (es fs : List Event) :
    waveformFrom p (es ++ fs) = waveformFrom p es ++ waveformFrom (p.applyAll es) fs := by
  induction es generalizing p with
  | nil => rfl
  | cons e es ih =>
    simp only [List.cons_append, waveformFrom, Pins.applyAll_cons]
    split <;> simp [ih]

/-- The frame decoder after the waveform of a list of events. -/
def FrameDecoder.seeAll (d : FrameDecoder) (p : Pins) (es : List Event) : FrameDecoder :=
  (waveformFrom p es).foldl FrameDecoder.see d

theorem FrameDecoder.seeAll_append (d : FrameDecoder) (p : Pins) (es fs : List Event) :
    FrameDecoder.seeAll d p (es ++ fs) =
      FrameDecoder.seeAll (FrameDecoder.seeAll d p es) (p.applyAll es) fs := by
  simp [FrameDecoder.seeAll, waveformFrom_append]

section
variable (bytes : List Byte) (sh : Byte) (done : List (List Byte))

theorem seeAll_begin (sl : Fin 9) :
    FrameDecoder.seeAll ⟨LineState.idle, none, sh, sl, done⟩ Pins.idle beginEvents =
      ⟨frameLine false, some [], 0, 0, done⟩ := by
  rfl

theorem seeAll_end :
    FrameDecoder.seeAll ⟨frameLine true, some bytes, sh, 0, done⟩ (Pins.inFrame true) endEvents =
      ⟨LineState.idle, none, shiftIn sh false, 0, bytes.reverse :: done⟩ := by
  rfl

theorem seeAll_end_empty :
    FrameDecoder.seeAll ⟨frameLine false, some bytes, sh, 0, done⟩ (Pins.inFrame false) endEvents =
      ⟨LineState.idle, none, shiftIn sh false, 0, bytes.reverse :: done⟩ := by
  rfl

theorem seeAll_cell (a b : Bool) (sl : Fin 9) (h : sl.val < 7) :
    FrameDecoder.seeAll ⟨frameLine a, some bytes, sh, sl, done⟩ (Pins.inFrame a) (bitCell b) =
      ⟨frameLine b, some bytes, shiftIn sh b, sl + 1, done⟩ := by
  have h8 : sl ≠ 8 := by intro h; subst h; simp at h
  have h7 : sl ≠ 7 := by intro h; subst h; simp at h
  cases a <;> cases b <;>
    simp [FrameDecoder.seeAll, waveformFrom, bitCell, Pins.inFrame, Pins.wire, levelOf, FrameDecoder.see, frameLine,
      LineState.driven, classify, h8, h7]

theorem seeAll_last (a b : Bool) :
    FrameDecoder.seeAll ⟨frameLine a, some bytes, sh, 7, done⟩ (Pins.inFrame a) (bitCell b) =
      ⟨frameLine b, some (shiftIn sh b :: bytes), shiftIn sh b, 8, done⟩ := by
  cases a <;> cases b <;> rfl

theorem seeAll_ack (a : Bool) :
    FrameDecoder.seeAll ⟨frameLine a, some bytes, sh, 8, done⟩ (Pins.inFrame a) (bitCell true) =
      ⟨frameLine true, some bytes, sh, 0, done⟩ := by
  cases a <;> rfl

theorem applyAll_cell (a b : Bool) : (Pins.inFrame a).applyAll (bitCell b) = Pins.inFrame b := rfl

/-- R88: one byte cell. -/
theorem seeAll_sendb (v : Byte) (a : Bool) :
    FrameDecoder.seeAll ⟨frameLine a, some bytes, sh, 0, done⟩ (Pins.inFrame a) (sendbEvents v) =
      ⟨frameLine true, some (v :: bytes), v, 0, done⟩ := by
  have hv := shiftIn_bits sh v
  simp only [bitsOf, List.foldl] at hv
  simp only [sendbEvents, bitsOf, List.flatMap_cons, List.flatMap_nil, List.append_nil,
    FrameDecoder.seeAll_append, applyAll_cell]
  simp only [applyAll_cell, Pins.applyAll_append]
  rw [seeAll_cell _ _ _ _ _ _ (by decide), seeAll_cell _ _ _ _ _ _ (by decide), seeAll_cell _ _ _ _ _ _ (by decide),
    seeAll_cell _ _ _ _ _ _ (by decide), seeAll_cell _ _ _ _ _ _ (by decide), seeAll_cell _ _ _ _ _ _ (by decide),
    seeAll_cell _ _ _ _ _ _ (by decide)]
  have e7 : (0 : Fin 9) + 1 + 1 + 1 + 1 + 1 + 1 + 1 = 7 := by decide
  rw [e7, seeAll_last, hv, seeAll_ack]

/-- The byte cells of a list. -/
theorem seeAll_sends (vs : List Byte) :
    ∃ sh', FrameDecoder.seeAll ⟨frameLine true, some bytes, sh, 0, done⟩ (Pins.inFrame true) (sendEvents vs) =
      ⟨frameLine true, some (vs.reverse ++ bytes), sh', 0, done⟩ := by
  induction vs generalizing bytes sh with
  | nil => exact ⟨sh, rfl⟩
  | cons v vs ih =>
    obtain ⟨sh', e⟩ := ih (v :: bytes) v
    refine ⟨sh', ?_⟩
    rw [sendEvents_cons, FrameDecoder.seeAll_append, seeAll_sendb]
    simpa [Pins.inFrame] using e

/-- R92, R160: a whole frame is decoded to the bytes that were sent. -/
theorem seeAll_frame (f : List Byte) (sl : Fin 9) :
    ∃ sh' sl', FrameDecoder.seeAll ⟨LineState.idle, none, sh, sl, done⟩ Pins.idle (frame f) =
      ⟨LineState.idle, none, sh', sl', f :: done⟩ := by
  simp only [frame, FrameDecoder.seeAll_append, seeAll_begin]
  cases f with
  | nil => exact ⟨_, _, seeAll_end_empty [] 0 done⟩
  | cons v vs =>
    obtain ⟨sh', e⟩ := seeAll_sends [v] v done vs
    rw [sendEvents_cons, FrameDecoder.seeAll_append]
    have := seeAll_sendb [] 0 done v false
    have p1 : Pins.idle.applyAll beginEvents = Pins.inFrame false := rfl
    have p2 : (Pins.inFrame false).applyAll (sendbEvents v) = Pins.inFrame true := rfl
    have p3 : Pins.idle.applyAll (beginEvents ++ (sendbEvents v ++ sendEvents vs)) =
        Pins.inFrame true := by
      simp [applyAll_sends, Pins.idle, Pins.inFrame]
    rw [p1, this, p2, e, p3, seeAll_end]
    exact ⟨shiftIn sh' false, 0, by simp⟩

end

/-! ### The steps of a waveform -/

/-- What RX makes something of in a waveform that begins at `q` (R137). -/
def marks (q : LineState) (w : List LineState) : List WireStep := (wireSteps q w).filter (· ≠ .quiet)

/-- Of events performed one list after another. -/
theorem marks_append (p : Pins) (es fs : List Event) :
    marks p.wire (waveformFrom p (es ++ fs)) =
      marks p.wire (waveformFrom p es) ++
        marks (p.applyAll es).wire (waveformFrom (p.applyAll es) fs) := by
  induction es generalizing p with
  | nil => rfl
  | cons e es ih =>
    have := ih (p.apply e)
    simp only [List.cons_append, waveformFrom, Pins.applyAll_cons]
    split
    · next h => rw [← h]; exact this
    · simp only [marks, wireSteps, List.filter_cons] at this ⊢
      split
      · rw [this, List.cons_append]
      · exact this

/-- R58: each bit cell of a frame is one rising edge with its bit. -/
theorem marks_cells (a : Bool) (bs : List Bool) :
    marks (frameLine a) (waveformFrom (Pins.inFrame a) (bs.flatMap bitCell)) = bs.map .rise := by
  induction bs generalizing a with
  | nil => rfl
  | cons b bs ih =>
    have h1 := marks_append (Pins.inFrame a) (bitCell b) (bs.flatMap bitCell)
    simp only [Pins.inFrame_wire, applyAll_cell] at h1
    have h2 : marks (frameLine a) (waveformFrom (Pins.inFrame a) (bitCell b)) = [.rise b] := by
      cases a <;> cases b <;> decide
    simp only [List.flatMap_cons, h1, h2, ih, List.map_cons, List.cons_append, List.nil_append]

/-- R59: byte cells as bit cells. -/
theorem sendEvents_cells (vs : List Byte) :
    sendEvents vs = (vs.flatMap fun v => bitsOf v ++ [true]).flatMap bitCell := by
  induction vs with
  | nil => rfl
  | cons v vs ih => simp [sendEvents_cons, sendbEvents, ih]

end Machine

end Sys2Proof
end

