-- ==== Sys2Proof/Machine/Asm.lean ====
section
/-!
DEFINITION. The textual syntax of operations (R83): one operation a line, read into the operation,
the bytes it wants in `PS`, and its host word.
-/

namespace Sys2Proof

namespace Machine

namespace Asm

/-- An operand as R83 writes it: a number, a string in double quotes, a byte list in braces. -/
inductive Operand where
  | num (n : Nat)
  | str (codes : List Byte)
  | bytes (vs : List Byte)
  deriving DecidableEq, Repr

/-- The brace that opens a byte list. -/
def openBrace : Char := Char.ofNat 0x7B
/-- The brace that closes a byte list. -/
def closeBrace : Char := Char.ofNat 0x7D
/-- The double quote. -/
def quoteMark : Char := Char.ofNat 0x22

/-- The value of a digit, in decimal or hexadecimal. -/
def digit (c : Char) : Option Nat :=
  if 48 ≤ c.toNat ∧ c.toNat ≤ 57 then some (c.toNat - 48)
  else if 65 ≤ c.toNat ∧ c.toNat ≤ 70 then some (c.toNat - 55)
  else if 97 ≤ c.toNat ∧ c.toNat ≤ 102 then some (c.toNat - 87)
  else none

/-- The number whose digits are the characters, after those that gave `n`. -/
def digits (base n : Nat) : List Char → Option Nat
  | [] => some n
  | c :: cs =>
    match digit c with
    | none => none
    | some d => if d < base then digits base (n * base + d) cs else none

/-- A number in decimal, or in hexadecimal after `0x`. -/
def number : List Char → Option Nat
  | [] => none
  | '0' :: 'x' :: c :: cs => digits 16 0 (c :: cs)
  | c :: cs => digits 10 0 (c :: cs)

/-- Blanks at the front dropped. -/
def skip : List Char → List Char := List.dropWhile (· == ' ')

/-- Blanks at both ends dropped. -/
def trim (cs : List Char) : List Char := (skip (skip cs).reverse).reverse

/-- The parts of a list between commas outside quotes and braces; `cur` is the part read so far,
newest first. -/
def pieces (quoted braced : Bool) (cur : List Char) : List Char → List (List Char)
  | [] => [cur.reverse]
  | c :: cs =>
    if c = quoteMark then pieces (!quoted) braced (c :: cur) cs
    else if quoted then pieces quoted braced (c :: cur) cs
    else if c = openBrace then pieces quoted true (c :: cur) cs
    else if c = closeBrace then pieces quoted false (c :: cur) cs
    else if c = ',' ∧ braced = false then cur.reverse :: pieces quoted braced [] cs
    else pieces quoted braced (c :: cur) cs

/-- All of a list, where each is something. -/
def allSome {α : Type} : List (Option α) → Option (List α)
  | [] => some []
  | none :: _ => none
  | some x :: xs => (allSome xs).map (x :: ·)

/-- A number as one byte. -/
def byteOf (n : Nat) : Option Byte := if n < 256 then some (BitVec.ofNat 8 n) else none

/-- A byte list, its braces taken off. -/
def byteList (cs : List Char) : Option (List Byte) :=
  if trim cs = [] then some []
  else allSome ((pieces false false [] cs).map fun p => (number (trim p)).bind byteOf)

/-- One operand. -/
def operand (cs : List Char) : Option Operand :=
  match trim cs with
  | [] => none
  | c :: rest =>
    if c = quoteMark then
      if rest.getLast? = some quoteMark then
        (allSome (rest.dropLast.map fun x => byteOf x.toNat)).map .str
      else none
    else if c = openBrace then
      if rest.getLast? = some closeBrace then (byteList rest.dropLast).map .bytes else none
    else (number (c :: rest)).map .num

/-- The mnemonic of a line and its operands. -/
def split (line : List Char) : Option (List Char × List Operand) :=
  let mnemonic := (skip line).takeWhile (· != ' ')
  let rest := trim ((skip line).dropWhile (· != ' '))
  if rest = [] then some (mnemonic, [])
  else (allSome ((pieces false false [] rest).map operand)).map fun os => (mnemonic, os)

/-- The operands that are single bytes, in order. -/
def nums (os : List Operand) : Option (List Byte) :=
  allSome (os.map fun o => match o with
    | .num n => byteOf n
    | .str _ => none
    | .bytes _ => none)

/-- The bytes a string operand puts in `PS`, its terminator included (R44, R83). -/
def stringBytes : Operand → Option (List Byte)
  | .num _ => none
  | .str codes => some (codes ++ [0])
  | .bytes vs => some (vs ++ [0])

/-- The bytes a pattern or image operand puts in `PS` (R83). -/
def dataBytes : Operand → Option (List Byte)
  | .num _ => none
  | .str _ => none
  | .bytes vs => some vs

/-- The operation with the given byte operands, in the order of the operands column of R77; none
for another mnemonic or another number of operands. -/
def plain (mnemonic : List Char) (vs : List Byte) : Option Instr :=
  match vs with
  | [] =>
    if mnemonic = ['B', 'E', 'G', 'I', 'N'] then some .beginSession
    else if mnemonic = ['E', 'N', 'D'] then some .endSession
    else if mnemonic = ['O', 'P', 'E', 'N', 'C'] then some .openc
    else if mnemonic = ['O', 'P', 'E', 'N', 'D'] then some .opend
    else if mnemonic = ['C', 'L', 'O', 'S', 'E'] then some .close
    else if mnemonic = ['I', 'N', 'I', 'T'] then some .init
    else none
  | [a] =>
    if mnemonic = ['S', 'E', 'N', 'D', 'B'] then some (.sendByte a)
    else if mnemonic = ['C', 'M', 'D', '1'] then some (.cmd1 a)
    else if mnemonic = ['W', 'D', 'A', 'T', 'A'] then some (.wdata a)
    else if mnemonic = ['C', 'O', 'N', 'T', 'R', 'A', 'S', 'T'] then some (.contrast a)
    else if mnemonic = ['I', 'N', 'V', 'S', 'C', 'R'] then some (.invscr a)
    else if mnemonic = ['S', 'L', 'E', 'E', 'P'] then some (.sleep a)
    else if mnemonic = ['I', 'N', 'V', 'D', 'A', 'T', 'A'] then some (.invdata a)
    else if mnemonic = ['F', 'I', 'L', 'L', 'S', 'C', 'R'] then some (.fillscr a)
    else none
  | [a, b] => if mnemonic = ['S', 'E', 'T', 'P', 'O', 'S'] then some (.setpos a b) else none
  | [a, b, c, d, e] =>
    if mnemonic = ['F', 'I', 'L', 'L', 'A', 'R', 'E', 'A'] then some (.fillarea a b c d e) else none
  | _ => none

/-- The operation with an operand in `PS` at `ptr`, its byte operands before it. -/
def pointed (mnemonic : List Char) (vs : List Byte) (ptr : PsAddr) : Option Instr :=
  match vs with
  | [a, b] =>
    if mnemonic = ['T', 'E', 'X', 'T'] then some (.text a b ptr)
    else if mnemonic = ['T', 'E', 'X', 'T', '2', 'X'] then some (.text2x a b ptr)
    else none
  | [a, b, c, d] =>
    if mnemonic = ['I', 'M', 'A', 'G', 'E'] then some (.image a b c d ptr) else none
  | [a, b, c, d, e] =>
    if mnemonic = ['F', 'I', 'L', 'L', 'P', 'A', 'T'] then some (.fillpat a b c d e ptr) else none
  | _ => none

/-- The bytes the last operand puts in `PS`: with a terminator for the two text operations. -/
def placed (mnemonic : List Char) (o : Operand) : Option (List Byte) :=
  if mnemonic.take 4 = ['T', 'E', 'X', 'T'] then stringBytes o else dataBytes o

/-- R83: a line as an operation, and the bytes it wants in `PS` at `ptr`. -/
def assemble (line : List Char) (ptr : PsAddr) : Option (Instr × List Byte) :=
  match split line with
  | none => none
  | some (mnemonic, os) =>
    match nums os with
    | some vs => (plain mnemonic vs).map fun i => (i, [])
    | none =>
      match os.getLast?, nums os.dropLast with
      | some o, some vs =>
        match pointed mnemonic vs ptr, placed mnemonic o with
        | some i, some data => some (i, data)
        | _, _ => none
      | _, _ => none

end Asm

/-- HOST issues the operation a line of text names, the platform having placed its operand bytes in
`PS` at `ptr`; none where the line is no operation. -/
def State.issueText (s : State) (line : List Char) (ptr : PsAddr) : Option State :=
  (Asm.assemble line ptr).map fun (i, data) =>
    { s.placePs ptr.toNat data with inputs := s.inputs ++ [.issue (encode s.cfg.ops i)] }

end Machine

end Sys2Proof
end

