-- ==== Sys2Proof/Tests/Slice0.lean ====
section
/-!
SUPPORT. The model's own tests. Expected results are those of spec/95_test_vectors.md (named V-… or
P1 to P5 there) or are worked out from the encoding tables of spec/30_encoding.md and
spec/opcode_table.json by hand. Then, for every statement with hypotheses, a witness that meets them.
-/

namespace Sys2Proof

namespace Tests

open Machine Safety

set_option Elab.async false

/-! ### Well-formedness refuses what it must -/

theorem test_wf_pattern_length_zero : (Instr.fillpat 0 0 1 1 0 0).wf = false := by decide
theorem test_wf_pattern_length_one : (Instr.fillpat 0 0 1 1 1 0).wf = true := by decide

theorem test_wf_table : OpTable.std.wf = true := by decide +kernel
/-- `PAGE_BASE` with an operand bit set (R8). -/
theorem test_wf_row_outside_mask :
    ({ OpTable.std with setpage := 0xB1 } : OpTable).rowOk .setpage = false ∧
      ({ OpTable.std with setpage := 0xB1 } : OpTable).wf = false := by decide +kernel
/-- `INVERTOFF` with the opcode of `SETMUX`. -/
theorem test_wf_rows_overlap :
    ({ OpTable.std with invertoff := 0xA8 } : OpTable).apart .invertoff .setmux = false ∧
      ({ OpTable.std with invertoff := 0xA8 } : OpTable).wf = false := by decide +kernel

theorem test_wf_config : Config.std.wf = true := by decide +kernel
/-- An address byte with bit 0 set, for either strap value (R62). -/
theorem test_wf_address_low_bit :
    ({ Config.std with addrLow := 0x79 } : Config).addrOk = false ∧
      ({ Config.std with addrHigh := 0x7B } : Config).addrOk = false := by decide
theorem test_wf_addresses_equal : ({ Config.std with addrHigh := 0x78 } : Config).addrOk = false := by
  decide
/-- A control byte with a bit beside the mode bit (R63). -/
theorem test_wf_control_bytes :
    ({ Config.std with ctrlCmd := 0x01 } : Config).ctrlOk = false ∧
      ({ Config.std with ctrlData := 0x41 } : Config).ctrlOk = false ∧
      ({ Config.std with dcBit := 7 } : Config).ctrlOk = false := by decide
/-- A printable upper bound below 32 (R9). -/
theorem test_wf_printable_bound :
    ({ Config.std with pmax1x := 31, font6 := [] } : Config).fontsOk = false ∧
      ({ Config.std with pmax2x := 31, font16 := [] } : Config).fontsOk = false := by decide +kernel
/-- A font table that does not reach the last glyph (R195). -/
theorem test_wf_font_lengths :
    ({ Config.std with font6 := [] } : Config).fontsOk = false ∧
      ({ Config.std with font16 := [] } : Config).fontsOk = false := by decide +kernel

/-! ### Decoding: each constructor's word, written out from R76, R77 and R67 -/

theorem test_decode_link :
    decodeTableWord 64 0x0100000000000000 = some .beginSession ∧
      decodeTableWord 64 0x02A5000000000000 = some (.sendByte 0xA5) ∧
      decodeTableWord 64 0x0300000000000000 = some .endSession := by decide
theorem test_decode_framing :
    decodeTableWord 64 0x1000000000000000 = some .openc ∧
      decodeTableWord 64 0x1100000000000000 = some .opend ∧
      decodeTableWord 64 0x1200000000000000 = some .close ∧
      decodeTableWord 64 0x13AF000000000000 = some (.cmd1 0xAF) ∧
      decodeTableWord 64 0x140F000000000000 = some (.wdata 0x0F) := by decide
theorem test_decode_addressing : decodeTableWord 64 0x20054DFFFFFFFFFF = some (.setpos 5 77) := by
  decide
theorem test_decode_mode :
    decodeTableWord 64 0x3000000000000000 = some .init ∧
      decodeTableWord 64 0x3140000000000000 = some (.contrast 0x40) ∧
      decodeTableWord 64 0x3201000000000000 = some (.invscr 1) ∧
      decodeTableWord 64 0x3302000000000000 = some (.sleep 2) ∧
      decodeTableWord 64 0x3407000000000000 = some (.invdata 7) := by decide
theorem test_decode_rendering :
    decodeTableWord 64 0x4002030000000100 = some (.text 2 3 0x100) ∧
      decodeTableWord 64 0x41067000000001FE = some (.text2x 6 112 0x1FE) ∧
      decodeTableWord 64 0x42FF000000000000 = some (.fillscr 0xFF) ∧
      decodeTableWord 64 0x4306780414AA0000 = some (.fillarea 6 120 4 20 0xAA) ∧
      decodeTableWord 64 0x4400050205030300 = some (.fillpat 0 5 2 5 3 0x300) ∧
      decodeTableWord 64 0x45007E0203000200 = some (.image 0 126 2 3 0x200) := by decide
theorem test_decode_cursor_commands :
    decodeTableWord 8 0x0D = some (.setcollo 0xD) ∧
      decodeTableWord 8 0x14 = some (.setcolhi 4) ∧
      decodeTableWord 8 0xB5 = some (.setpage 5) := by decide
theorem test_decode_mode_commands :
    decodeTableWord 8 0xA0 = some (.segremap false) ∧
      decodeTableWord 8 0xA1 = some (.segremap true) ∧
      decodeTableWord 8 0xA6 = some .invertoff ∧
      decodeTableWord 8 0xA7 = some .inverton ∧
      decodeTableWord 8 0xAE = some .dispoff ∧
      decodeTableWord 8 0xAF = some .dispon ∧
      decodeTableWord 8 0xC0 = some (.comdir false) ∧
      decodeTableWord 8 0xC8 = some (.comdir true) := by decide
theorem test_decode_argument_commands :
    decodeTableWord 16 0x0220 = some (.addrmode 2) ∧
      decodeTableWord 16 0x7F81 = some (.setcontrast 0x7F) ∧
      decodeTableWord 16 0x148D = some (.chargepump 0x14) ∧
      decodeTableWord 16 0x3FA8 = some (.setmux 0x3F) ∧
      decodeTableWord 16 0x05D3 = some (.dispoffset 5) ∧
      decodeTableWord 16 0x80D5 = some (.clkdiv 0x80) := by decide
/-- V-EXC-2, and a command byte in no row (R68). -/
theorem test_decode_refuses :
    decodeTableWord 64 0xFF00000000000000 = none ∧ decodeTableWord 64 0 = none ∧
      decodeTableWord 8 0xE3 = none := by decide
/-- The parse of the default Command Table given in V-INIT: 8 commands. -/
theorem test_parse_default_table :
    OpTable.std.parse Config.stdCmdTable = some [.setmux 0x3F, .segremap true, .comdir true,
      .addrmode 2, .setcontrast 0x7F, .clkdiv 0x80, .chargepump 0x14, .dispon] := by decide

/-! ### Small machines -/

/-- The test font of spec/95_test_vectors.md: byte `k` is `k mod 256`. -/
def testFont (n : Nat) : List Byte := (List.range n).map (BitVec.ofNat 8)

/-- The start state of spec/95_test_vectors.md: lines idle, RX addressed and idle, in page
addressing mode, `PMAX` 127, the test font. -/
def bench : State :=
  { State.reset with
    cfg := { Config.std with
      pmax1x := 127
      font6 := testFont 576
      font16 := testFont 1536 }
    pins := Pins.idle
    rx := { Rx.reset with prev := LineState.idle } }

/-- The same inside a frame, between two bytes. -/
def inside (ph : RxPhase) : State :=
  { bench with
    pins := ⟨false, true, true, true⟩
    rx := { bench.rx with prev := ⟨.lo, .hi⟩, regs := { bench.rx.regs with phase := ph } } }

/-- In a data frame with the cursor at a column. -/
def atCol (col : BitVec 7) (ov : Bool) (o : ColOverflow) : State :=
  { inside .data with
    cfg := { bench.cfg with colOverflow := o }
    rx := { (inside .data).rx with
      regs := { (inside .data).rx.regs with col := col, overflowed := ov } } }

/-- RX unspecified. -/
def lost : State := { bench with rx := bench.rx.lose }

/-- The frames on the waveform of the outcome, from idle lines. -/
def framesSent : Host.Outcome State Fault Refusal → List (List Byte)
  | .next t => framesOf LineState.idle (waveformFrom Pins.idle t.trace)
  | .fault _ => []
  | .refused _ => []

/-- The frames of the first `n` events, and those of the events after them. -/
def framesSplit (n : Nat) : Host.Outcome State Fault Refusal → List (List Byte) × List (List Byte)
  | .next t => (framesOf LineState.idle (waveformFrom Pins.idle (t.trace.take n)),
      framesOf LineState.idle (waveformFrom Pins.idle (t.trace.drop n)))
  | .fault _ => ([], [])
  | .refused _ => ([], [])

/-- What can be read off the next state of the outcome. -/
def seen {α : Type} (f : State → α) : Host.Outcome State Fault Refusal → Option α
  | .next t => some (f t)
  | .fault _ => none
  | .refused _ => none

/-- The reason of a refusal. -/
def reason : Host.Outcome State Fault Refusal → Option Refusal
  | .next _ => none
  | .fault _ => none
  | .refused r => some r

/-! ### One step each -/

/-- V-LINK-1. -/
theorem test_begin : seen State.trace (exec .beginSession bench) =
    some [.write .scl true, .write .sda true, .write .sda false, .write .scl false] := by decide
/-- V-LINK-3: the `SDA` values of the nine cells of `0xA5`. -/
theorem test_sendb_a5 : seen (fun t => t.trace.filter fun e => e ∈
      [Event.write .sda true, .write .sda false]) (exec (.sendByte 0xA5) (inside .cmd)) =
    some ([true, false, true, false, false, true, false, true, true].map (Event.write .sda)) := by
  decide +kernel
/-- V-LINK-8: an RX with no frame open takes nothing. -/
theorem test_sendb_outside_a_frame : seen (fun t => t.rx.regs) (exec (.sendByte 0x80) bench) =
    some bench.rx.regs := by decide +kernel
/-- V-LINK-6. -/
theorem test_end : seen (fun t => (t.trace, t.pins)) (exec .endSession (inside .cmd)) =
    some ([.write .scl false, .write .sda false, .write .scl true, .write .sda true],
      Pins.idle) := by decide +kernel
/-- V-FRAME-2. -/
theorem test_openc : seen (fun t => (t.trace.length, t.pins.wire, t.rx.regs.phase))
    (exec .openc bench) = some (58, ⟨.lo, .hi⟩, .cmd) := by decide +kernel
theorem test_opend : seen (fun t => (t.trace.length, t.pins.wire, t.rx.regs.phase))
    (exec .opend bench) = some (58, ⟨.lo, .hi⟩, .data) := by decide +kernel
theorem test_close : seen (fun t => (t.trace.length, t.rx.regs.phase))
    (exec .close (inside .data)) = some (4, .idle) := by decide +kernel
/-- V-FRAME-1. -/
theorem test_cmd1 : framesSent (exec (.cmd1 0xAF) bench) = [[0x78, 0x00, 0xAF]] := by
  decide +kernel
theorem test_cmd1_at_rx : seen (fun t => (t.trace.length, t.rx.regs.displayOn))
    (exec (.cmd1 0xAF) bench) = some (89, true) := by decide +kernel
/-- V-FRAME-4. -/
theorem test_wdata_complemented : seen (fun t => t.rx.regs.shift)
    (exec (.wdata 0xA5) { inside .data with dinv := true }) = some 0x5A := by decide +kernel
/-- V-FRAME-3. -/
theorem test_wdata_at_rx : seen (fun t => (t.ram 0 0, t.rx.regs.col))
    (exec (.wdata 0x0F) (inside .data)) = some (0x0F, 1) := by decide +kernel
/-- V-POS-2. -/
theorem test_setpos : framesSent (exec (.setpos 5 77) bench) = [[0x78, 0x00, 0xB5, 0x14, 0x0D]] := by
  decide +kernel
/-- V-POS-3, V-POS-4, V-POS-5. -/
theorem test_setpos_bounds :
    seen (fun t => (t.rx.regs.page, t.rx.regs.col)) (exec (.setpos 7 127) bench) = some (7, 127) ∧
      seen State.trace (exec (.setpos 8 0) bench) = some [] ∧
      seen State.trace (exec (.setpos 0 128) bench) = some [] := by decide +kernel
/-- V-INIT. -/
theorem test_init : framesSent (exec .init State.reset) =
    [[0x78, 0x00, 0xA8, 0x3F, 0xA1, 0xC8, 0x20, 0x02, 0x81, 0x7F, 0xD5, 0x80, 0x8D, 0x14, 0xAF]] := by
  decide +kernel
theorem test_init_pins : seen (fun t => (t.trace.take 4, t.pins)) (exec .init State.reset) =
    some ([.enable .scl, .enable .sda, .write .scl true, .write .sda true], Pins.idle) := by
  decide +kernel
/-- V-MODE-1. -/
theorem test_contrast : framesSent (exec (.contrast 0x40) bench) = [[0x78, 0x00, 0x81, 0x40]] := by
  decide +kernel
theorem test_contrast_at_rx : seen (fun t => t.rx.regs.contrast) (exec (.contrast 0x40) bench) =
    some 0x40 := by decide +kernel
/-- V-MODE-2. -/
theorem test_invscr : framesSent (exec (.invscr 255) bench) = [[0x78, 0x00, 0xA7]] ∧
    framesSent (exec (.invscr 0) bench) = [[0x78, 0x00, 0xA6]] := by decide +kernel
/-- V-MODE-3. -/
theorem test_sleep : framesSent (exec (.sleep 1) bench) = [[0x78, 0x00, 0xAE]] ∧
    framesSent (exec (.sleep 0) bench) = [[0x78, 0x00, 0xAF]] := by decide +kernel
/-- V-MODE-4. -/
theorem test_invdata : seen State.dinv (exec (.invdata 7) { bench with dinv := true }) = some true ∧
    seen State.dinv (exec (.invdata 0) { bench with dinv := true }) = some false ∧
    seen State.trace (exec (.invdata 1) bench) = some [] := by decide
/-- V-TEXT-1: `Hi` at row 2. -/
theorem test_text : framesSplit 367 (exec (.text 2 0 0x100) (bench.placePs 0x100 [72, 105])) =
    ([[0x78, 0x00, 0xB2, 0x10, 0x00], [0x78, 0x40, 0xF0, 0xF1, 0xF2, 0xF3, 0xF4, 0xF5]],
      [[0x78, 0x40, 0xB6, 0xB7, 0xB8, 0xB9, 0xBA, 0xBB]]) := by decide +kernel
/-- V-TEXT-3: columns 122 and 123. -/
theorem test_text_clips :
    framesSent (exec (.text 0 122 0) (bench.placePs 0 [65, 66])) =
        [[0x78, 0x00, 0xB0, 0x17, 0x0A], [0x78, 0x40, 0xC6, 0xC7, 0xC8, 0xC9, 0xCA, 0xCB]] ∧
      framesSent (exec (.text 0 123 0) (bench.placePs 0 [65])) =
        [[0x78, 0x00, 0xB0, 0x17, 0x0B]] := by decide +kernel
/-- V-2X-1. -/
theorem test_text2x : framesSplit 421 (exec (.text2x 0 0 0) (bench.placePs 0 [65])) =
    ([[0x78, 0x00, 0xB0, 0x10, 0x00],
        [0x78, 0x40, 0x10, 0x11, 0x12, 0x13, 0x14, 0x15, 0x16, 0x17]],
      [[0x78, 0x00, 0xB1, 0x10, 0x00],
        [0x78, 0x40, 0x18, 0x19, 0x1A, 0x1B, 0x1C, 0x1D, 0x1E, 0x1F]]) := by decide +kernel
/-- V-2X-3. -/
theorem test_text2x_clips :
    seen State.trace (exec (.text2x 7 0 0) (bench.placePs 0 [65])) = some [] ∧
      framesSent (exec (.text2x 6 121 0) (bench.placePs 0 [65])) =
        [[0x78, 0x00, 0xB6, 0x17, 0x09], [0x78, 0x00, 0xB7, 0x17, 0x09]] := by decide +kernel
/-- V-FILL-6: the first event of `FILLSCR` and a completed step. -/
theorem test_fillscr : seen (fun t => t.trace.head?) (exec (.fillscr 0xFF) bench) =
    some (some (.write .scl true)) := by decide +kernel
/-- V-FILL-1. -/
theorem test_fillarea : framesSplit 421 (exec (.fillarea 6 120 4 20 0xAA) bench) =
    ([[0x78, 0x00, 0xB6, 0x17, 0x08],
        [0x78, 0x40, 0xAA, 0xAA, 0xAA, 0xAA, 0xAA, 0xAA, 0xAA, 0xAA]],
      [[0x78, 0x00, 0xB7, 0x17, 0x08],
        [0x78, 0x40, 0xAA, 0xAA, 0xAA, 0xAA, 0xAA, 0xAA, 0xAA, 0xAA]]) := by decide +kernel
/-- V-FILL-2. -/
theorem test_fillarea_empty :
    seen State.trace (exec (.fillarea 8 0 1 1 0xAA) bench) = some [] ∧
      seen State.trace (exec (.fillarea 0 128 1 1 0xAA) bench) = some [] ∧
      seen State.trace (exec (.fillarea 0 0 0 5 0xAA) bench) = some [] ∧
      seen State.trace (exec (.fillarea 0 0 5 0 0xAA) bench) = some [] ∧
      seen State.trace (exec (.fillarea 255 255 255 255 0xAA) bench) = some [] := by decide +kernel
/-- V-FILL-3. -/
theorem test_fillpat :
    framesSplit 340 (exec (.fillpat 0 5 2 5 3 0x300) (bench.placePs 0x300 [0x11, 0x22, 0x33])) =
      ([[0x78, 0x00, 0xB0, 0x10, 0x05], [0x78, 0x40, 0x11, 0x22, 0x33, 0x11, 0x22]],
        [[0x78, 0x00, 0xB1, 0x10, 0x05], [0x78, 0x40, 0x11, 0x22, 0x33, 0x11, 0x22]]) := by
  decide +kernel
/-- V-FILL-4, and a pattern that ends at and past the end of `PS`. -/
theorem test_fillpat_refused :
    reason (exec (.fillpat 2 3 1 4 0 0) bench) = some .patternLengthZero ∧
      reason (exec (.fillpat 2 3 1 4 2 0xFFFE) bench) = none ∧
      reason (exec (.fillpat 2 3 1 4 2 0xFFFF) bench) = some .operandPastPs := by decide +kernel
/-- V-IMG-2. -/
theorem test_image :
    framesSplit 259 (exec (.image 0 126 2 3 0x200) (bench.placePs 0x200 [1, 2, 3, 4, 5, 6])) =
      ([[0x78, 0x00, 0xB0, 0x17, 0x0E], [0x78, 0x40, 1, 2]],
        [[0x78, 0x00, 0xB1, 0x17, 0x0E], [0x78, 0x40, 4, 5]]) := by decide +kernel
/-- V-IMG-3. -/
theorem test_image_clips :
    framesSent (exec (.image 7 0 2 2 0) (bench.placePs 0 [1, 2, 3, 4])) =
      [[0x78, 0x00, 0xB7, 0x10, 0x00], [0x78, 0x40, 1, 2]] := by decide +kernel

/-- `bench` with the cursor at a column, marked overflowed. -/
def marked (col : BitVec 7) : State :=
  { bench with rx := bench.rx.update fun g => { g with col := col, overflowed := true } }

/-- V-POS-2 by its three commands (R151 to R153), each a frame of its own. -/
theorem test_cursor_commands :
    seen (fun t => t.rx.regs.page) (exec (.setpage 5) bench) = some 5 ∧
      seen (fun t => t.rx.regs.col) (exec (.setcolhi 4) bench) = some 0x40 ∧
      seen (fun t => t.rx.regs.col) (exec (.setcollo 0xD) (marked 0x40)) = some 0x4D ∧
      seen (fun t => t.rx.regs.overflowed) (exec (.setcollo 0xD) (marked 0x40)) =
        some false := by decide +kernel
/-- R152: bit 3 of the column-high operand has no effect. -/
theorem test_setcolhi_bit3 : seen (fun t => t.rx.regs.col) (exec (.setcolhi 0xF) bench) =
    some 0x70 := by decide +kernel
/-- The bytes of commands with an operand in the opcode byte, and with an argument byte (R67). -/
theorem test_command_frames :
    framesSent (exec (.setpage 5) bench) = [[0x78, 0x00, 0xB5]] ∧
      framesSent (exec (.comdir true) bench) = [[0x78, 0x00, 0xC8]] ∧
      framesSent (exec (.clkdiv 0x81) bench) = [[0x78, 0x00, 0xD5, 0x81]] := by decide +kernel
/-- V-INIT: the registers its commands write. -/
theorem test_mode_commands :
    seen (fun t => t.rx.regs.muxRatio) (exec (.setmux 0xFF) bench) = some 0x3F ∧
      seen (fun t => t.rx.regs.segRemap) (exec (.segremap true) bench) = some true ∧
      seen (fun t => t.rx.regs.comDir) (exec (.comdir true) bench) = some true ∧
      seen (fun t => t.rx.regs.addrMode) (exec (.addrmode 0x01) bench) = some 1 ∧
      seen (fun t => t.rx.regs.contrast) (exec (.setcontrast 0x80) bench) = some 0x80 := by
  decide +kernel
theorem test_mode_commands_more :
    seen (fun t => t.rx.regs.clkDiv) (exec (.clkdiv 0x81) bench) = some 0x81 ∧
      seen (fun t => t.rx.regs.chargePump) (exec (.chargepump 0x14) bench) = some 0x14 ∧
      seen (fun t => t.rx.regs.displayOn) (exec .dispon bench) = some true ∧
      seen (fun t => t.rx.regs.inverse) (exec .inverton bench) = some true ∧
      seen (fun t => t.rx.regs.dispOffset) (exec (.dispoffset 0x45) bench) = some 5 := by
  decide +kernel
theorem test_mode_commands_off :
    seen (fun t => t.rx.regs.displayOn)
        (exec .dispoff { bench with rx := bench.rx.doDispon }) = some false ∧
      seen (fun t => t.rx.regs.inverse)
        (exec .invertoff { bench with rx := bench.rx.doInverton }) = some false := by
  decide +kernel

/-! ### The receiver and the observables -/

/-- V-RX-2 at columns 126 and 127: the byte at the end of the page under the three readings. -/
theorem test_col_overflow :
    seen (fun t => (t.ram 0 127, t.rx.regs.col)) (exec (.sendByte 0xA2) (atCol 127 false .wrap)) =
        some (0xA2, 0) ∧
      seen (fun t => (t.ram 0 127, t.rx.regs.col))
        (exec (.sendByte 0xA4) (atCol 127 false .saturate)) = some (0xA4, 127) ∧
      seen (fun t => (t.rx.ram, t.rx.regs.overflowed))
        (exec (.sendByte 0xA3) (atCol 127 true .discard)) = some ([], true) := by decide +kernel
/-- V-GIDX. -/
theorem test_gidx :
    ([0x01, 0x1F, 0x20, 0x21, 0x41, 0x5A, 0x5B, 0x69, 0x7E, 0x7F, 0x80, 0xFF] : List Byte).map
        (fun ch => (gidx ch 127, gidx ch 126, gidx ch 90)) =
      [(0, 0, 0), (0, 0, 0), (0, 0, 0), (1, 1, 1), (33, 33, 33), (58, 58, 58), (59, 59, 0),
        (73, 73, 0), (94, 94, 0), (95, 0, 0), (0, 0, 0), (0, 0, 0)] := by decide
/-- V-RX-5: `RAM[2][10]` = `0x81` lights rows 16 and 23 of column 10. -/
theorem test_lit :
    let s : State := { bench with rx := (bench.rx.writeRam 2 10 0x81).doDispon }
    s.lit 16 10 = true ∧ s.lit 17 10 = false ∧ s.lit 23 10 = true := by decide +kernel
/-- R159: with `DISPLAY_ON` 0 no pixel is lit, whatever RAM holds. -/
theorem test_not_lit (y : Fin 64) (x : BitVec 7) : State.reset.lit y x = false := rfl
/-- V-EXC-2: a step on a reserved word, and on `SETPOS 8, 0`. -/
theorem test_step_reserved :
    reason (step (bench.withFetchWord 64 0xFF00000000000000)) = some .reservedOp ∧
      seen State.trace (step (bench.withFetchWord 64 0x2008000000000000)) = some [] := by
  decide +kernel
/-- V-RST-1: before `INIT` the latches move, the wire does not, and RX sees nothing. -/
theorem test_before_init :
    seen (fun t => (t.trace.length, t.pins.latchScl, t.pins.wire, t.rx))
        (step (State.reset.withFetchWord 64 0x2000000000000000)) =
      some (143, true, ⟨.z, .z⟩, Rx.reset) := by decide +kernel
/-- R168: an operation stopped after three events. -/
theorem test_stopped :
    seen State.trace (step { bench with inputs := [.abandon 3 0x13AF000000000000] }) =
      some [.write .scl true, .write .sda true, .write .sda false] := by decide +kernel
/-- R168, U14: `CONTRAST 40H` stopped before the eighth edge of its opcode byte, and a `CLOSE`. -/
theorem test_stopped_recovers :
    seen (fun t => (t.rx.unspecified, t.rx.untilStop))
        (step { bench with inputs := [.abandon 79 0x3140000000000000] }) = some (true, true) ∧
      seen (fun t => (t.rx.unspecified, t.rx.regs.phase, t.rx.regs.addrMode))
        (match step { bench with inputs := [.abandon 79 0x3140000000000000] } with
          | .next u => exec .close u
          | .fault f => .fault f
          | .refused r => .refused r) = some (false, .idle, 2) := by decide +kernel
/-- R177, R179: a reset before the eighth edge of the opcode byte of `CONTRAST 40H`: RX keeps its
registers and stays in the command frame, seven bits of `81H` taken. -/
theorem test_reset_inside_a_frame :
    let o := step { bench with inputs := [.resetDuring 79 0x3140000000000000] }
    seen (fun t => (t.trace, t.pins.wire, t.rx.unspecified)) o = some ([], ⟨.z, .z⟩, false) ∧
      seen (fun t => (t.rx.regs.phase, t.rx.regs.slot, t.rx.regs.shift, t.rx.regs.contrast)) o =
        some (.cmd, 7, 0x40, 0x7F) := by decide +kernel
/-- R34, R179: RX powered up before the last four events, those of the STOP, of `SLEEP 1`: the command
has run at TX whole, and RX is idle and specified. -/
theorem test_power_up_inside_a_frame :
    seen (fun t => (t.trace.length, t.pins, t.rx.unspecified, t.rx.regs.phase, t.rx.regs.pending))
      (step { bench with inputs := [.powerUpDuring 85 0x3301000000000000] }) =
      some (bench.trace.length + 89, Pins.idle, false, .idle, none) := by decide +kernel
/-- R68, R158: a command byte in no row. -/
theorem test_unknown_command :
    seen (fun t => t.rx.unspecified) (step (bench.withFetchWord 8 0xE3)) = some true := by
  decide +kernel

/-! ### Textual syntax -/

/-- The examples of R83 (their braces and quotes by code, since no literal may hold a brace). -/
theorem test_asm_plain :
    Asm.assemble "SETPOS 2, 0".toList 0 = some (.setpos 2 0, []) ∧
      Asm.assemble "FILLAREA 6, 120, 4, 20, 0xAA".toList 0 =
        some (.fillarea 6 120 4 20 0xAA, []) ∧
      Asm.assemble "INVDATA 1".toList 0 = some (.invdata 1, []) ∧
      Asm.assemble "SETPOS 2".toList 0 = none ∧
      Asm.assemble "SETPOS 2, 256".toList 0 = none := by decide +kernel
theorem test_asm_string :
    Asm.assemble ("TEXT 2, 0, ".toList ++ [Asm.quoteMark, 'H', 'i', Asm.quoteMark]) 0x100 =
      some (.text 2 0 0x100, [72, 105, 0]) := by decide +kernel
theorem test_asm_bytes :
    Asm.assemble ("FILLPAT 0, 0, 8, 128, 2, ".toList ++ [Asm.openBrace] ++ "0x55, 0xAA".toList ++
      [Asm.closeBrace]) 0x300 = some (.fillpat 0 0 8 128 2 0x300, [0x55, 0xAA]) ∧
    Asm.assemble ("IMAGE 1, 4, 2, 3, ".toList ++ [Asm.openBrace] ++ "1,2,3,4,5,6".toList ++
      [Asm.closeBrace]) 0x200 = some (.image 1 4 2 3 0x200, [1, 2, 3, 4, 5, 6]) := by decide +kernel

/-! ### Witnesses: for every statement with hypotheses, what meets them -/

theorem bench_ready : Ready bench where
  cfg := by decide +kernel
  addressed := rfl
  pins := rfl
  seen := rfl
  ram := rfl
  specified := rfl
  phase := rfl
  pending := rfl
  pageMode := rfl

theorem inside_open (ph : RxPhase) : InFrame (inside ph) ph where
  pins := rfl
  seen := rfl
  ram := rfl
  specified := rfl
  phase := rfl
  slot := rfl

theorem atCol_open (col : BitVec 7) (ov : Bool) (o : ColOverflow) :
    InFrame (atCol col ov o) .data where
  pins := rfl
  seen := rfl
  ram := rfl
  specified := rfl
  phase := rfl
  slot := rfl

/-- `bench` with a string in `PS`. -/
def withString (a : Nat) (codes : List Byte) : State := bench.placePs a codes

theorem withString_ready (a : Nat) (codes : List Byte) : Ready (withString a codes) := by
  have e : ∀ (vs : List Byte) (a : Nat) (s : State),
      (s.placePs a vs).cfg = s.cfg ∧ (s.placePs a vs).pins = s.pins ∧
        (s.placePs a vs).rx = s.rx := by
    intro vs
    induction vs with
    | nil => intros; exact ⟨rfl, rfl, rfl⟩
    | cons v vs ih => intro a s; exact ih (a + 1) { s with ps := Memory.write .ps s.ps a v }
  obtain ⟨h1, h2, h3⟩ := e codes a bench
  have h := bench_ready
  exact {
    cfg := by rw [withString, h1]; exact h.cfg
    addressed := by rw [withString, h1]; exact h.addressed
    pins := by rw [withString, h2]; exact h.pins
    seen := by rw [withString, h3]; exact h.seen
    ram := by rw [withString, h3]; exact h.ram
    specified := by rw [withString, h3]; exact h.specified
    phase := by rw [withString, h3]; exact h.phase
    pending := by rw [withString, h3]; exact h.pending
    pageMode := by rw [withString, h3]; exact h.pageMode }

theorem string_ab : stringIs (withString 0x100 [65, 66]) 0x100 [65, 66] := by
  unfold stringIs; decide +kernel

theorem string_abc : stringIs (withString 0x100 [65, 66, 67]) 0x100 [65, 66, 67] := by
  unfold stringIs; decide +kernel

/-- The longest string at the end of `PS`: its terminator is the last byte. -/
theorem string_last : stringIs (withString 0xFFFE [65]) 0xFFFE [65] := by
  unfold stringIs; decide +kernel

theorem string_empty (s : State) (h : s.ps = []) : stringIs s 0 [] :=
  ⟨by decide, fun i h => absurd h (by simp), by rw [h]; decide⟩

theorem reset_ok : StateOk State.reset :=
  ⟨rfl, rfl, ⟨rfl, fun _ op h => by simp [State.reset, Rx.reset, RxRegs.reset] at h⟩⟩

theorem test_witness_decode_of_encode : OpTable.std.wf = true := test_wf_table

/-- A reserved word and one that is not. -/
theorem test_witness_reserved :
    (bench.withFetchWord 64 0xFF00000000000000).inputs = [.issue (.host 0xFF00000000000000)] ∧
      (bench.withFetchWord 64 0x0100000000000000).inputs = [.issue (.host 0x0100000000000000)] ∧
      HostWord.op 0xFF00000000000000 = 0xFF ∧ HostWord.op 0x0100000000000000 = 0x01 := by
  decide +kernel

/-- For each clause, two words that differ in every bit of the unused fields. -/
theorem test_witness_unused_fields :
    HostWord.op 0x1000000000000000 = HostWord.op 0x10FFFFFFFFFFFFFF ∧
      HostWord.op 0x0278000000000000 = HostWord.op 0x0278FFFFFFFFFFFF ∧
      HostWord.a 0x0278000000000000 = HostWord.a 0x0278FFFFFFFFFFFF ∧
      HostWord.b 0x20054D0000000000 = HostWord.b 0x20054DFFFFFFFFFF ∧
      HostWord.ptr 0x4002000000000100 = HostWord.ptr 0x400200FFFFFF0100 ∧
      HostWord.e 0x4306780414AA0000 = HostWord.e 0x4306780414AAFFFF ∧
      HostWord.d 0x4400050205030300 = HostWord.d 0x4400050205030300 ∧
      HostWord.ptr 0x45007E0203000200 = HostWord.ptr 0x45007E0203FF0200 := by decide

theorem test_witness_step_runs :
    (bench.withFetchWord 64 0x13AF000000000000).inputs = [.issue (.host 0x13AF000000000000)] ∧
      decode (bench.withFetchWord 64 0x13AF000000000000).cfg.ops (.host 0x13AF000000000000) =
        .ok (.cmd1 0xAF) ∧ bench.inputs = [] := ⟨rfl, rfl, rfl⟩

theorem test_witness_fetch_word :
    decodeTableWord 64 0x13AF000000000000 = some (.cmd1 0xAF) ∧
      decodeTableWord 8 0xD5 = some (.clkdiv 0) := by decide

theorem test_witness_link_undriven : State.reset.pins.oeScl = false ∧
    State.reset.pins.oeSda = false ∧ State.reset.rx.prev = ⟨.z, .z⟩ := by decide

theorem test_witness_event_counts :
    (∃ t, exec .beginSession State.reset = .next t) ∧
      (∃ t, exec (.sendByte 0xA5) State.reset = .next t) ∧
      (∃ t, exec .endSession State.reset = .next t) ∧
      ∃ p : Pins, p.oeScl = true ∧ p.oeSda = true ∧ p.latchScl = false :=
  ⟨⟨_, rfl⟩, ⟨_, rfl⟩, ⟨_, rfl⟩, ⟨false, false, true, true⟩, rfl, rfl, rfl⟩

/-- In each phase of a frame. -/
theorem test_witness_sent_byte :
    InFrame (inside .addr) .addr ∧ ((inside .addr).rx.receive bench.cfg 0x7A).unspecified = false ∧
      InFrame (inside .ctrl) .ctrl ∧
      ((inside .ctrl).rx.receive bench.cfg 0x40).unspecified = false ∧
      InFrame (inside .cmd) .cmd ∧ ((inside .cmd).rx.receive bench.cfg 0xAF).unspecified = false ∧
      InFrame (inside .data) .data ∧
      ((inside .data).rx.receive bench.cfg (0xA5 ^^^ mask true)).unspecified = false ∧
      InFrame (inside .ignore) .ignore ∧
      ((inside .ignore).rx.receive bench.cfg 0xE3).unspecified = false :=
  ⟨inside_open _, by decide +kernel, inside_open _, by decide +kernel, inside_open _,
    by decide +kernel, inside_open _, by decide +kernel, inside_open _, by decide +kernel⟩

/-- Two different event lists with one waveform: a redundant event (R19). -/
theorem test_witness_same_waveform : bench.rx.prev = bench.pins.wire ∧
    waveformFrom bench.pins [.write .sda true, .write .scl false] =
      waveformFrom bench.pins [.write .scl false] := by decide

theorem test_witness_end : (inside .cmd).pins.oeScl = true ∧ (inside .cmd).pins.oeSda = true ∧
    (inside .cmd).rx.prev = (inside .cmd).pins.wire := by decide

theorem test_witness_opening : Ready bench ∧ InFrame (inside .cmd) .cmd ∧
    (inside .cmd).rx.regs.pending = none ∧ InFrame (inside .data) .data ∧
    (inside .data).rx.regs.pending = none :=
  ⟨bench_ready, inside_open _, rfl, inside_open _, rfl⟩

theorem test_witness_cmd1 : Ready bench ∧ bench.cfg.ops.find 0xAF = some .dispon ∧
    CtrlOp.takesArg .dispon = false := ⟨bench_ready, by decide, rfl⟩

/-- The corners of the screen, and the positions just beyond. -/
theorem test_witness_setpos :
    ((0 : Byte).toNat < 8 ∧ (0 : Byte).toNat < 128) ∧
      ((7 : Byte).toNat < 8 ∧ (127 : Byte).toNat < 128) ∧
      ¬ ((8 : Byte).toNat < 8 ∧ (127 : Byte).toNat < 128) ∧
      ¬ ((7 : Byte).toNat < 8 ∧ (128 : Byte).toNat < 128) ∧ Ready bench :=
  ⟨by decide, by decide, by decide, by decide, bench_ready⟩

theorem test_witness_init_table : State.reset.cfg.wf = true ∧
    tableOk State.reset.cfg [.setmux 0x3F, .segremap true, .comdir true, .addrmode 2,
      .setcontrast 0x7F, .clkdiv 0x80, .chargepump 0x14, .dispon] ∧
    State.reset.rx.prev = State.reset.pins.wire ∧ Memory.wf .disp State.reset.rx.ram = true ∧
    State.reset.rx.unspecified = false ∧ State.reset.rx.regs.phase = .idle ∧
    State.reset.rx.regs.pending = none ∧ State.reset.cfg.strap = State.reset.cfg.rxStrap :=
  ⟨test_wf_config, ⟨test_parse_default_table, rfl, 2, by decide, rfl⟩, rfl, rfl, rfl, rfl, rfl, rfl⟩

theorem test_witness_init_default : State.reset.cfg = Config.std := rfl

theorem test_witness_outputs : (∃ t, exec .init State.reset = .next t) ∧
    ∃ t, exec (.invdata 1) State.reset = .next t := ⟨⟨_, rfl⟩, ⟨_, rfl⟩⟩

theorem test_witness_mode_operations : Ready bench := bench_ready

theorem test_witness_dinv_written :
    ((∀ f, (Instr.fillscr 0) ≠ .invdata f) ∧ ∃ t, exec (.fillscr 0) bench = .next t) ∧
      (∀ v, (Instr.init) ≠ .wdata v) ∧ (∀ r c p, (Instr.init) ≠ .text r c p) ∧
      (∀ r c p, (Instr.init) ≠ .text2x r c p) ∧ (∀ v, (Instr.init) ≠ .fillscr v) ∧
      (∀ a b c d e, (Instr.init) ≠ .fillarea a b c d e) ∧
      (∀ a b c d e p, (Instr.init) ≠ .fillpat a b c d e p) ∧
      ∀ a b c d p, (Instr.init) ≠ .image a b c d p :=
  ⟨⟨nofun, ⟨_, rfl⟩⟩, nofun, nofun, nofun, nofun, nofun, nofun, nofun⟩

/-- Two states that agree on what TX reads and differ in the lines, the trace and RX. -/
theorem test_witness_same_transmitter :
    let s' : State := { State.reset with cfg := bench.cfg, rx := lost.rx, trace := beginEvents }
    bench.cfg = s'.cfg ∧ bench.ps = s'.ps ∧ bench.dinv = s'.dinv ∧ bench.pins ≠ s'.pins ∧
      bench.rx ≠ s'.rx := by
  refine ⟨rfl, rfl, rfl, by decide, ?_⟩
  intro h
  exact absurd (congrArg Rx.unspecified h) (by decide)

/-- Off the screen by one row or by one column, and the last position on it. -/
theorem test_witness_text :
    ((8 : Byte).toNat ≥ 8 ∧ (128 : Byte).toNat ≥ 128) ∧
      ((7 : Byte).toNat < 8 ∧ (127 : Byte).toNat < 128) ∧
      stringIs (withString 0x100 [65, 66]) 0x100 [65, 66] ∧
      (withString 0x100 [65, 66]).cfg.fontsOk = true ∧
      stringIs (withString 0xFFFE [65]) 0xFFFE [65] ∧ stringIs bench 0 [] :=
  ⟨by decide, by decide, string_ab, by decide +kernel, string_last, string_empty _ rfl⟩

/-- V-TEXT-2 at column 116: two of three characters fit; at column 128 none does. -/
theorem test_witness_text_prefix :
    let s := (withString 0x100 [65, 66, 67]).placePs 0x200 [65, 66]
    (116 : Byte).toNat ≤ 128 ∧ stringIs s 0x100 [65, 66, 67] ∧
      stringIs s 0x200 (([65, 66, 67] : List Byte).take
        (min 3 ((128 - (116 : Byte).toNat) / 6))) ∧
      stringIs s 0 (([65, 66, 67] : List Byte).take (min 3 ((128 - (128 : Byte).toNat) / 6))) := by
  unfold stringIs; decide +kernel

theorem test_witness_text2x :
    ((7 : Byte).toNat ≥ 7 ∧ (128 : Byte).toNat ≥ 128) ∧
      ((6 : Byte).toNat < 7 ∧ (127 : Byte).toNat < 128) ∧
      stringIs (withString 0x100 [65, 66, 67]) 0x100 [65, 66, 67] ∧
      (withString 0x100 [65, 66, 67]).cfg.fontsOk = true :=
  ⟨by decide, by decide, string_abc, by decide +kernel⟩

/-- Each way a rectangle can be empty, and the smallest ones that are not, at the last row and
column. -/
theorem test_witness_rectangles :
    (8 ≤ (8 : Byte).toNat) ∧ (128 ≤ (128 : Byte).toNat) ∧
      ¬ (8 ≤ (7 : Byte).toNat ∨ 128 ≤ (127 : Byte).toNat ∨ (1 : Byte) = 0 ∨ (1 : Byte) = 0) ∧
      ¬ (8 ≤ (0 : Byte).toNat ∨ 128 ≤ (0 : Byte).toNat ∨ (255 : Byte) = 0 ∨ (255 : Byte) = 0) := by
  decide

/-- A pattern that ends with the last byte of `PS`, and one byte of it beyond. -/
theorem test_witness_pattern :
    (1 : Byte) ≠ 0 ∧ (255 : Byte) ≠ 0 ∧ (0xFF01 : PsAddr).toNat + (255 : Byte).toNat ≤ 65536 ∧
      (0xFF02 : PsAddr).toNat + (255 : Byte).toNat > 65536 := by decide

/-- An image that ends with the last byte of `PS`, and one that does not. -/
theorem test_witness_image :
    (0xFFFA : PsAddr).toNat + (2 : Byte).toNat * (3 : Byte).toNat ≤ 65536 ∧
      (0xFFFB : PsAddr).toNat + (2 : Byte).toNat * (3 : Byte).toNat > 65536 := by decide

/-- Off the screen with no string at `ptr`, the last byte of `PS` being no terminator: no event;
on the screen the same operand is refused (log entry 10). -/
theorem test_witness_off_screen_no_string :
    let s : State := withString 0xFFFF [65]
    psByte s.ps 0xFFFF = 65 ∧ s.stringAt 0xFFFF = none ∧
      exec (.text 8 0 0xFFFF) s = .next s ∧ exec (.text 0 128 0xFFFF) s = .next s ∧
      exec (.text2x 7 0 0xFFFF) s = .next s ∧ exec (.text2x 0 128 0xFFFF) s = .next s ∧
      reason (exec (.text 7 127 0xFFFF) s) = some .operandPastPs ∧
      reason (exec (.text2x 6 127 0xFFFF) s) = some .operandPastPs := by
  refine ⟨?_, ?_, rfl, rfl, rfl, rfl, ?_, ?_⟩ <;> decide +kernel

/-- An empty rectangle with `plen` = 0, with a pattern past the end of `PS` and with an image past it;
the same operands on a rectangle that is not empty (log entry 10). -/
theorem test_witness_empty_rectangle_bad_operand :
    reason (exec (.fillpat 8 0 1 1 0 0) bench) = some .patternLengthZero ∧
      exec (.fillpat 8 0 1 1 2 0xFFFF) bench = .next bench ∧
      exec (.fillpat 0 0 0 1 2 0xFFFF) bench = .next bench ∧
      reason (exec (.fillpat 7 127 1 1 2 0xFFFF) bench) = some .operandPastPs ∧
      exec (.image 0 128 2 1 0xFFFF) bench = .next bench ∧
      reason (exec (.image 7 127 2 1 0xFFFF) bench) = some .operandPastPs := by
  refine ⟨rfl, rfl, rfl, ?_, rfl, ?_⟩ <;> decide +kernel

theorem test_witness_equal_fills : psByte (withString 0x100 [0x5A]).ps (0x100 : PsAddr).toNat = 0x5A := by
  decide

theorem test_witness_draws :
    Ready bench ∧ (7 : Byte).toNat < 8 ∧ (127 : Byte).toNat < 128 ∧ (255 : Byte) ≠ 0 ∧
      Ready (withString 0x100 [65, 66]) ∧ stringIs (withString 0x100 [65, 66]) 0x100 [65, 66] ∧
      0 < min 2 ((128 - (122 : Byte).toNat) / 6) ∧ (6 : Byte).toNat < 7 ∧
      0 < min 2 ((128 - (120 : Byte).toNat) / 8) :=
  ⟨bench_ready, by decide, by decide, by decide, withString_ready _ _, string_ab, by decide,
    by decide, by decide⟩

/-- Text of which nothing fits: the empty string, and the first columns without room. -/
theorem test_witness_no_glyph :
    Ready bench ∧ stringIs bench 0 [] ∧ min 0 ((128 - (0 : Byte).toNat) / 6) = 0 ∧
      min 2 ((128 - (123 : Byte).toNat) / 6) = 0 ∧ min 2 ((128 - (121 : Byte).toNat) / 8) = 0 :=
  ⟨bench_ready, string_empty _ rfl, by decide, by decide, by decide⟩

/-- Columns 126 and 127, with the mark and without, under each reading. -/
theorem test_witness_data_byte :
    (∀ o ov, InFrame (atCol 127 ov o) .data ∧ (atCol 127 ov o).rx.regs.addrMode = 2 ∧
      (atCol 127 ov o).rx.regs.overflowed = ov ∧ (atCol 127 ov o).rx.regs.col.toNat = 127 ∧
      (atCol 127 ov o).cfg.colOverflow = o) ∧
    InFrame (atCol 126 false .wrap) .data ∧ (atCol 126 false .wrap).rx.regs.col.toNat < 127 ∧
    Ready bench :=
  ⟨fun _ _ => ⟨atCol_open _ _ _, rfl, rfl, rfl, rfl⟩, atCol_open _ _ _, by decide, bench_ready⟩

theorem test_witness_mode_commands : Listening bench := bench_ready.toListening

theorem test_witness_cursor : Listening bench ∧ bench.rx.regs.addrMode = 2 ∧
    bench.cfg.ops.wf = true ∧ bench.rx.regs.pending = none :=
  ⟨bench_ready.toListening, rfl, test_wf_table, rfl⟩

/-- In horizontal addressing mode, listening. -/
theorem test_witness_free_cursor :
    let s : State := { bench with rx := bench.rx.doAddrmode 0 }
    Listening s ∧ s.rx.regs.addrMode ≠ 2 ∧ encode s.cfg.ops (.setpage 5) = .ctrl 0xB5 0 :=
  have h := bench_ready.toListening
  ⟨⟨h.cfg, h.addressed, h.pins, h.seen, h.ram, h.specified, h.phase, h.pending⟩, by decide,
    by decide⟩

theorem test_witness_command_bytes :
    encode bench.cfg.ops (.setpage 5) = .ctrl 0xB5 0 ∧
      encode bench.cfg.ops (.setcontrast 0x40) = .ctrl 0x81 0x40 ∧
      bench.cfg.ops.find 0xB5 = some .setpage ∧ CtrlOp.takesArg .setpage = false ∧
      bench.cfg.ops.find 0x81 = some .setcontrast ∧ CtrlOp.takesArg .setcontrast = true ∧
      bench.cfg.ops.wf = true ∧ Listening bench ∧ bench.rx.regs.pending = none :=
  ⟨by decide, by decide, by decide, rfl, by decide, rfl, test_wf_table, bench_ready.toListening,
    rfl⟩

theorem test_witness_missing_argument : Ready bench ∧ bench.cfg.pendingSurvives = true ∧
    bench.cfg.ops.find 0x81 = some .setcontrast ∧ CtrlOp.takesArg .setcontrast = true :=
  ⟨bench_ready, rfl, by decide, rfl⟩

theorem test_witness_unspecified : bench.rx.regs.pending = none ∧
    bench.cfg.ops.find 0xE3 = none ∧ lost.rx.lost = true ∧
    ∃ t, exec (.cmd1 0xAF) lost = .next t := ⟨rfl, by decide, rfl, _, rfl⟩

theorem test_witness_unaddressed :
    let s : State := { bench with cfg := { bench.cfg with rxStrap := true } }
    after .idle (.cmd1 0xAF) = some .idle ∧ (∃ t, exec (.cmd1 0xAF) s = .next t) ∧
      s.cfg.wf = true ∧ s.cfg.strap ≠ s.cfg.rxStrap ∧ s.pins = Pins.idle ∧
      s.rx.prev = LineState.idle ∧ s.rx.unspecified = false ∧ s.rx.regs.phase = .idle :=
  ⟨rfl, ⟨_, rfl⟩, by decide +kernel, by decide, rfl, rfl, rfl, rfl⟩

theorem test_witness_invariant : StateOk State.reset ∧ ∃ t, step State.reset = .next t :=
  ⟨reset_ok, _, rfl⟩

theorem test_witness_parameters :
    ∃ t, step (bench.withFetchWord 64 0x13AF000000000000) = .next t := ⟨_, rfl⟩

/-- Each phase of the discipline has a state that fits it and an operation that leaves it. -/
theorem test_witness_discipline :
    (after .idle .openc = some .cmd ∧ pinsFit .idle bench.pins ∧ rxFit .idle bench.rx) ∧
      (after .cmd (.sendByte 0xAF) = some .cmd ∧ pinsFit .cmd (inside .cmd).pins ∧
        rxFit .cmd (inside .cmd).rx) ∧
      (after .data (.wdata 0x0F) = some .data ∧ pinsFit .data (inside .data).pins ∧
        rxFit .data (inside .data).rx) ∧
      (after .raw .endSession = some .idle ∧ pinsFit .raw (inside .addr).pins ∧
        rxFit .raw (inside .addr).rx) ∧
      bench.cfg.wf = true ∧ bench.cfg.strap = bench.cfg.rxStrap ∧
      bench.rx.prev = bench.pins.wire ∧ (inside .cmd).rx.prev = (inside .cmd).pins.wire :=
  ⟨⟨rfl, ⟨rfl, rfl, rfl, rfl⟩, fun _ => rfl⟩, ⟨rfl, ⟨rfl, rfl, rfl, rfl⟩, fun _ => ⟨rfl, rfl⟩⟩,
    ⟨rfl, ⟨rfl, rfl, rfl, rfl⟩, fun _ => ⟨rfl, rfl⟩⟩,
    ⟨rfl, ⟨rfl, rfl, rfl⟩, fun _ => ⟨by decide, rfl⟩⟩, by decide +kernel, rfl, rfl, rfl⟩

theorem test_witness_tx_reset :
    ({ bench with inputs := [.txReset] } : State).inputs = .txReset :: [] := rfl

/-- A reset inside the opcode byte of `CONTRAST 40H`, and a reset with no operation cut (R177). -/
theorem test_witness_reset_inside :
    let s : State := { bench with inputs := [.resetDuring 79 0x3140000000000000] }
    s.inputs = [.resetDuring 79 0x3140000000000000] ∧
      decodeHost 0x3140000000000000 = .ok (.contrast 0x40) ∧
      (∃ u, exec (.contrast 0x40) { s with inputs := [] } = .next u) ∧
      79 < (commandFrame s.cfg [0x81, 0x40]).length ∧ ResetsTx s s.txReset :=
  ⟨rfl, rfl, ⟨_, rfl⟩, by decide +kernel,
    ⟨rfl, rfl, rfl, rfl, rfl, State.txReset_rx _, rfl, rfl, rfl⟩⟩

/-- Stopped in the middle of the opcode byte of `CONTRAST 40H`, between two events (R168). -/
theorem test_witness_stopped :
    let s : State := { bench with inputs := [.abandon 79 0x3140000000000000] }
    s.inputs = [.abandon 79 0x3140000000000000] ∧
      decodeHost 0x3140000000000000 = .ok (.contrast 0x40) ∧
      (∃ t, exec (.contrast 0x40) { s with inputs := [] } = .next t) ∧ StateOk s ∧
      79 < (commandFrame s.cfg [0x81, 0x40]).length ∧
      (s.perform ((commandFrame s.cfg [0x81, 0x40]).take 79)).rx.lost = false ∧
      (s.perform ((commandFrame s.cfg [0x81, 0x40]).take 79)).rx.regs.addrMode = 2 ∧
      s.cfg.wf = true ∧ s.cfg.strap = s.cfg.rxStrap :=
  ⟨rfl, rfl, ⟨_, rfl⟩, ⟨rfl, rfl, rfl, fun _ _ h => by cases h⟩, by decide +kernel,
    by decide +kernel, by decide +kernel, bench_ready.cfg, rfl⟩

end Tests

end Sys2Proof
end

/-!
The state: reset, stepping, the invariant, and what may and may not touch the lines and `DINV`.
-/

namespace Sys2Proof

namespace Machine

open Safety

/-! ### Reset and stepping -/

/-- An issued code that decodes runs as the instruction it decodes to. -/
theorem stepIssue_of_decode {c : Code} {i : Instr} {s : State} (h : decode s.cfg.ops c = .ok i) :
    stepIssue c s = exec i s := by
  cases c <;> simp only [stepIssue, h]

/-- A step with an issued code next is the step of that code, at the state without it. -/
theorem step_issue {c : Code} {rest : List Input} {s : State} (h : s.inputs = .issue c :: rest) :
    step s = stepIssue c { s with inputs := rest } := by
  simp only [step, h]

/-- With no input left the machine waits (R191). -/
theorem step_no_input {s : State} (h : s.inputs = []) : step s = .next s := by
  simp only [step, h]

/-- What the decoder reads from a table word is what it reads from the word's code under the table's
own opcode values (R67). -/
theorem decode_of_decodeTableWord {nbits w : Nat} {i : Instr} (h : decodeTableWord nbits w = some i) :
    decode OpTable.std (Code.ofTableWord nbits w) = .ok i := by
  simp only [decodeTableWord] at h
  cases hd : decode OpTable.std (Code.ofTableWord nbits w) with
  | error e => rw [hd] at h; cases h
  | ok j => rw [hd] at h; cases h; rfl

/-- Settles O1: each item is the field of `State.reset`. -/
theorem resetLeavesTheStatedState : Obligations.ResetLeavesTheStatedState :=
  ⟨rfl, rfl, rfl, rfl, rfl, rfl, rfl⟩

/-- Settles O54: at reset both memories are empty and `PENDING` is none. -/
theorem resetHasTheInvariant : Obligations.ResetHasTheInvariant where
  seen := rfl
  ps := Memory.wf_nil .ps
  rx := ⟨Memory.wf_nil .disp, fun _ _ hp => nomatch hp⟩

/-- Settles O6: the step hands the decoded code to `exec`, or waits. -/
theorem stepRunsTheDecodedInstruction : Obligations.StepRunsTheDecodedInstruction :=
  ⟨fun _ _ _ _ hs hd => (step_issue hs).trans (stepIssue_of_decode hd), fun _ => step_no_input⟩

/-- Settles O7: `withFetchWord` puts the word's code in front of the inputs, and a host word decodes
to the same instruction under every opcode table. -/
theorem fetchWordRunsTheTableWord : Obligations.FetchWordRunsTheTableWord := by
  intro s w i
  constructor
  · intro hd
    have hcode : decode s.cfg.ops (Code.ofTableWord 64 w) = .ok i := decode_of_decodeTableWord hd
    exact (step_issue rfl).trans (stepIssue_of_decode hcode)
  · intro hd
    exact (step_issue rfl).trans (stepIssue_of_decode (decode_of_decodeTableWord hd))

/-! ### The invariant -/

/-- Settles O55: whatever input a step takes, it composes operations on the state that each keep the
invariant. -/
theorem stepKeepsTheInvariant : Obligations.StepKeepsTheInvariant := by
  intro s t hs h
  rcases step_next h with rfl | ⟨rest, s', rfl, hstep⟩
  · exact hs
  · have hs' : StateOk { s with inputs := rest } := ⟨hs.seen, hs.ps, hs.rx⟩
    rcases hstep with ⟨i, hi⟩ | ⟨es, rfl⟩ | ⟨es, rfl⟩ | ⟨es, rfl⟩ | ⟨es, fs, b, rfl⟩
    · exact hs'.exec hi
    · exact hs'.perform es
    · exact (hs'.perform es).stopHere
    · exact (hs'.perform es).txReset
    · exact ((hs'.perform es).rxPowerUp.perform fs).setDinv b

/-! ### The lines -/

/-- An event leaves the line it does not name as it was (R19). -/
theorem apply_wire_other_line (p : Pins) (e : Event) :
    (p.apply e).wire.scl = p.wire.scl ∨ (p.apply e).wire.sda = p.wire.sda := by
  match e with
  | .write .scl _ | .enable .scl => exact .inr rfl
  | .write .sda _ | .enable .sda => exact .inl rfl

/-- Settles O14: RX after a list of events is a fold over the waveform of the list. -/
theorem receiverSeesOnlyTheWaveform : Obligations.ReceiverSeesOnlyTheWaveform := by
  refine ⟨apply_wire_other_line, fun s es es' hseen hwave => ?_⟩
  rw [State.perform_rx, State.perform_rx, foldl_emit_waveform s.cfg es _ _ hseen,
    foldl_emit_waveform s.cfg es' _ _ hseen, hwave]

/-- `INIT` leaves both lines driven at the idle level (R108). -/
theorem exec_init_pins {s t : State} (h : exec .init s = .next t) : t.pins = Pins.idle := by
  cases exec_effect h with
  | init => simp [Pins.idle]
  | stop hi => simp at hi
  | frames _ hn _ => exact absurd rfl hn

/-- An instruction other than `INIT` keeps both output enables (R30). -/
theorem exec_keeps_enables {i : Instr} {s t : State} (hi : i ≠ .init) (h : exec i s = .next t) :
    t.pins.oeScl = s.pins.oeScl ∧ t.pins.oeSda = s.pins.oeSda := by
  cases exec_effect h with
  | init => exact absurd rfl hi
  | frames _ _ hf =>
    rw [State.perform_pins]
    rcases applyAll_frames hf s.pins with e | e <;> rw [e] <;> exact ⟨rfl, rfl⟩
  | start | byte | pixel | stop | openc | opend | invdata => simp

/-- Settles O26: `INIT` ends on idle pins, and no other event list holds an `OE` event. -/
theorem onlyInitMakesTheLinesOutputs : Obligations.OnlyInitMakesTheLinesOutputs := by
  refine ⟨rfl, rfl, fun i s t h => ⟨?_, fun hi => exec_keeps_enables hi h⟩⟩
  rintro rfl
  rw [exec_init_pins h]
  exact ⟨rfl, rfl⟩

/-! ### `DINV` -/

/-- An instruction other than `INVDATA` leaves `DINV` as it was (R17). -/
theorem exec_keeps_dinv {i : Instr} {s t : State} (hi : ∀ f, i ≠ .invdata f)
    (h : exec i s = .next t) : t.dinv = s.dinv := by
  rcases exec_next h with ⟨es, rfl⟩ | ⟨f, rfl, -⟩
  · rfl
  · exact absurd rfl (hi f)

/-- Settles O29: the events of an instruction that sends no pixel bytes are written without `DINV`,
so that both runs unfold to the same events. -/
theorem onlyInvdataWritesTheFlag : Obligations.OnlyInvdataWritesTheFlag := by
  refine ⟨rfl, fun i s t hi h => exec_keeps_dinv hi h, ?_⟩
  intro i s b hwdata htext htext2x hfillscr hfillarea hfillpat himage
  cases i with
  | wdata v => exact absurd rfl (hwdata v)
  | text r c p => exact absurd rfl (htext r c p)
  | text2x r c p => exact absurd rfl (htext2x r c p)
  | fillscr v => exact absurd rfl (hfillscr v)
  | fillarea r c h w v => exact absurd rfl (hfillarea r c h w v)
  | fillpat r c h w n p => exact absurd rfl (hfillpat r c h w n p)
  | image r c h w p => exact absurd rfl (himage r c h w p)
  | beginSession | sendByte | endSession | openc | opend | close | cmd1 | setpos | init | contrast
  | invscr | sleep | invdata | setcollo | setcolhi | addrmode | setcontrast | chargepump | segremap
  | invertoff | inverton | setmux | dispoff | dispon | setpage | comdir | dispoffset | clkdiv =>
    exact ⟨_, _, rfl, rfl, rfl, rfl, rfl⟩

/-! ### What TX reads -/

/-- Two states with the same values of everything TX reads (R18): the parameters, `PS` and `DINV`. -/
structure SameTables (s s' : State) : Prop where
  cfg : s.cfg = s'.cfg
  ps : s.ps = s'.ps
  dinv : s.dinv = s'.dinv

/-- The same done at two states: the same events performed, `DINV` set to the same value, or a
refusal for the same reason. -/
inductive SameOutcome (s s' : State) :
    Host.Outcome State Fault Refusal → Host.Outcome State Fault Refusal → Prop
  | events (es : List Event) : SameOutcome s s' (.next (s.perform es)) (.next (s'.perform es))
  | flag (b : Bool) : SameOutcome s s' (.next (s.setDinv b)) (.next (s'.setDinv b))
  | refused (r : Refusal) : SameOutcome s s' (.refused r) (.refused r)

section SameTables
variable {s s' : State} (h : SameTables s s')
include h

theorem SameTables.memRead (sp : Space) (a : Nat) : s.memRead sp a = s'.memRead sp a := by
  cases sp <;> simp only [State.memRead, h.cfg, h.ps]

theorem SameTables.memReads (sp : Space) (a n : Nat) : s.memReads sp a n = s'.memReads sp a n := by
  induction n generalizing a with
  | zero => rfl
  | succ n ih => simp only [State.memReads, h.memRead, ih]

theorem SameTables.glyph6 : s.glyph6 = s'.glyph6 := by
  funext ch
  simp only [State.glyph6, h.cfg, h.memReads]

theorem SameTables.glyph16 (half : Nat) : s.glyph16 half = s'.glyph16 half := by
  funext ch
  simp only [State.glyph16, h.cfg, h.memReads]

theorem SameTables.stringAt (ptr : PsAddr) : s.stringAt ptr = s'.stringAt ptr := by
  simp only [State.stringAt, h.ps]

theorem SameTables.patternRow (ptr : PsAddr) (plen width : Nat) :
    s.patternRow ptr plen width = s'.patternRow ptr plen width := by
  simp only [State.patternRow, h.ps]

theorem SameTables.imageRow (ptr : PsAddr) (icols i width : Nat) :
    s.imageRow ptr icols i width = s'.imageRow ptr icols i width := by
  simp only [State.imageRow, h.ps]

theorem SameTables.text (row col : Byte) (ptr : PsAddr) :
    SameOutcome s s' (execText row col ptr s) (execText row col ptr s') := by
  simp only [execText, h.stringAt, h.glyph6, h.cfg, h.dinv]
  split
  · exact .events []
  · cases s'.stringAt ptr with
    | none => exact .refused _
    | some codes =>
      dsimp only
      cases glyphsOf s'.glyph6 (clipText glyph6Width col.toNat codes) with
      | none => exact .refused _
      | some glyphs => exact .events _

theorem SameTables.text2x (row col : Byte) (ptr : PsAddr) :
    SameOutcome s s' (execText2x row col ptr s) (execText2x row col ptr s') := by
  simp only [execText2x, h.stringAt, h.glyph16, h.cfg, h.dinv]
  split
  · exact .events []
  · cases s'.stringAt ptr with
    | none => exact .refused _
    | some codes =>
      dsimp only
      cases glyphsOf (s'.glyph16 0) (clipText glyph16Width col.toNat codes) with
      | none => exact .refused _
      | some upper =>
        cases glyphsOf (s'.glyph16 1) (clipText glyph16Width col.toNat codes) with
        | none => exact .refused _
        | some lower => exact .events _

theorem SameTables.fillarea (srow scol rows cols v : Byte) :
    SameOutcome s s' (execFillarea srow scol rows cols v s) (execFillarea srow scol rows cols v s') := by
  simp only [execFillarea, h.cfg, h.dinv]
  split
  · exact .events []
  · exact .events _

theorem SameTables.fillpat (srow scol rows cols plen : Byte) (ptr : PsAddr) :
    SameOutcome s s' (execFillpat srow scol rows cols plen ptr s)
      (execFillpat srow scol rows cols plen ptr s') := by
  simp only [execFillpat, h.patternRow, h.cfg, h.dinv]
  split
  · exact .refused _
  · split
    · exact .events []
    · split
      · exact .events _
      · exact .refused _

theorem SameTables.image (srow scol irows icols : Byte) (ptr : PsAddr) :
    SameOutcome s s' (execImage srow scol irows icols ptr s)
      (execImage srow scol irows icols ptr s') := by
  simp only [execImage, h.imageRow, h.cfg, h.dinv]
  split
  · exact .events []
  · split
    · exact .events _
    · exact .refused _

/-- R18: an instruction does the same at two states with the same parameters, `PS` and `DINV`. -/
theorem SameTables.exec (i : Instr) : SameOutcome s s' (exec i s) (exec i s') := by
  cases i with
  | text r c p => exact h.text r c p
  | text2x r c p => exact h.text2x r c p
  | fillarea r c rows cols v => exact h.fillarea r c rows cols v
  | fillpat r c rows cols n p => exact h.fillpat r c rows cols n p
  | image r c rows cols p => exact h.image r c rows cols p
  | invdata f => exact .flag _
  | beginSession | sendByte | endSession | openc | opend | close | cmd1 | wdata | setpos | init
  | contrast | invscr | sleep | fillscr | setcollo | setcolhi | addrmode | setcontrast | chargepump
  | segremap | invertoff | inverton | setmux | dispoff | dispon | setpage | comdir | dispoffset
  | clkdiv =>
    obtain ⟨hcfg, -, hdinv⟩ := h
    cases s; cases s'; cases hcfg; cases hdinv
    exact .events _

end SameTables

/-- Settles O30: the two states agree on all that TX reads, so `exec` does the same at both. -/
theorem transmitterIgnoresLinesAndReceiver : Obligations.TransmitterIgnoresLinesAndReceiver := by
  intro i s s' hcfg hps hdinv
  have h := SameTables.exec ⟨hcfg, hps, hdinv⟩ i
  generalize exec i s = o, exec i s' = o' at h ⊢
  cases h with
  | events es =>
    exact .inl ⟨es, _, _, rfl, rfl, rfl, rfl, s.perform_pins es, s'.perform_pins es, hdinv⟩
  | flag b =>
    exact .inl ⟨[], _, _, rfl, rfl, by simp, by simp, rfl, rfl, rfl⟩
  | refused r => exact .inr ⟨r, rfl, rfl⟩

end Machine

end Sys2Proof

/-!
The memories no agent writes: the parameters (R9) and the operand storage `PS` (R53).
-/

namespace Sys2Proof

namespace Machine

/-- A stopped operation unsettles RX only (U14), so the parameters stay. -/
@[simp] theorem State.stopHere_cfg (s : State) : s.stopHere.cfg = s.cfg := by
  rcases s.stopHere_eq with e | e <;> rw [e]

/-- A stopped operation unsettles RX only (U14), so `PS` stays. -/
@[simp] theorem State.stopHere_ps (s : State) : s.stopHere.ps = s.ps := by
  rcases s.stopHere_eq with e | e <;> rw [e]

/-- An instruction performs events or sets `DINV`; neither writes the parameters or `PS`. -/
theorem exec_keeps_cfg_ps {i : Instr} {s t : State} (h : exec i s = .next t) :
    t.cfg = s.cfg ∧ t.ps = s.ps := by
  rcases exec_next h with ⟨es, rfl⟩ | ⟨f, -, rfl⟩
  · exact ⟨s.perform_cfg es, s.perform_ps es⟩
  · exact ⟨s.setDinv_cfg _, s.setDinv_ps _⟩

/-- Settles O56: whatever input a step takes, it composes operations on the state none of which
writes the parameters or `PS`. -/
theorem stepKeepsParametersAndOperandStorage : Obligations.StepKeepsParametersAndOperandStorage := by
  intro s t h
  rcases step_next h with rfl | ⟨rest, s', rfl, hstep⟩
  · exact ⟨rfl, rfl⟩
  · rcases hstep with ⟨i, hi⟩ | ⟨es, rfl⟩ | ⟨es, rfl⟩ | ⟨es, rfl⟩ | ⟨es, fs, b, rfl⟩
    · exact exec_keeps_cfg_ps (s := { s with inputs := rest }) hi
    · exact ⟨State.perform_cfg _ es, State.perform_ps _ es⟩
    · simp only [State.stopHere_cfg, State.stopHere_ps, State.perform_cfg, State.perform_ps,
        and_self]
    · simp only [State.txReset_cfg, State.txReset_ps, State.perform_cfg, State.perform_ps, and_self]
    · simp only [State.setDinv_cfg, State.setDinv_ps, State.perform_cfg, State.perform_ps,
        State.rxPowerUp_cfg, State.rxPowerUp_ps, and_self]

end Machine

end Sys2Proof

/-!
The encodings: the decoder on codes and host words, the byte on the wire, and the controller
commands sent in frames of their own.
-/

namespace Sys2Proof

namespace Machine

open Safety

/-! ### The decoder -/

/-- Settles O3: the round trip holds of each row of the two encodings. -/
theorem decodeOfEncodeIsTheInstruction : Obligations.DecodeOfEncodeIsTheInstruction := by
  intro t i ht
  cases i with
  | beginSession => exact Laws.RoundTrip.beginSession t ht
  | sendByte v => exact Laws.RoundTrip.sendByte v t ht
  | endSession => exact Laws.RoundTrip.endSession t ht
  | openc => exact Laws.RoundTrip.openc t ht
  | opend => exact Laws.RoundTrip.opend t ht
  | close => exact Laws.RoundTrip.close t ht
  | cmd1 v => exact Laws.RoundTrip.cmd1 v t ht
  | wdata v => exact Laws.RoundTrip.wdata v t ht
  | setpos row col => exact Laws.RoundTrip.setpos row col t ht
  | init => exact Laws.RoundTrip.init t ht
  | contrast level => exact Laws.RoundTrip.contrast level t ht
  | invscr flag => exact Laws.RoundTrip.invscr flag t ht
  | sleep flag => exact Laws.RoundTrip.sleep flag t ht
  | invdata flag => exact Laws.RoundTrip.invdata flag t ht
  | text row col ptr => exact Laws.RoundTrip.text row col ptr t ht
  | text2x row col ptr => exact Laws.RoundTrip.text2x row col ptr t ht
  | fillscr v => exact Laws.RoundTrip.fillscr v t ht
  | fillarea srow scol rows cols v => exact Laws.RoundTrip.fillarea srow scol rows cols v t ht
  | fillpat srow scol rows cols plen ptr =>
    exact Laws.RoundTrip.fillpat srow scol rows cols plen ptr t ht
  | image srow scol irows icols ptr => exact Laws.RoundTrip.image srow scol irows icols ptr t ht
  | setcollo low => exact Laws.RoundTrip.setcollo low t ht
  | setcolhi high => exact Laws.RoundTrip.setcolhi high t ht
  | addrmode arg => exact Laws.RoundTrip.addrmode arg t ht
  | setcontrast arg => exact Laws.RoundTrip.setcontrast arg t ht
  | chargepump arg => exact Laws.RoundTrip.chargepump arg t ht
  | segremap remap => exact Laws.RoundTrip.segremap remap t ht
  | invertoff => exact Laws.RoundTrip.invertoff t ht
  | inverton => exact Laws.RoundTrip.inverton t ht
  | setmux arg => exact Laws.RoundTrip.setmux arg t ht
  | dispoff => exact Laws.RoundTrip.dispoff t ht
  | dispon => exact Laws.RoundTrip.dispon t ht
  | setpage page => exact Laws.RoundTrip.setpage page t ht
  | comdir dir => exact Laws.RoundTrip.comdir dir t ht
  | dispoffset arg => exact Laws.RoundTrip.dispoffset arg t ht
  | clkdiv arg => exact Laws.RoundTrip.clkdiv arg t ht

/-- Settles O2: the decoder evaluated on each word. -/
theorem decodesWordsWrittenFromTheSpec : Obligations.DecodesWordsWrittenFromTheSpec :=
  ⟨rfl, rfl, rfl, rfl, rfl, rfl, rfl, rfl, rfl, rfl, rfl, rfl, rfl⟩

/-- The operation codes of R77. -/
def hostCodes : List Byte :=
  [0x01, 0x02, 0x03, 0x10, 0x11, 0x12, 0x13, 0x14, 0x20, 0x30, 0x31, 0x32, 0x33, 0x34, 0x40, 0x41,
    0x42, 0x43, 0x44, 0x45]

/-- Every code of R77 is an operation. -/
theorem decodeHost_of_mem {w : HostWord} (h : HostWord.op w ∈ hostCodes) :
    ∃ i, decodeHost w = .ok i := by
  simp only [hostCodes, List.mem_cons, List.not_mem_nil, or_false] at h
  rcases h with h | h | h | h | h | h | h | h | h | h | h | h | h | h | h | h | h | h | h | h <;>
    simp [decodeHost, h]

/-- Every other code is reserved (R80). -/
theorem decodeHost_of_not_mem {w : HostWord} (h : HostWord.op w ∉ hostCodes) :
    decodeHost w = .error .reservedOp := by
  simp only [hostCodes, List.mem_cons, List.not_mem_nil, or_false, not_or] at h
  simp only [decodeHost, h, if_false]

/-- Settles O4: an operation of R77 is run, and no instruction is refused as reserved; any other
word is refused by the step itself. -/
theorem onlyReservedOpsAreRefusedAsReserved : Obligations.OnlyReservedOpsAreRefusedAsReserved := by
  intro s w rest hs
  rw [step_issue hs]
  by_cases hop : HostWord.op w ∈ hostCodes
  · obtain ⟨i, hi⟩ := decodeHost_of_mem hop
    rw [stepIssue_of_decode (c := .host w) hi]
    exact iff_of_false (exec_not_reserved i _) (not_not_intro hop)
  · have href : stepIssue (.host w) { s with inputs := rest } = .refused .reservedOp := by
      simp only [stepIssue, decode, decodeHost_of_not_mem hop]
    exact iff_of_true href hop

/-- Settles O5: for each code of a row, the row's result is written in the fields it uses. -/
theorem unusedFieldsAreIgnored : Obligations.UnusedFieldsAreIgnored := by
  intro w w' hop
  simp only [List.mem_cons, List.not_mem_nil, or_false]
  refine ⟨?_, ?_, ?_, ?_, ?_, ?_, ?_⟩
  · rintro (h | h | h | h | h | h) <;> simp [decodeHost, ← hop, h]
  · rintro (h | h | h | h | h | h | h | h) ha <;> simp [decodeHost, ← hop, h, ha]
  · intro h ha hb
    simp [decodeHost, ← hop, h, ha, hb]
  · rintro (h | h) ha hb hptr <;> simp [decodeHost, ← hop, h, ha, hb, hptr]
  · intro h ha hb hc hd he
    simp [decodeHost, ← hop, h, ha, hb, hc, hd, he]
  · intro h ha hb hc hd he hptr
    simp [decodeHost, ← hop, h, ha, hb, hc, hd, he, hptr]
  · intro h ha hb hc hd hptr
    simp [decodeHost, ← hop, h, ha, hb, hc, hd, hptr]

/-! ### Events of frames -/

theorem perform_trace_length (s : State) (es : List Event) :
    (s.perform es).trace.length = s.trace.length + es.length := by
  rw [State.perform_trace, List.length_append]

/-- The rising edges of events performed one list after another. -/
theorem risingEdges_append (p : Pins) (es fs : List Event) :
    risingEdges p.wire (waveformFrom p (es ++ fs)) =
      risingEdges p.wire (waveformFrom p es) +
        risingEdges (p.applyAll es).wire (waveformFrom (p.applyAll es) fs) := by
  induction es generalizing p with
  | nil => simp [waveformFrom, risingEdges]
  | cons e es ih =>
    simp only [List.cons_append, waveformFrom, Pins.applyAll_cons]
    split
    next h => rw [← h]; exact ih (p.apply e)
    next h => simp only [risingEdges, ih (p.apply e), Nat.add_assoc]

/-- R58: a bit cell of a frame has one rising edge of `SCL`. -/
theorem risingEdges_bitCells (a : Bool) (bs : List Bool) :
    risingEdges (frameLine a) (waveformFrom (Pins.inFrame a) (bs.flatMap bitCell)) = bs.length := by
  induction bs generalizing a with
  | nil => rfl
  | cons b bs ih =>
    have hcell : risingEdges (frameLine a) (waveformFrom (Pins.inFrame a) (bitCell b)) = 1 := by
      cases a <;> cases b <;> rfl
    have happend := risingEdges_append (Pins.inFrame a) (bitCell b) (bs.flatMap bitCell)
    rw [applyAll_cell, Pins.inFrame_wire, Pins.inFrame_wire, hcell, ih b] at happend
    rw [List.flatMap_cons, happend, List.length_cons, Nat.add_comm]

/-- Driven pins with `SCL` 0 are the pins inside a frame. -/
theorem Pins.eq_inFrame {p : Pins} (h1 : p.oeScl = true) (h2 : p.oeSda = true)
    (h3 : p.latchScl = false) : p = Pins.inFrame p.latchSda :=
  Pins.ext h3 rfl h1 h2

/-- Settles O12: the lengths of the event lists, and nine bit cells in a byte cell. -/
theorem eventCountsOfFrames : Obligations.EventCountsOfFrames := by
  refine ⟨?_, ?_, ?_, ?_, ?_⟩
  · intro s t h
    cases h
    exact perform_trace_length s beginEvents
  · intro s t v h
    cases h
    exact perform_trace_length s (sendbEvents v)
  · intro s t h
    cases h
    exact perform_trace_length s endEvents
  · intro a k payload
    simp only [frame_length, List.length_cons]
    omega
  · intro p v h1 h2 h3
    rw [Pins.eq_inFrame h1 h2 h3, Pins.inFrame_wire]
    have hcells : sendbEvents v = (bitsOf v ++ [true]).flatMap bitCell := by simp [sendbEvents]
    rw [hcells, risingEdges_bitCells]
    rfl

end Machine

namespace Safety

open Machine

/-! ### A byte and the ends of a frame at RX -/

/-- A byte cell inside a frame hands RX the byte (R140), which is then between two bytes again. -/
theorem InFrame.sendb_rx {s : State} {ph : RxPhase} {v : Byte} (h : InFrame s ph) (hph : ph ≠ .idle)
    (hv : (s.rx.receive s.cfg v).unspecified = false) :
    (s.perform (sendbEvents v)).rx = (s.rx.receive s.cfg v).decoder (frameLine true)
      (s.rx.receive s.cfg v).regs.phase v 0 := by
  have hpins : s.pins = Pins.inFrame true := h.pins
  rw [State.perform_rx, hpins, sendb_receive s.cfg s.rx v true h.specified
    (by rw [h.phase]; exact hph) h.slot h.seen hv]

/-- Settles O13: `SENDB` and `WDATA` perform the byte cell of the byte they send. -/
theorem sentByteReachesTheReceiver : Obligations.SentByteReachesTheReceiver := by
  intro s ph i v b hs hph hi hv
  have hx : exec i s = .next (s.perform (sendbEvents v)) := by
    rcases hi with ⟨rfl, rfl⟩ | ⟨rfl, rfl⟩ <;> rfl
  exact ⟨_, hx, perform_emits s _, hs.sendb_rx hph hv⟩

/-- Where only the wire decoder has moved, the display is as it was. -/
theorem display_of_decoder {s t : State} {q : LineState} {ph : RxPhase} {sh : Byte}
    (h : t.rx = s.rx.decoder q ph sh 0) (hu : s.rx.unspecified = false) :
    (∀ p x, t.ram p x = s.ram p x) ∧ sameDisplay t.rx.regs s.rx.regs ∧ t.rx.regs.phase = ph ∧
      t.rx.regs.slot = 0 ∧ t.rx.unspecified = false := by
  simp only [State.ram, h]
  exact ⟨fun _ _ => rfl, sameDisplay_decoder _ _ _ _ _, rfl, rfl, hu⟩

section Listening
variable {s : State} (h : Listening s)
include h

/-- R138: START at a listening RX. -/
theorem Listening.begin_rx :
    (s.perform beginEvents).rx = s.rx.decoder (frameLine false) .addr 0 0 := by
  have hpins : s.pins = ⟨true, true, true, true⟩ := h.pins
  rw [State.perform_rx, hpins, begin_opens s.cfg s.rx true true h.specified h.phase h.seen]

/-- R142, R143: the opening of a frame at a listening RX, the control byte selecting the phase. -/
theorem Listening.open_rx {ctl : Byte} {ph : RxPhase}
    (hctl : ∀ x : Rx, x.controlByte s.cfg ctl = x.update fun g => { g with phase := ph }) :
    (s.perform (beginEvents ++ sendbEvents s.cfg.devAddr ++ sendbEvents ctl)).rx =
      s.rx.decoder (frameLine true) ph ctl 0 := by
  have hpins : s.pins = ⟨true, true, true, true⟩ := h.pins
  rw [State.perform_rx, hpins, open_frame ctl ph true true (devAddr_eq_rxAddr h.addressed)
    h.specified h.phase h.seen hctl]

end Listening

/-- R146: STOP between two bytes, with no argument pending. -/
theorem InFrame.end_rx {s : State} {ph : RxPhase} (h : InFrame s ph) (hph : ph ≠ .idle)
    (hpending : s.rx.regs.pending = none) :
    (s.perform endEvents).rx =
      s.rx.decoder LineState.idle .idle (shiftIn s.rx.regs.shift false) 0 := by
  have hpins : s.pins = Pins.inFrame true := h.pins
  rw [State.perform_rx, hpins, end_closes s.cfg s.rx h.specified (by rw [h.phase]; exact hph) h.slot
    h.seen (.inr (.inr hpending))]

/-- Settles O17: the events of opening and closing move the wire decoder of RX alone. -/
theorem openingAndClosingLeavesTheDisplay : Obligations.OpeningAndClosingLeavesTheDisplay := by
  constructor
  · intro s hs i ph hi
    have hL := hs.toListening
    have hctrl := Config.wf_ctrl hs.cfg
    rcases hi with ⟨rfl, rfl⟩ | ⟨rfl, rfl⟩ | ⟨rfl, rfl⟩
    · exact ⟨_, rfl, display_of_decoder hL.begin_rx hs.specified⟩
    · exact ⟨_, rfl, display_of_decoder (hL.open_rx (ctrlCmd_selects hctrl)) hs.specified⟩
    · exact ⟨_, rfl, display_of_decoder (hL.open_rx (ctrlData_selects hctrl)) hs.specified⟩
  · intro s ph hs hph hpending i hi
    have hx : exec i s = .next (s.perform endEvents) := by rcases hi with rfl | rfl <;> rfl
    obtain ⟨hram, hsame, hidle, -, hu⟩ :=
      display_of_decoder (hs.end_rx hph hpending) hs.specified
    exact ⟨_, hx, hram, hsame, hidle, hu⟩

/-- Settles O52: the byte loses RX, and a lost RX stays so under whatever events an instruction
performs. -/
theorem unspecifiedReceiverStaysUnspecified : Obligations.UnspecifiedReceiverStaysUnspecified := by
  constructor
  · intro r c v hpending hfind
    simp only [Rx.commandByte, hpending, hfind, Rx.lose_lost]
  · intro s t i hs h
    rcases exec_next h with ⟨es, rfl⟩ | ⟨f, -, rfl⟩
    · exact foldl_emit_lost s.cfg es (s.pins, s.rx) hs
    · exact hs

end Safety

namespace Machine

open Safety

/-! ### Operations issued one after the other -/

/-- Bytes sent one by one are their byte cells, one after the other. -/
theorem runAll_sendBytes (vs : List Byte) (is : List Instr) (s : State) :
    runAll (vs.map .sendByte ++ is) s = runAll is (s.perform (sendEvents vs)) := by
  induction vs generalizing s with
  | nil => rw [sendEvents_nil, State.perform_nil]; rfl
  | cons v vs ih => rw [sendEvents_cons, State.perform_append]; exact ih (s.perform (sendbEvents v))

/-- R98: `OPENC`, the bytes of a payload, `CLOSE` are the command frame of that payload. -/
theorem runAll_commandFrame (vs : List Byte) (s : State) :
    runAll (.openc :: (vs.map .sendByte ++ [.close])) s = s.sendCommand vs := by
  simp only [State.sendCommand, commandFrame, State.perform_append]
  exact runAll_sendBytes vs [.close] (s.perform (opencEvents s.cfg))

/-- START and bytes, as operations. -/
theorem runAll_begin_sendBytes (vs : List Byte) (s : State) :
    runAll (.beginSession :: vs.map .sendByte) s =
      .next (s.perform (beginEvents ++ sendEvents vs)) := by
  have h := runAll_sendBytes vs [] (s.perform beginEvents)
  rw [List.append_nil] at h
  rw [State.perform_append]
  exact h

/-- The flag of an operand chooses between two bytes (R78). -/
theorem ite_flagOf (f a b : Byte) : (if flagOf f then a else b) = if f ≠ 0 then a else b := by
  simp [flagOf]

/-- Settles O18: both sides perform the same events. -/
theorem pseudoOperationsEqualTheirExpansions : Obligations.PseudoOperationsEqualTheirExpansions := by
  intro s x f
  refine ⟨rfl, ?_, ?_, ?_, rfl, ?_, ?_, rfl⟩
  · exact (runAll_begin_sendBytes [s.cfg.devAddr, s.cfg.ctrlCmd] s).symm
  · exact (runAll_begin_sendBytes [s.cfg.devAddr, s.cfg.ctrlData] s).symm
  · exact (runAll_commandFrame [x] s).symm
  · simp only [exec, execInvscr, execCmd1, ite_flagOf]
  · simp only [exec, execSleep, execCmd1, ite_flagOf]

/-! ### Controller commands -/

/-- Settles O50: the bytes of an encoded command are those of its row, sent as a command frame. -/
theorem commandBytesHaveTheCommandsEffect : Obligations.CommandBytesHaveTheCommandsEffect := by
  intro s i op arg hwf hcode
  obtain ⟨k, hfind, hinstr⟩ := encode_ctrl hwf hcode
  refine ⟨k, hfind, ?_, sendsCommand_ctrl hcode hfind hinstr,
    fun hpending => ⟨fun ha => ?_, fun ha => ?_⟩⟩
  · rw [exec_ctrl hcode hinstr, ← runAll_commandFrame]
    cases k.takesArg <;> rfl
  · rw [commandByte_complete hpending hfind ha, ← hinstr, ha]
    rfl
  · have hbytes := commands_ctrl hpending hfind hinstr
    rw [ha] at hbytes
    exact ⟨commandByte_opens hpending hfind ha, hbytes⟩

/-- A command that is sent as the bytes of row `k` has that row's effect, here `f`, at a listening
RX; only there need the opcode table be without overlaps. -/
theorem sendsCommand_of_row {s : State} {i : Instr} (k : CtrlOp) (op arg : Byte)
    {f : RxRegs → RxRegs}
    (hexec : exec i s = s.sendCommand (if k.takesArg then [op, arg] else [op]))
    (hfind : s.cfg.ops.wf = true → s.cfg.ops.find op = some k)
    (heffect : s.cfg.ops.wf = true →
      (s.rx.apply (k.instr op (if k.takesArg then arg else 0))).regs = f s.rx.regs) :
    SendsCommand s i (if k.takesArg then [op, arg] else [op]) f := by
  refine ⟨_, hexec, ?_, fun h => ?_⟩
  · rw [commandFrame_frame]
    exact perform_emits s _
  · have hwf := Config.wf_ops h.cfg
    rw [← heffect hwf]
    exact h.command (commands_ctrl h.pending (hfind hwf) rfl) (Rx.apply_ram _ _)
      (Rx.apply_ramDraw _ _) (by rw [Rx.apply_unspecified]; exact h.specified)
      (by rw [Rx.apply_pending]; exact h.pending)

/-- A row all of whose opcode bits are fixed. -/
theorem sendsCommand_of_fixed_row {s : State} {i : Instr} (k : CtrlOp) (arg : Byte)
    {f : RxRegs → RxRegs}
    (hexec : exec i s =
      s.sendCommand (if k.takesArg then [s.cfg.ops.val k, arg] else [s.cfg.ops.val k]))
    (heffect : ∀ op, (s.rx.apply (k.instr op (if k.takesArg then arg else 0))).regs = f s.rx.regs) :
    SendsCommand s i (if k.takesArg then [s.cfg.ops.val k, arg] else [s.cfg.ops.val k]) f :=
  sendsCommand_of_row k (s.cfg.ops.val k) arg hexec (fun hwf => OpTable.find_val hwf k)
    fun _ => heffect _

theorem sendsCommand_segremap (s : State) (b : Bool) :
    SendsCommand s (.segremap b) [s.cfg.ops.segremap ||| bitByte b]
      (fun g => { g with segRemap := b }) :=
  sendsCommand_of_row .segremap (s.cfg.ops.segremap ||| bitByte b) 0 rfl
    (fun hwf => OpTable.find_val_or hwf .segremap (remap_and b)) fun hwf => by
    simp only [CtrlOp.instr, segremap_operand hwf, Rx.apply, Rx.doSegremap, Rx.update_regs]

theorem sendsCommand_comdir (s : State) (b : Bool) :
    SendsCommand s (.comdir b) [s.cfg.ops.comdir ||| bitByte b <<< 3]
      (fun g => { g with comDir := b }) :=
  sendsCommand_of_row .comdir (s.cfg.ops.comdir ||| bitByte b <<< 3) 0 rfl
    (fun hwf => OpTable.find_val_or hwf .comdir (comdir_and b)) fun hwf => by
    simp only [CtrlOp.instr, comdir_operand hwf, Rx.apply, Rx.doComdir, Rx.update_regs]

/-- `COM_DIR` is bit 3 of its opcode byte (R67). -/
theorem bitByte_shift (b : Bool) : bitByte b <<< 3 = if b then 0x08 else 0x00 := by
  cases b <;> rfl

/-- Settles O47: each mode command is sent as the bytes of its row, whose effect is one register. -/
theorem modeCommandsWriteTheirRegister : Obligations.ModeCommandsWriteTheirRegister := by
  intro s v b
  refine ⟨?_, ?_, ?_, sendsCommand_segremap s b, ?_, ?_, ?_, ?_, ?_, ?_, ?_, ?_⟩
  · exact sendsCommand_of_fixed_row .addrmode v rfl fun _ => rfl
  · exact sendsCommand_of_fixed_row .setcontrast v rfl fun _ => rfl
  · exact sendsCommand_of_fixed_row .chargepump v rfl fun _ => rfl
  · exact sendsCommand_of_fixed_row .invertoff 0 rfl fun _ => rfl
  · exact sendsCommand_of_fixed_row .inverton 0 rfl fun _ => rfl
  · exact sendsCommand_of_fixed_row .setmux v rfl fun _ => rfl
  · exact sendsCommand_of_fixed_row .dispoff 0 rfl fun _ => rfl
  · exact sendsCommand_of_fixed_row .dispon 0 rfl fun _ => rfl
  · rw [← bitByte_shift]
    exact sendsCommand_comdir s b
  · exact sendsCommand_of_fixed_row .dispoffset v rfl fun _ => rfl
  · exact sendsCommand_of_fixed_row .clkdiv v rfl fun _ => rfl

end Machine

end Sys2Proof

/-!
The link layer: the event lists of `BEGIN`, `SENDB` and `END` (R85 to R91), and the frames they make
up on the waveform (R92, R160).
-/

namespace Sys2Proof

namespace Machine

open Safety

/-! ### The event lists -/

/-- R88: bit 7 is sent first. -/
theorem bitsOf_eq_map_range (v : Byte) :
    bitsOf v = (List.range 8).map fun i => v.getLsbD (7 - i) := rfl

/-- Settles O8: `BEGIN` performs the events of R86. -/
theorem beginSendsTheStartSequence : Obligations.BeginSendsTheStartSequence :=
  fun s => ⟨s.perform beginEvents, rfl, perform_emits s beginEvents,
    (s.perform_pins beginEvents).trans (applyAll_begin s.pins)⟩

/-- Settles O9: `SENDB` performs a byte cell, whose bits are those of R88 in their order. -/
theorem sendbShiftsOutTheByteMsbFirst : Obligations.SendbShiftsOutTheByteMsbFirst := by
  intro s v
  refine ⟨s.perform (sendbEvents v), rfl, ?_, perform_trace_length s (sendbEvents v),
    (s.perform_pins (sendbEvents v)).trans (applyAll_sendb s.pins v)⟩
  have hcells : sendbEvents v =
      ((List.range 8).flatMap fun i => bitCell (v.getLsbD (7 - i))) ++ bitCell true := by
    rw [sendbEvents, bitsOf_eq_map_range, List.flatMap_map]
  have hemits := perform_emits s (sendbEvents v)
  rw [hcells] at hemits ⊢
  exact hemits

/-- Settles O10: `END` performs the events of R90. -/
theorem endSendsTheStopSequence : Obligations.EndSendsTheStopSequence :=
  fun s => ⟨s.perform endEvents, rfl, perform_emits s endEvents,
    (s.perform_pins endEvents).trans (applyAll_end s.pins)⟩

/-! ### Drive events -/

theorem beginEvents_drive : ∀ e ∈ beginEvents, ∃ l b, e = .write l b := by
  simp [beginEvents]

theorem endEvents_drive : ∀ e ∈ endEvents, ∃ l b, e = .write l b := by
  simp [endEvents]

theorem bitCell_drive (b : Bool) : ∀ e ∈ bitCell b, ∃ l b, e = .write l b :=
  List.forall_mem_cons.mpr ⟨⟨.sda, b, rfl⟩, by simp⟩

theorem sendbEvents_drive (v : Byte) : ∀ e ∈ sendbEvents v, ∃ l b, e = .write l b := by
  intro e he
  rcases List.mem_append.mp he with he | he
  · obtain ⟨b, -, hb⟩ := List.mem_flatMap.mp he
    exact bitCell_drive b e hb
  · exact bitCell_drive true e he

/-- A drive event writes a latch and no output enable (R15). -/
theorem applyAll_drives_keep_enables {es : List Event} (hes : ∀ e ∈ es, ∃ l b, e = .write l b)
    (p : Pins) : (p.applyAll es).oeScl = p.oeScl ∧ (p.applyAll es).oeSda = p.oeSda := by
  induction es generalizing p with
  | nil => exact ⟨rfl, rfl⟩
  | cons e es ih =>
    obtain ⟨l, b, rfl⟩ := hes e List.mem_cons_self
    have htail := ih (fun e he => hes e (List.mem_cons_of_mem _ he)) (p.apply (.write l b))
    cases l <;> exact htail

/-- Lines that are not driven are `Z`, whatever the latches hold (R16). -/
theorem Pins.wire_undriven {p : Pins} (h1 : p.oeScl = false) (h2 : p.oeSda = false) :
    p.wire = ⟨.z, .z⟩ := by
  simp [Pins.wire, levelOf, h1, h2]

/-- Settles O11: each of the three performs its list of drive events, which keep the output enables;
RX sees nothing of them on lines that are not driven. -/
theorem linkOperationsAreFixedEventLists : Obligations.LinkOperationsAreFixedEventLists := by
  intro i hi
  have hfixed : ∃ es : List Event, (∀ e ∈ es, ∃ l b, e = .write l b) ∧
      ∀ s, exec i s = .next (s.perform es) := by
    rcases hi with rfl | ⟨v, rfl⟩ | rfl
    · exact ⟨beginEvents, beginEvents_drive, fun _ => rfl⟩
    · exact ⟨sendbEvents v, sendbEvents_drive v, fun _ => rfl⟩
    · exact ⟨endEvents, endEvents_drive, fun _ => rfl⟩
  obtain ⟨es, hdrive, hexec⟩ := hfixed
  refine ⟨es, hdrive, fun s => ?_⟩
  obtain ⟨hscl, hsda⟩ := applyAll_drives_keep_enables hdrive s.pins
  rw [← State.perform_pins] at hscl hsda
  exact ⟨s.perform es, hexec s, perform_emits s es, hscl, hsda, fun h1 h2 hseen =>
    ⟨Pins.wire_undriven (hscl.trans h1) (hsda.trans h2),
      foldl_emit_undriven s.cfg es s.pins s.rx hdrive h1 h2 hseen⟩⟩

/-- Settles O16: both perform the events of R90, whose last two are a STOP on driven lines. -/
theorem endResynchronises : Obligations.EndResynchronises := by
  intro s i hi h1 h2 hseen
  have hexec : exec i s = .next (s.perform endEvents) := by rcases hi with rfl | rfl <;> rfl
  have hpins : (s.perform endEvents).pins = Pins.idle := by
    rw [State.perform_pins, applyAll_end]
    exact Pins.ext rfl rfl h1 h2
  exact ⟨_, hexec, hpins, foldl_emit_stop s.cfg (s.pins, s.rx) h1 h2 hseen⟩

/-! ### A frame on the waveform -/

/-- A frame begins and ends on idle lines (R92). -/
theorem idle_applyAll_frame (f : List Byte) : Pins.idle.applyAll (frame f) = Pins.idle :=
  applyAll_frame Pins.idle f

/-- Byte cells leave the pins inside the frame. -/
theorem inFrame_applyAll_sends (a : Bool) (vs : List Byte) :
    ∃ b, (Pins.inFrame a).applyAll (sendEvents vs) = Pins.inFrame b := by
  rw [applyAll_sends]
  split
  · exact ⟨a, rfl⟩
  · exact ⟨true, rfl⟩

/-- R86: on idle lines `BEGIN` is a START. -/
theorem marks_begin : marks LineState.idle (waveformFrom Pins.idle beginEvents) = [.start] := by
  decide

/-- R59, R60: each byte is its bits, the most significant first, and the acknowledgement slot. -/
theorem marks_sends (a : Bool) (vs : List Byte) :
    marks (frameLine a) (waveformFrom (Pins.inFrame a) (sendEvents vs)) =
      vs.flatMap fun v =>
        (List.range 8).map (fun i => .rise (v.getLsbD (7 - i))) ++ [.rise true] := by
  rw [sendEvents_cells, marks_cells, List.map_flatMap]
  simp only [List.map_append, bitsOf_eq_map_range, List.map_map]
  rfl

/-- R91: inside a frame `END` is one more rising edge, with `SDA` 0, and a STOP. -/
theorem marks_end (a : Bool) :
    marks (frameLine a) (waveformFrom (Pins.inFrame a) endEvents) = [.rise false, .stop] := by
  cases a <;> decide

/-- R92: the marks of a frame are those of its three parts. -/
theorem marks_frame (f : List Byte) :
    marks LineState.idle (waveformFrom Pins.idle (frame f)) =
      .start :: (f.flatMap fun v =>
          (List.range 8).map (fun i => .rise (v.getLsbD (7 - i))) ++ [.rise true]) ++
        [.rise false, .stop] := by
  obtain ⟨b, hsends⟩ := inFrame_applyAll_sends false f
  have hbegin : Pins.idle.applyAll beginEvents = Pins.inFrame false := rfl
  rw [← Pins.idle_wire, frame, marks_append, marks_append, Pins.applyAll_append, hbegin, hsends,
    Pins.inFrame_wire, Pins.inFrame_wire, Pins.idle_wire, marks_begin, marks_sends, marks_end]
  rfl

/-- R160: from idle lines, with no frame open, the decoder completes each frame of a list. -/
theorem seeAll_frames (fs : List (List Byte)) (sh : Byte) (sl : Fin 9) (done : List (List Byte)) :
    ∃ sh' sl', FrameDecoder.seeAll ⟨LineState.idle, none, sh, sl, done⟩ Pins.idle
        (fs.flatMap frame) = ⟨LineState.idle, none, sh', sl', fs.reverse ++ done⟩ := by
  induction fs generalizing sh sl done with
  | nil => exact ⟨sh, sl, rfl⟩
  | cons f fs ih =>
    obtain ⟨sh1, sl1, hframe⟩ := seeAll_frame sh done f sl
    obtain ⟨sh2, sl2, hrest⟩ := ih sh1 sl1 (f :: done)
    refine ⟨sh2, sl2, ?_⟩
    rw [List.flatMap_cons, FrameDecoder.seeAll_append, hframe, idle_applyAll_frame, hrest,
      List.reverse_cons, List.append_assoc, List.singleton_append]

/-- The frames decoded from the waveform of a list of frames are the list. -/
theorem framesOf_frames (fs : List (List Byte)) :
    framesOf LineState.idle (waveformFrom Pins.idle (fs.flatMap frame)) = fs := by
  obtain ⟨sh, sl, hdecoded⟩ := seeAll_frames fs 0 0 []
  have hcomplete := congrArg FrameDecoder.complete hdecoded
  rw [List.append_nil] at hcomplete
  exact (congrArg List.reverse hcomplete).trans fs.reverse_reverse

/-- Settles O15: the marks of a frame part by part, and an induction on the list of frames. -/
theorem framesDecodeToTheBytesSent : Obligations.FramesDecodeToTheBytesSent :=
  ⟨fun f => ⟨idle_applyAll_frame f, marks_frame f⟩, framesOf_frames⟩

end Machine

end Sys2Proof

/-!
The framing layer (R93 to R100): what its operations put on the lines, and what `CMD1` runs at a
ready RX, alone or as the missing argument of the frame before it (R150).
-/

namespace Sys2Proof

namespace Machine

open Safety

/-! ### What the framing operations send -/

/-- R100: `DINV` complements the byte that `WDATA` sends. -/
theorem pixelByte_eq_ite (dinv : Bool) (v : Byte) :
    pixelByte dinv v = if dinv then ~~~ v else v := by
  cases dinv with
  | false => exact BitVec.xor_zero
  | true => exact BitVec.xor_allOnes

theorem opencEvents_length (c : Config) : (opencEvents c).length = 58 := rfl

theorem opendEvents_length (c : Config) : (opendEvents c).length = 58 := rfl

theorem commandFrame_byte_length (c : Config) (v : Byte) : (commandFrame c [v]).length = 89 := by
  rw [commandFrame_frame, frame_length]
  rfl

/-- An operation that performs the events `es` emits them, and leaves the pins they lead to. -/
theorem exec_performs {i : Instr} {s : State} {es : List Event} {p : Pins} {n : Nat}
    (hexec : exec i s = .next (s.perform es)) (hlength : es.length = n)
    (hpins : s.pins.applyAll es = p) :
    ∃ t, exec i s = .next t ∧ Emits s t es ∧ t.trace.length = s.trace.length + n ∧ t.pins = p :=
  ⟨s.perform es, hexec, perform_emits s es, by rw [perform_trace_length, hlength],
    (s.perform_pins es).trans hpins⟩

/-- Settles O19: each operation performs its event list, whose length and last pins are known. -/
theorem framingOperationsSendTheirBytes : Obligations.FramingOperationsSendTheirBytes := by
  intro s x
  refine ⟨?_, ?_, ?_, ?_, ?_⟩
  · exact exec_performs rfl (opencEvents_length s.cfg) (applyAll_openc s.pins s.cfg)
  · exact exec_performs rfl (opendEvents_length s.cfg) (applyAll_opend s.pins s.cfg)
  · exact endSendsTheStopSequence s
  · rw [← commandFrame_frame]
    refine exec_performs rfl (commandFrame_byte_length s.cfg x) ?_
    rw [commandFrame_frame, applyAll_frame]
  · rw [← pixelByte_eq_ite]
    exact exec_performs rfl (sendb_length _) (applyAll_sendb s.pins _)

end Machine

namespace Safety

open Machine

/-! ### `CMD1` at a ready RX -/

/-- R97: `CMD1` performs the command frame of its byte. -/
theorem exec_cmd1 (s : State) (v : Byte) :
    exec (.cmd1 v) s = .next (s.perform (commandFrame s.cfg [v])) := rfl

/-- A row without argument is not the one that sets the addressing mode, so it keeps it (R67). -/
theorem apply_instr_addrMode {k : CtrlOp} (hk : k.takesArg = false) (r : Rx) (op arg : Byte) :
    (r.apply (k.instr op arg)).regs.addrMode = r.regs.addrMode := by
  apply apply_addrMode
  intro a ha
  cases k with
  | addrmode => cases hk
  | _ => cases ha

/-- Settles O20: the frame's one command byte is the whole command. -/
theorem cmd1RunsTheCommandAtTheReceiver : Obligations.Cmd1RunsTheCommandAtTheReceiver := by
  intro s op k hs hfind hk
  have hcommands : s.rx.commands s.cfg [op] = s.rx.apply (k.instr op 0) :=
    commandByte_complete hs.pending hfind hk
  obtain ⟨hready, hram, hsame⟩ := hs.command hcommands (Rx.apply_ram _ _) (Rx.apply_ramDraw _ _)
    ((Rx.apply_unspecified _ _).trans hs.specified) ((Rx.apply_pending _ _).trans hs.pending)
    ((apply_instr_addrMode hk _ _ _).trans hs.pageMode)
  exact ⟨_, exec_cmd1 s op, hram, hsame, hready⟩

/-! ### A command split over two frames -/

theorem commands_append (c : Config) (r : Rx) (vs ws : List Byte) :
    r.commands c (vs ++ ws) = (r.commands c vs).commands c ws :=
  List.foldl_append

/-- R150: where `PENDING` survives the end of a frame, two command frames run at a listening RX the
commands of their payloads taken together. -/
theorem Listening.two_commandFrames_rx {s : State} (h : Listening s)
    (hsurvives : s.cfg.pendingSurvives = true) (vs ws : List Byte)
    (hu : (s.rx.commands s.cfg (vs ++ ws)).unspecified = false) :
    ∃ sh, ((s.perform (commandFrame s.cfg vs)).perform (commandFrame s.cfg ws)).rx =
      (s.rx.commands s.cfg (vs ++ ws)).decoder LineState.idle .idle sh 0 := by
  rw [commands_append] at hu ⊢
  obtain ⟨sh, hfirst⟩ := h.commandFrame_rx vs (Rx.commands_specified_of _ _ ws hu) (.inl hsurvives)
  have hpins : (s.perform (commandFrame s.cfg vs)).pins = Pins.idle := by
    rw [State.perform_pins, commandFrame_frame, h.idle_frame]
  have hcommands := Rx.commands_decoder _ s.cfg ws LineState.idle .idle sh 0 hu
  rw [← hfirst] at hcommands
  obtain ⟨sh', hsecond⟩ := Safety.commandFrame_rx (s := s.perform (commandFrame s.cfg vs)) ws
    true true (Config.wf_ctrl h.cfg) h.addressed hpins (by rw [hfirst]; rfl)
    (by rw [hfirst, hpins]; rfl)
    (by rw [State.perform_cfg, hcommands]; exact hu) (.inl hsurvives)
  rw [State.perform_cfg, hcommands] at hsecond
  exact ⟨sh', hsecond⟩

/-- What RX shows where only its wire decoder differs from `r`, whose RAM is that of `s`. -/
theorem display_of_decoder_eq {s t : State} {r : Rx} {q : LineState} {ph : RxPhase} {sh : Byte}
    {sl : Fin 9} (h : t.rx = r.decoder q ph sh sl) (hram : r.ram = s.rx.ram)
    (hdraw : r.ramDraw = s.rx.ramDraw) :
    t.rx.regs.pending = r.regs.pending ∧ sameDisplay t.rx.regs r.regs ∧
      ∀ p x, t.ram p x = s.ram p x := by
  refine ⟨by rw [h, Rx.decoder_pending], ?_, fun p x => ?_⟩
  · rw [h]
    exact sameDisplay_decoder r q ph sh sl
  · rw [State.ram, h, Rx.decoder_ramByte, Rx.ramByte_of_eq hram hdraw, State.ram]

/-- Settles O51: the first frame opens the command, and the byte of the second completes it. -/
theorem missingArgumentTakesTheNextCommandByte :
    Obligations.MissingArgumentTakesTheNextCommandByte := by
  intro s op v k hs hsurvives hfind hk
  have hopens : s.rx.commands s.cfg [op] = s.rx.update fun g => { g with pending := some op } :=
    commandByte_opens hs.pending hfind hk
  have hcompletes : s.rx.commands s.cfg ([op] ++ [v]) = s.rx.apply (k.instr op v) := by
    have hbytes := commands_ctrl (arg := v) hs.pending hfind rfl
    simp only [hk, if_true] at hbytes
    exact hbytes
  obtain ⟨sh, hfirst⟩ := hs.commandFrame_rx [op] (by rw [hopens]; exact hs.specified)
    (.inl hsurvives)
  obtain ⟨sh', hsecond⟩ := hs.two_commandFrames_rx hsurvives [op] [v]
    (by rw [hcompletes, Rx.apply_unspecified]; exact hs.specified)
  rw [hopens] at hfirst
  rw [hcompletes] at hsecond
  obtain ⟨hpending, hsame, hram⟩ := display_of_decoder_eq hfirst (s := s) rfl rfl
  obtain ⟨hpending', hsame', hram'⟩ := display_of_decoder_eq hsecond (s := s) (Rx.apply_ram _ _)
    (Rx.apply_ramDraw _ _)
  have hexec := exec_cmd1 (s.perform (commandFrame s.cfg [op])) v
  rw [State.perform_cfg] at hexec
  exact ⟨_, _, exec_cmd1 s op, hpending, hsame, hram, hexec,
    hpending'.trans ((Rx.apply_pending _ _).trans hs.pending), hsame', hram'⟩

end Safety

end Sys2Proof

/-!
The addressing layer (R102, R103): `SETPOS` sends the position frame and moves RX's cursor, or sends
nothing at all.
-/

namespace Sys2Proof

namespace Machine

open Safety

/-! ### Positions as bytes -/

/-- The high nibble of a byte, as a byte. -/
theorem ofNat_toNat_div_16 (v : Byte) : BitVec.ofNat 8 (v.toNat / 16) = v >>> 4 := by
  apply BitVec.eq_of_toNat_eq
  simp only [BitVec.toNat_ofNat, BitVec.toNat_ushiftRight, Nat.shiftRight_eq_div_pow]
  omega

/-- The low nibble of a byte, as a byte. -/
theorem ofNat_toNat_mod_16 (v : Byte) : BitVec.ofNat 8 (v.toNat % 16) = v &&& 0x0F := by
  apply BitVec.eq_of_toNat_eq
  have hmask : (v &&& 0x0F).toNat = v.toNat % 16 := Nat.and_two_pow_sub_one_eq_mod v.toNat 4
  rw [BitVec.toNat_ofNat, hmask]
  omega

/-- R103: the position frame of two operand bytes, by the nibbles of the column. -/
theorem positionFrame_toNat (c : Config) (row col : Byte) :
    positionFrame c row.toNat col.toNat =
      frame [c.devAddr, c.ctrlCmd, c.ops.setpage ||| row, c.ops.setcolhi ||| (col >>> 4),
        c.ops.setcollo ||| (col &&& 0x0F)] := by
  rw [positionFrame, BitVec.ofNat_toNat, BitVec.setWidth_eq, ofNat_toNat_div_16,
    ofNat_toNat_mod_16]

/-! ### `SETPOS` -/

/-- R103: an invalid position sends nothing. -/
theorem setposEvents_invalid (c : Config) {row col : Nat} (h : ¬ (row < 8 ∧ col < 128)) :
    setposEvents c row col = [] := by
  simp [setposEvents, validPos, numRows, numCols, h]

theorem exec_setpos (s : State) (row col : Byte) :
    exec (.setpos row col) s = .next (s.perform (setposEvents s.cfg row.toNat col.toNat)) := rfl

/-- Settles O21: a valid position is sent as the position frame, whose effect at a ready RX is
`Ready.setpos`; an invalid one has no events. -/
theorem setposSendsThePositionCommand : Obligations.SetposSendsThePositionCommand := by
  intro s row col
  refine ⟨fun ⟨hrow, hcol⟩ => ?_, fun hinvalid => ?_⟩
  · have hevents := setposEvents_frame s.cfg hrow hcol
    refine ⟨_, exec_setpos s row col, ?_, ?_, fun hs => ?_⟩
    · rw [hevents, positionFrame_toNat]
      exact perform_emits s _
    · rw [perform_trace_length, hevents, positionFrame_length]
    · obtain ⟨hwrote, hcursor⟩ := hs.setpos hrow hcol
      exact ⟨hwrote.ready, hwrote.ram, hcursor⟩
  · rw [exec_setpos, setposEvents_invalid s.cfg hinvalid, State.perform_nil]

end Machine

end Sys2Proof

/-!
Initialization and mode control (R107 to R115): `INIT`'s pin set-up and Command Table at RX, the
command frames of `CONTRAST`, `INVSCR` and `SLEEP`, and the flag `INVDATA` sets.
-/

namespace Sys2Proof

namespace Machine

open Safety

/-! ### The pin set-up -/

/-- R16: a line is high where it is driven with its latch at 1. -/
theorem levelOf_eq_hi {oe latch : Bool} :
    levelOf oe latch = .hi ↔ oe = true ∧ latch = true := by
  cases oe <;> cases latch <;> decide

/-- `SDA` at the high level stays there under any event that does not drive it low. -/
theorem apply_sda_high {p : Pins} {e : Event} (he : e ≠ .write .sda false)
    (h : p.wire.sda = .hi) : (p.apply e).wire.sda = .hi := by
  obtain ⟨hoe, hlatch⟩ := levelOf_eq_hi.mp h
  match e with
  | .write .scl _ | .enable .scl => exact h
  | .write .sda true => exact levelOf_eq_hi.mpr ⟨hoe, rfl⟩
  | .enable .sda => exact levelOf_eq_hi.mpr ⟨rfl, hlatch⟩

/-- A START is a fall of `SDA` (R56, R137). -/
theorem classify_start {q q' : LineState} (h : classify q q' = .start) :
    q.sda = .hi ∧ q'.sda = .lo := by
  unfold classify at h
  split at h
  · next _ hsda _ hsda' => exact ⟨hsda, hsda'⟩
  all_goals cases h

/-- Events none of which drives `SDA` low show no START, whatever the pins before them. -/
theorem no_start_of_no_sda_low {es : List Event} (hes : .write .sda false ∉ es) (p : Pins) :
    .start ∉ wireSteps p.wire (waveformFrom p es) := by
  induction es generalizing p with
  | nil => exact List.not_mem_nil
  | cons e es ih =>
    obtain ⟨he, hrest⟩ := List.ne_and_not_mem_of_not_mem_cons hes
    have htail := ih hrest (p.apply e)
    rw [waveformFrom]
    split
    · next hsame => rwa [hsame] at htail
    · rw [wireSteps, List.mem_cons]
      rintro (hstart | hmem)
      · obtain ⟨hhigh, hlow⟩ := classify_start hstart.symm
        rw [apply_sda_high he.symm hhigh] at hlow
        cases hlow
      · exact htail hmem

/-- Settles O25: no event of the pin set-up drives `SDA` low. -/
theorem initNeverShowsAStart : Obligations.InitNeverShowsAStart :=
  no_start_of_no_sda_low (by decide)

/-! ### `INIT` -/

/-- R108: the pin set-up, then the Command Table as a command frame. -/
theorem exec_init (s : State) :
    exec .init s = .next ((s.perform initPinEvents).perform (commandFrame s.cfg s.cfg.cmdTable)) :=
  congrArg Host.Outcome.next (s.perform_append _ _)

/-- R72: the events of `INIT` for a Command Table of `n` bytes. -/
theorem init_length (c : Config) :
    (initPinEvents ++ commandFrame c c.cmdTable).length =
      2 + 2 + (62 + 27 * c.cmdTable.length) := by
  simp only [initPinEvents, commandFrame_frame, List.length_append, List.length_cons,
    List.length_nil, frame_length]
  omega

/-- R108: `INIT` ends on idle lines. -/
theorem applyAll_init (p : Pins) (c : Config) :
    p.applyAll (initPinEvents ++ commandFrame c c.cmdTable) = Pins.idle := by
  rw [Pins.applyAll_append, applyAll_initPins, commandFrame_frame, idle_applyAll_frame]

/-- Settles O22: `INIT` performs the set-up and the frame, whose length and last pins are known. -/
theorem initSetsUpThePinsAndSendsTheTable : Obligations.InitSetsUpThePinsAndSendsTheTable := by
  intro s
  rw [← commandFrame_frame]
  exact exec_performs rfl (init_length s.cfg) (applyAll_init s.pins s.cfg)

end Machine

namespace Safety

open Machine

section InitPins
variable {s : State} (hseen : s.rx.prev = s.pins.wire) (hphase : s.rx.regs.phase = .idle)
  (hspec : s.rx.unspecified = false)
include hseen hphase hspec

/-- R108, R110: the pin set-up moves nothing of an RX with no frame open but what it has seen. -/
theorem perform_initPins_rx : (s.perform initPinEvents).rx =
    s.rx.decoder LineState.idle s.rx.regs.phase s.rx.regs.shift s.rx.regs.slot := by
  rw [State.perform_rx, initPins_rx s.cfg s.pins s.rx hseen hphase hspec]

/-- After the pin set-up RX listens, whatever the lines were before it. -/
theorem listening_initPins (hcfg : s.cfg.wf = true) (hstrap : s.cfg.strap = s.cfg.rxStrap)
    (hram : Memory.wf .disp s.rx.ram = true) (hpending : s.rx.regs.pending = none) :
    Listening (s.perform initPinEvents) := by
  have hrx := perform_initPins_rx hseen hphase hspec
  exact
    { cfg := hcfg
      addressed := hstrap
      pins := by rw [State.perform_pins, applyAll_initPins]
      seen := by rw [hrx, Rx.decoder_prev]
      ram := by rw [hrx, Rx.decoder_ram, hram]
      specified := by rw [hrx, Rx.decoder_unspecified, hspec]
      phase := by rw [hrx, Rx.decoder_phase, hphase]
      pending := by rw [hrx, Rx.decoder_pending, hpending] }

end InitPins

/-- R148, R149: a command frame of complete commands at a listening RX runs them in order. -/
theorem Listening.commands_frame {s : State} (h : Listening s) {vs : List Byte} {is : List Instr}
    (hparse : s.cfg.ops.parse vs = some is) :
    Listening (s.perform (commandFrame s.cfg vs)) ∧
    (∀ p q, (s.perform (commandFrame s.cfg vs)).ram p q = s.ram p q) ∧
    sameDisplay (s.perform (commandFrame s.cfg vs)).rx.regs (is.foldl Rx.apply s.rx).regs :=
  h.command (commands_of_parse s.cfg vs.length vs is s.rx le_rfl hparse h.pending)
    (applies_ram is s.rx) (applies_ramDraw is s.rx)
    ((applies_unspecified is s.rx).trans h.specified) ((applies_pending is s.rx).trans h.pending)

/-- Settles O23: the pin set-up makes RX listen, and the frame runs the table's commands, the last
`ADDRMODE` of which makes it ready. -/
theorem initRunsTheCommandTable : Obligations.InitRunsTheCommandTable := by
  intro s is hcfg hstrap htable hseen hram hspec hphase hpending
  obtain ⟨hparse, -, arg, harg, hmode⟩ := htable
  have hrx := perform_initPins_rx hseen hphase hspec
  obtain ⟨hlistens, hkept, hsame⟩ :=
    (listening_initPins hseen hphase hspec hcfg hstrap hram hpending).commands_frame hparse
  rw [hrx, applies_decoder] at hsame
  have hdisplay := sameDisplay_trans hsame (sameDisplay_decoder _ _ _ _ _)
  have hpage := (addrMode_of_sameDisplay hdisplay).trans
    ((applies_addrMode is arg s.rx hmode).trans harg)
  refine ⟨_, exec_init s, ⟨hlistens, hpage⟩, fun p q => (hkept p q).trans ?_, hdisplay⟩
  rw [State.ram, hrx, Rx.decoder_ramByte, State.ram]

/-! ### The default parameters -/

/-- The parameters State.reset carries meet the constraints of R8 and R9. -/
theorem config_std_wf : Config.std.wf = true := by
  decide +kernel

/-- R109: the commands of the default Command Table. -/
def stdCommands : List Instr :=
  [.setmux 0x3F, .segremap true, .comdir true, .addrmode 2, .setcontrast 0x7F, .clkdiv 0x80,
    .chargepump 0x14, .dispon]

/-- R109: the default Command Table is these commands, and meets the constraints on a table. -/
theorem tableOk_stdCommands : tableOk Config.std stdCommands :=
  ⟨by decide, rfl, 2, by decide, rfl⟩

/-- What the commands of the default Command Table leave of RX's registers (R67). -/
theorem stdCommands_regs (r : Rx) : (stdCommands.foldl Rx.apply r).regs =
    { r.regs with
      muxRatio := 0x3F, segRemap := true, comDir := true, addrMode := 2, contrast := 0x7F,
      clkDiv := 0x80, chargePump := 0x14, displayOn := true } := by
  simp only [stdCommands, List.foldl_cons, List.foldl_nil, Rx.apply, Rx.doSetmux, Rx.doSegremap,
    Rx.doComdir, Rx.doAddrmode, Rx.doSetcontrast, Rx.doClkdiv, Rx.doChargepump, Rx.doDispon,
    Rx.update_regs]
  rfl

/-- Settles O24: `INIT` runs the eight commands of the default table, each of which sets one
register. -/
theorem initWithTheDefaultTable : Obligations.InitWithTheDefaultTable := by
  intro s hstd hseen hram hspec hphase hpending
  have hcfg : s.cfg.wf = true := by rw [hstd]; exact config_std_wf
  have hstrap : s.cfg.strap = s.cfg.rxStrap := by rw [hstd]; rfl
  have htable : tableOk s.cfg stdCommands := by rw [hstd]; exact tableOk_stdCommands
  rw [← stdCommands_regs]
  exact initRunsTheCommandTable s stdCommands hcfg hstrap htable hseen hram hspec hphase hpending

/-! ### `CONTRAST`, `INVSCR`, `SLEEP`, `INVDATA` -/

/-- R98, R157: an instruction that sends the bytes of one command which keeps the addressing mode
leaves a ready RX ready. -/
theorem SendsCommand.at_ready {s : State} {i : Instr} {bytes : List Byte} {f : RxRegs → RxRegs}
    (h : SendsCommand s i bytes f) (hmode : ∀ g, (f g).addrMode = g.addrMode) :
    ∃ t, exec i s = .next t ∧ Emits s t (frame (s.cfg.devAddr :: s.cfg.ctrlCmd :: bytes)) ∧
      t.trace.length = s.trace.length + (62 + 27 * bytes.length) ∧
      (Ready s → Ready t ∧ (∀ p q, t.ram p q = s.ram p q) ∧
        sameDisplay t.rx.regs (f s.rx.regs)) := by
  obtain ⟨t, hexec, hemits, heffect⟩ := h
  refine ⟨t, hexec, hemits, ?_, fun hs => ?_⟩
  · rw [hemits.trace, List.length_append, frame_length, List.length_cons, List.length_cons]
    omega
  · obtain ⟨hlistens, hram, hsame⟩ := heffect hs.toListening
    have hpage := (addrMode_of_sameDisplay hsame).trans ((hmode s.rx.regs).trans hs.pageMode)
    exact ⟨⟨hlistens, hpage⟩, hram, hsame⟩

/-- R111: `CONTRAST` sends the bytes of `SETCONTRAST`. -/
theorem sendsCommand_contrast (s : State) (x : Byte) :
    SendsCommand s (.contrast x) [s.cfg.ops.setcontrast, x] (fun g => { g with contrast := x }) :=
  sendsCommand_of_fixed_row .setcontrast x rfl fun _ => rfl

/-- R112: `INVSCR` sends the opcode of `INVERTON` or of `INVERTOFF`. -/
theorem sendsCommand_invscr (s : State) (x : Byte) :
    SendsCommand s (.invscr x) [if x ≠ 0 then s.cfg.ops.inverton else s.cfg.ops.invertoff]
      (fun g => { g with inverse := decide (x ≠ 0) }) := by
  have hexec : exec (.invscr x) s =
      s.sendCommand [if x ≠ 0 then s.cfg.ops.inverton else s.cfg.ops.invertoff] := by
    rw [← ite_flagOf]; rfl
  by_cases hx : x = 0
  · subst hx
    exact sendsCommand_of_fixed_row .invertoff 0 hexec fun _ => rfl
  · simp only [ne_eq, hx, not_false_eq_true, if_true, decide_true] at hexec ⊢
    exact sendsCommand_of_fixed_row .inverton 0 hexec fun _ => rfl

/-- R113: `SLEEP` sends the opcode of `DISPOFF` or of `DISPON`. -/
theorem sendsCommand_sleep (s : State) (x : Byte) :
    SendsCommand s (.sleep x) [if x ≠ 0 then s.cfg.ops.dispoff else s.cfg.ops.dispon]
      (fun g => { g with displayOn := decide (x = 0) }) := by
  have hexec : exec (.sleep x) s =
      s.sendCommand [if x ≠ 0 then s.cfg.ops.dispoff else s.cfg.ops.dispon] := by
    rw [← ite_flagOf]; rfl
  by_cases hx : x = 0
  · subst hx
    exact sendsCommand_of_fixed_row .dispon 0 hexec fun _ => rfl
  · simp only [ne_eq, hx, not_false_eq_true, if_true, decide_false] at hexec ⊢
    exact sendsCommand_of_fixed_row .dispoff 0 hexec fun _ => rfl

/-- Settles O27: each of the three sends one command, which sets its register and keeps the
addressing mode. -/
theorem modeOperationsSetTheirRegister : Obligations.ModeOperationsSetTheirRegister :=
  fun s x => ⟨(sendsCommand_contrast s x).at_ready fun _ => rfl,
    (sendsCommand_invscr s x).at_ready fun _ => rfl,
    (sendsCommand_sleep s x).at_ready fun _ => rfl⟩

/-- The truth of a flag operand (R78), as a proposition decided. -/
theorem flagOf_eq_decide (f : Byte) : flagOf f = decide (f ≠ 0) :=
  Bool.eq_iff_iff.mpr (by simp [flagOf])

/-- Settles O28: `INVDATA` sets `DINV` alone. -/
theorem invdataSetsTheFlag : Obligations.InvdataSetsTheFlag := by
  intro s f
  rw [← flagOf_eq_decide]
  rfl

end Safety

end Sys2Proof

/-!
The rendering layer (R116 to R135), first what it sends: every drawing operation is a list of position
and data frames, clipped to the screen.
-/

namespace Sys2Proof

namespace Machine

open Safety

/-! ### Event lists as frames -/

/-- R124, R126, R129, R132: on the screen, each row of a rectangle is a position frame and a data
frame. -/
theorem rectEvents_frames (c : Config) (dinv : Bool) {srow scol height : Nat}
    (hrow : srow + height ≤ 8) (hcol : scol < 128) (rowBytes : Nat → List Byte) :
    rectEvents c dinv srow scol height rowBytes = (List.range height).flatMap fun i =>
      positionFrame c (srow + i) scol ++ dataFrame c dinv (rowBytes i) := by
  refine List.flatMap_congr fun i hi => ?_
  have hlt : i < height := List.mem_range.mp hi
  rw [setposEvents_frame c (by omega) hcol, pixelFrame_frame]

/-- R134: the events of a rectangle whose rows are `width` bytes each. -/
theorem rectFrames_length (c : Config) (dinv : Bool) (srow scol height : Nat) {width : Nat}
    {rowBytes : Nat → List Byte} (hwidth : ∀ i, (rowBytes i).length = width) :
    ((List.range height).flatMap fun i =>
      positionFrame c (srow + i) scol ++ dataFrame c dinv (rowBytes i)).length =
        height * (143 + 62 + 27 * width) := by
  have hrow : ∀ i, (positionFrame c (srow + i) scol ++ dataFrame c dinv (rowBytes i)).length =
      143 + 62 + 27 * width := fun i => by
    rw [List.length_append, positionFrame_length, dataFrame_length, hwidth, Nat.add_assoc]
  simp only [List.length_flatMap, hrow, List.map_const', List.length_range, List.sum_replicate,
    smul_eq_mul]

/-- R118, R121: on the screen, a pass over characters is a position frame, then a data frame for each
of them. -/
theorem textPass_frames (c : Config) (dinv : Bool) {row col : Nat} (hrow : row < 8)
    (hcol : col < 128) (glyph : Byte → List Byte) (chars : List Byte) :
    textPass c dinv row col (chars.map glyph) =
      positionFrame c row col ++ chars.flatMap fun ch => dataFrame c dinv (glyph ch) := by
  rw [textPass, setposEvents_frame c hrow hcol, List.flatMap_map]
  simp only [pixelFrame_frame]

/-- R134: the events of a pass over characters whose glyphs are `width` bytes each. -/
theorem textFrames_length (c : Config) (dinv : Bool) (row col : Nat) {glyph : Byte → List Byte}
    {width : Nat} (hwidth : ∀ ch, (glyph ch).length = width) (chars : List Byte) :
    (positionFrame c row col ++ chars.flatMap fun ch => dataFrame c dinv (glyph ch)).length =
      143 + chars.length * (62 + 27 * width) := by
  simp only [List.length_append, positionFrame_length, List.length_flatMap, dataFrame_length, hwidth,
    List.map_const', List.sum_replicate, smul_eq_mul]

/-- An operation that performs events emits them; `n` is their number. -/
theorem exec_sends {i : Instr} {s : State} {es fs : List Event} {n : Nat}
    (hexec : exec i s = .next (s.perform es)) (hevents : es = fs) (hlength : fs.length = n) :
    ∃ t, exec i s = .next t ∧ Emits s t fs ∧ t.trace.length = s.trace.length + n := by
  subst hevents
  exact ⟨_, hexec, perform_emits s es, by rw [perform_trace_length, hlength]⟩

/-! ### What the fills and `IMAGE` perform -/

/-- R125: the clipped rows lie on the screen. -/
theorem add_clipRows_le {srow : Byte} (rows : Byte) (h : srow.toNat < 8) :
    srow.toNat + clipRows srow rows ≤ 8 := by
  simp only [clipRows, clipEnd, numRows]
  omega

theorem patternRow_length (s : State) (ptr : PsAddr) (plen width : Nat) :
    (s.patternRow ptr plen width).length = width := by
  rw [State.patternRow, List.length_map, List.length_range]

theorem imageRow_length (s : State) (ptr : PsAddr) (icols i width : Nat) :
    (s.imageRow ptr icols i width).length = width := by
  rw [State.imageRow, List.length_map, List.length_range]

theorem exec_fillscr (s : State) (v : Byte) :
    exec (.fillscr v) s = .next (s.perform
      (rectEvents s.cfg s.dinv 0 0 8 fun _ => List.replicate 128 v)) := rfl

section Rectangles
variable {s : State} {srow scol rows cols : Byte}

/-- R128: a pattern of no bytes is refused. -/
theorem exec_fillpat_no_pattern (ptr : PsAddr) :
    exec (.fillpat srow scol rows cols 0 ptr) s = .refused .patternLengthZero := rfl

section Empty
variable (h : emptyRect srow scol rows cols = true)
include h

/-- R126: an empty rectangle is not filled. -/
theorem exec_fillarea_empty (v : Byte) : exec (.fillarea srow scol rows cols v) s = .next s := by
  simp only [exec, execFillarea, h, if_true, State.perform_nil]

/-- R129: an empty rectangle takes no pattern. -/
theorem exec_fillpat_empty {plen : Byte} (hplen : plen ≠ 0) (ptr : PsAddr) :
    exec (.fillpat srow scol rows cols plen ptr) s = .next s := by
  simp only [exec, execFillpat, hplen, h, if_true, if_false, State.perform_nil]

/-- R132: an empty rectangle takes no image. -/
theorem exec_image_empty (ptr : PsAddr) : exec (.image srow scol rows cols ptr) s = .next s := by
  simp only [exec, execImage, h, if_true, State.perform_nil]

end Empty

section Nonempty
variable (h : ¬ emptyRect srow scol rows cols = true)
include h

/-- R126: each clipped row is the byte filled, once per clipped column. -/
theorem exec_fillarea (v : Byte) : exec (.fillarea srow scol rows cols v) s = .next (s.perform
    (rectEvents s.cfg s.dinv srow.toNat scol.toNat (clipRows srow rows) fun _ =>
      List.replicate (clipCols scol cols) v)) := if_neg h

/-- R129: each clipped row is the pattern from its start. -/
theorem exec_fillpat {plen : Byte} {ptr : PsAddr} (hplen : plen ≠ 0)
    (hps : ptr.toNat + plen.toNat ≤ 65536) :
    exec (.fillpat srow scol rows cols plen ptr) s = .next (s.perform
      (rectEvents s.cfg s.dinv srow.toNat scol.toNat (clipRows srow rows) fun _ =>
        s.patternRow ptr plen.toNat (clipCols scol cols))) := by
  have hin : inPs ptr plen.toNat = true := decide_eq_true hps
  exact (if_neg hplen).trans ((if_neg h).trans (if_pos hin))

/-- R131, R132: each clipped row is its own row of the image. -/
theorem exec_image {ptr : PsAddr} (hps : ptr.toNat + rows.toNat * cols.toNat ≤ 65536) :
    exec (.image srow scol rows cols ptr) s = .next (s.perform
      (rectEvents s.cfg s.dinv srow.toNat scol.toNat (clipRows srow rows) fun i =>
        s.imageRow ptr cols.toNat i (clipCols scol cols))) := by
  have hin : inPs ptr (rows.toNat * cols.toNat) = true := decide_eq_true hps
  exact (if_neg h).trans (if_pos hin)

/-- R134: an operation that draws a rectangle, as the frames it sends and their number. -/
theorem exec_rect_sends {i : Instr} {rowBytes : Nat → List Byte}
    (hexec : exec i s = .next (s.perform
      (rectEvents s.cfg s.dinv srow.toNat scol.toNat (clipRows srow rows) rowBytes)))
    (hwidth : ∀ k, (rowBytes k).length = clipCols scol cols) :
    ∃ t, exec i s = .next t ∧
      Emits s t ((List.range (clipRows srow rows)).flatMap fun k =>
        positionFrame s.cfg (srow.toNat + k) scol.toNat ++ dataFrame s.cfg s.dinv (rowBytes k)) ∧
      t.trace.length = s.trace.length +
        clipRows srow rows * (143 + 62 + 27 * clipCols scol cols) := by
  rw [emptyRect_iff, not_or, not_or, Nat.not_le, Nat.not_le] at h
  obtain ⟨hrow, hcol, -⟩ := h
  exact exec_sends hexec (rectEvents_frames _ _ (add_clipRows_le rows hrow) hcol _)
    (rectFrames_length _ _ _ _ _ hwidth)

end Nonempty

end Rectangles

/-- Settles O34: the whole screen is eight rows of 128 bytes. -/
theorem fillscrSendsEightRows : Obligations.FillscrSendsEightRows := by
  intro s v
  refine exec_sends (exec_fillscr s v) ?_ ?_
  · rw [rectEvents_frames _ _ (by decide) (by decide)]
    simp only [Nat.zero_add]
  · have hlength := rectFrames_length s.cfg s.dinv 0 0 8 (width := 128)
      (rowBytes := fun _ => List.replicate 128 v) fun _ => List.length_replicate
    simpa only [Nat.zero_add] using hlength

/-- Settles O35: `emptyRect` is the rule's emptiness, and what is not empty is sent row by row. -/
theorem fillareaSendsTheClippedRectangle : Obligations.FillareaSendsTheClippedRectangle := by
  intro s srow scol rows cols v
  have hempty := emptyRect_iff srow scol rows cols
  refine ⟨?_, fun h => exec_fillarea_empty (hempty.mpr h) v, fun h => ?_⟩
  · rw [← hempty]
    simp [emptyRect, clipEnd]
  · have hne := mt hempty.mp h
    exact exec_rect_sends hne (exec_fillarea hne v) fun _ => List.length_replicate

/-- Settles O36: every row is the pattern from its start; the refusal and the empty rectangle come
before it. -/
theorem fillpatCyclesThePatternOnEveryRow : Obligations.FillpatCyclesThePatternOnEveryRow := by
  intro s srow scol rows cols plen ptr
  have hempty := emptyRect_iff srow scol rows cols
  refine ⟨?_, fun hplen h => exec_fillpat_empty (hempty.mpr h) hplen ptr, fun hplen h hps => ?_⟩
  · rintro rfl
    exact exec_fillpat_no_pattern ptr
  · have hne := mt hempty.mp h
    exact exec_rect_sends hne (exec_fillpat hne hplen hps) fun _ => patternRow_length s _ _ _

/-- Settles O37: row `i` is the image from index `i * icols` on. -/
theorem imageSendsEachRowFromItsOwnStart : Obligations.ImageSendsEachRowFromItsOwnStart := by
  intro s srow scol irows icols ptr
  have hempty := emptyRect_iff srow scol irows icols
  refine ⟨fun h => exec_image_empty (hempty.mpr h) ptr, fun h hps => ?_⟩
  have hne := mt hempty.mp h
  exact exec_rect_sends hne (exec_image hne hps) fun i => imageRow_length s _ _ i _

/-! ### Equal fills -/

/-- R130: a row of a one-byte pattern is that byte throughout. -/
theorem patternRow_one (s : State) (ptr : PsAddr) (width : Nat) :
    s.patternRow ptr 1 width = List.replicate width (psByte s.ps ptr.toNat) := by
  simp [State.patternRow, Nat.mod_one]

/-- R127: `FILLAREA` of a rectangle that clips to the whole screen is `FILLSCR`. -/
theorem exec_fillarea_whole_screen (s : State) {rows cols : Byte} (hrows : clipRows 0 rows = 8)
    (hcols : clipCols 0 cols = 128) (v : Byte) :
    exec (.fillarea 0 0 rows cols v) s = exec (.fillscr v) s := by
  have hne : ¬ emptyRect 0 0 rows cols = true := by
    refine not_emptyRect (by decide) (by decide) ?_ ?_
    · rintro rfl; exact absurd hrows (by decide)
    · rintro rfl; exact absurd hcols (by decide)
  rw [exec_fillarea hne, hrows, hcols]
  rfl

/-- R130: `FILLPAT` with a one-byte pattern is `FILLAREA` with that byte, on every rectangle. -/
theorem exec_fillpat_one (s : State) (srow scol rows cols : Byte) (ptr : PsAddr) :
    exec (.fillpat srow scol rows cols 1 ptr) s =
      exec (.fillarea srow scol rows cols (psByte s.ps ptr.toNat)) s := by
  by_cases h : emptyRect srow scol rows cols = true
  · rw [exec_fillpat_empty h (by decide), exec_fillarea_empty h]
  · have hps : ptr.toNat + (1 : Byte).toNat ≤ 65536 := ptr.isLt
    have hone : (1 : Byte).toNat = 1 := rfl
    rw [exec_fillpat h (by decide) hps, exec_fillarea h, hone, patternRow_one]

/-- Settles O38: the rectangles clip alike, and a one-byte pattern repeats its byte. -/
theorem equalFills : Obligations.EqualFills := by
  intro s x
  refine ⟨exec_fillarea_whole_screen s (by decide) (by decide) x,
    exec_fillarea_whole_screen s (by decide) (by decide) x, ?_, ?_⟩
  · have hrows : clipRows 7 255 = clipRows 7 1 := by decide
    rw [exec_fillarea (by decide), exec_fillarea (by decide), hrows]
  · rintro srow scol rows cols ptr rfl
    exact exec_fillpat_one s srow scol rows cols ptr

/-! ### What text performs -/

section Text
variable {s : State} {row col : Byte} {ptr : PsAddr}

/-- R118: `TEXT` at a position off the screen does nothing. -/
theorem exec_text_off_screen (h : row.toNat ≥ 8 ∨ col.toNat ≥ 128) :
    exec (.text row col ptr) s = .next s := by
  have hoff : (row.toNat ≥ numRows || col.toNat ≥ numCols) = true := by simpa using h
  simp only [exec, execText, hoff, if_true, State.perform_nil]

/-- R121: `TEXT2X` where two rows do not fit, or at a column off the screen, does nothing. -/
theorem exec_text2x_off_screen (h : row.toNat ≥ 7 ∨ col.toNat ≥ 128) :
    exec (.text2x row col ptr) s = .next s := by
  have hoff : (row.toNat ≥ numRows - 1 || col.toNat ≥ numCols) = true := by simpa using h
  simp only [exec, execText2x, hoff, if_true, State.perform_nil]

/-- R120: of a string `TEXT` uses only the characters drawn. -/
theorem exec_text_congr {ptr' : PsAddr} {codes codes' : List Byte} (h : stringIs s ptr codes)
    (h' : stringIs s ptr' codes')
    (hclip : clipText glyph6Width col.toNat codes = clipText glyph6Width col.toNat codes') :
    exec (.text row col ptr) s = exec (.text row col ptr') s := by
  simp only [exec, execText, stringAt_of h, stringAt_of h', hclip]

end Text

/-- A string cut to the characters that fit has the same characters drawn. -/
theorem take_take_min_length (codes : List Byte) (n : Nat) :
    (codes.take (min codes.length n)).take n = codes.take n := by
  rw [List.take_take, Nat.min_eq_right (Nat.min_le_right _ n), Nat.min_comm, ← List.take_eq_take_min]

/-- Settles O31: the events of `exec_text` are these frames. -/
theorem textSendsOneFramePerGlyph : Obligations.TextSendsOneFramePerGlyph := by
  intro s row col ptr
  refine ⟨exec_text_off_screen, fun codes hrow hcol hstring hfonts => ?_⟩
  refine exec_sends (exec_text hrow hcol hstring hfonts)
    (textPass_frames s.cfg s.dinv hrow hcol _ _) ?_
  rw [textFrames_length _ _ _ _ (width := 6) (by simp), List.length_take, Nat.min_comm]

/-- Settles O32: a string and its part that fits clip to the same characters. -/
theorem textPrefixLaw : Obligations.TextPrefixLaw := by
  intro s row col ptr ptr' codes hcol h h'
  refine exec_text_congr h h' ?_
  rw [clipText_take glyph6Width (by decide) (by decide) _ _ hcol,
    clipText_take glyph6Width (by decide) (by decide) _ _ hcol, take_take_min_length]

/-- Settles O33: the events of `exec_text2x` are the frames of two passes. -/
theorem text2xSendsTwoPasses : Obligations.Text2xSendsTwoPasses := by
  intro s row col ptr
  refine ⟨exec_text2x_off_screen, fun codes hrow hcol hstring hfonts => ?_⟩
  have hpasses : List.range 2 = [0, 1] := rfl
  rw [hpasses, List.flatMap_cons, List.flatMap_cons, List.flatMap_nil, List.append_nil]
  refine exec_sends (exec_text2x hrow hcol hstring hfonts) ?_ ?_
  · rw [textPass_frames s.cfg s.dinv (by omega) hcol, textPass_frames s.cfg s.dinv (by omega) hcol]
    rfl
  · rw [List.length_append, textFrames_length _ _ _ _ (width := 8) (by simp),
      textFrames_length _ _ _ _ (width := 8) (by simp), List.length_take, Nat.min_comm]
    ring

end Machine

end Sys2Proof

/-!
The rendering layer, then what the display holds after it (R135): the clipped rectangle or the glyphs
that fit, and every other byte as before.
-/

namespace Sys2Proof

namespace Safety

open Machine

/-! ### Rectangles -/

/-- R125, R135: at a ready RX an operation that performs the rows of a clipped rectangle which is not
empty draws it. -/
theorem Ready.exec_draws {s : State} (h : Ready s) {i : Instr} {srow scol rows cols : Byte}
    {byte : Nat → Nat → Byte} (hrow : srow.toNat < 8) (hcol : scol.toNat < 128) (hrows : rows ≠ 0)
    (hcols : cols ≠ 0)
    (hexec : exec i s = .next (s.perform (rectEvents s.cfg s.dinv srow.toNat scol.toNat
      (clipRows srow rows) fun k => (List.range (clipCols scol cols)).map (byte k)))) :
    ∃ t, exec i s = .next t ∧
      Draws s t srow.toNat (min (srow.toNat + rows.toNat) 8)
        scol.toNat (min (scol.toNat + cols.toNat) 128) byte := by
  have hrowsPos := toNat_pos hrows
  have hcolsPos := toNat_pos hcols
  exact ⟨_, hexec, h.draws srow.toNat (min (srow.toNat + rows.toNat) 8) scol.toNat
    (min (scol.toNat + cols.toNat) 128) byte (by omega) (by omega) (by omega) (by omega)⟩

/-- A run of equal bytes as the byte at each place. -/
theorem replicate_eq_map_range (n : Nat) (v : Byte) :
    List.replicate n v = (List.range n).map fun _ => v := by
  rw [List.map_const', List.length_range]

/-- Settles O40: the rectangle is the whole screen. -/
theorem fillscrSetsEveryByte : Obligations.FillscrSetsEveryByte := by
  intro s v hs
  have hexec := exec_fillscr s v
  rw [replicate_eq_map_range] at hexec
  exact ⟨_, hexec, hs.draws 0 8 0 128 _ (by decide) (by decide) (by decide) (by decide)⟩

/-- Settles O41: every row is the one byte. -/
theorem fillareaFillsTheRectangle : Obligations.FillareaFillsTheRectangle := by
  intro s srow scol rows cols v hs hrow hcol hrows hcols
  have hexec := exec_fillarea (s := s) (not_emptyRect hrow hcol hrows hcols) v
  rw [replicate_eq_map_range] at hexec
  exact hs.exec_draws hrow hcol hrows hcols hexec

/-- Settles O42: every row is the pattern from its start. -/
theorem fillpatFillsTheRectangle : Obligations.FillpatFillsTheRectangle := by
  intro s srow scol rows cols plen ptr hs hrow hcol hrows hcols hplen hps
  exact hs.exec_draws hrow hcol hrows hcols
    (exec_fillpat (not_emptyRect hrow hcol hrows hcols) hplen hps)

/-- Settles O43: every row is the image's own. -/
theorem imageFillsTheRectangle : Obligations.ImageFillsTheRectangle := by
  intro s srow scol irows icols ptr hs hrow hcol hrows hcols hps
  exact hs.exec_draws hrow hcol hrows hcols
    (exec_image (not_emptyRect hrow hcol hrows hcols) hps)

/-! ### Bands of rows -/

/-- A drawing of `height` rows and `width` columns at (`r0`, `c0`), with the cursor after it (R156).
Unlike `Draws` it says where the cursor is when `width` is 0, as after a text of which no glyph fits. -/
structure Fills (s t : State) (r0 height c0 width : Nat) (byte : Nat → Nat → Byte) : Prop where
  wrote : Wrote s t (rectAt r0 height c0 width fun i j => byte i j ^^^ mask s.dinv)
  page : t.rx.regs.page.toNat + 1 = r0 + height
  col : t.rx.regs.col = colAfter s.cfg.colOverflow (c0 + width)
  mark : t.rx.regs.overflowed = markAfter s.cfg.colOverflow (c0 + width)

section RectAt
variable {r0 height c0 width : Nat} {byte : Nat → Nat → Byte} {p : BitVec 3} {q : BitVec 7}

theorem rectAt_inside (h : inRect r0 (r0 + height) c0 (c0 + width) p q) :
    rectAt r0 height c0 width byte p q = some (byte (p.toNat - r0) (q.toNat - c0)) := if_pos h

theorem rectAt_outside (h : ¬ inRect r0 (r0 + height) c0 (c0 + width) p q) :
    rectAt r0 height c0 width byte p q = none := if_neg h

end RectAt

/-- Bytes outside a rectangle do not matter. -/
theorem rectAt_congr {r0 height c0 width : Nat} {byte byte' : Nat → Nat → Byte}
    (h : ∀ i j, i < height → j < width → byte i j = byte' i j) (p : BitVec 3) (q : BitVec 7) :
    rectAt r0 height c0 width byte p q = rectAt r0 height c0 width byte' p q := by
  unfold rectAt
  split
  next hin => rw [h _ _ (by omega) (by omega)]
  next => rfl

/-- A rectangle and the row right below it are one rectangle. -/
theorem rectAt_succ (r0 height c0 width : Nat) (byte : Nat → Nat → Byte) (p : BitVec 3)
    (q : BitVec 7) :
    (rectAt (r0 + height) 1 c0 width (fun _ => byte height) p q).or
        (rectAt r0 height c0 width byte p q) =
      rectAt r0 (height + 1) c0 width byte p q := by
  unfold rectAt
  by_cases hcols : c0 ≤ q.toNat ∧ q.toNat < c0 + width
  · by_cases hlast : p.toNat = r0 + height
    · rw [if_pos ⟨by omega, hcols⟩, Option.some_or, if_pos ⟨by omega, hcols⟩,
        show p.toNat - r0 = height by omega]
    · rw [if_neg (by omega), Option.none_or]
      exact if_congr (by omega) rfl rfl
  · rw [if_neg (by omega), if_neg (by omega), if_neg (by omega)]
    rfl

section Fills
variable {s t u : State} {r0 height c0 width : Nat} {byte byte' : Nat → Nat → Byte}

theorem Fills.congr (h : Fills s t r0 height c0 width byte)
    (hbyte : ∀ i j, i < height → j < width → byte i j = byte' i j) :
    Fills s t r0 height c0 width byte' :=
  ⟨h.wrote.congr (rectAt_congr fun i j hi hj => by rw [hbyte i j hi hj]), h.page, h.col, h.mark⟩

/-- A band of rows, then the row right below it. -/
theorem Fills.trans (h : Fills s t r0 height c0 width byte)
    (h' : Fills t u (r0 + height) 1 c0 width fun _ => byte height) :
    Fills s u r0 (height + 1) c0 width byte := by
  obtain ⟨hwrote, hpage, hcol, hmark⟩ := h'
  rw [h.wrote.cfg] at hcol hmark
  rw [h.wrote.dinv] at hwrote
  have hband := rectAt_succ r0 height c0 width fun i j => byte i j ^^^ mask s.dinv
  exact ⟨(h.wrote.trans hwrote).congr hband, hpage, hcol, hmark⟩

/-- R135: what a band leaves, as claims have it. -/
theorem Fills.draws (h : Fills s t r0 height c0 width byte) :
    Draws s t r0 (r0 + height) c0 (c0 + width) byte where
  inside p q hin := by
    rw [h.wrote.ram, rectAt_inside hin]
    rfl
  outside p q hout := by
    rw [h.wrote.ram, rectAt_outside hout]
    rfl
  page := h.page
  col := h.col
  mark := by rw [h.mark, markAfter_iff]
  others := h.wrote.others
  ready := h.wrote.ready

/-- R103: a band of no column leaves what the position command of its last row leaves. -/
theorem Fills.cursor (h : Fills s t r0 height c0 0 byte) (hcol : c0 < 128) {page : BitVec 3}
    (hpage : page.toNat + 1 = r0 + height) :
    Ready t ∧ (∀ p q, t.ram p q = s.ram p q) ∧
      sameDisplay t.rx.regs
        { s.rx.regs with page := page, col := BitVec.ofNat 7 c0, overflowed := false } := by
  have hp : t.rx.regs.page = page := BitVec.eq_of_toNat_eq (by have := h.page; omega)
  have hc : t.rx.regs.col = BitVec.ofNat 7 c0 := h.col.trans (colAfter_of_lt hcol)
  have ho : t.rx.regs.overflowed = false := h.mark.trans (markAfter_of_lt hcol)
  have hothers := h.wrote.others
  rw [hp, hc, ho] at hothers
  refine ⟨h.wrote.ready, fun p q => h.draws.outside p q ?_, hothers⟩
  rintro ⟨-, hq⟩
  omega

end Fills

/-! ### Text -/

/-- R118, R119: at a ready RX a pass over the characters of a string that fit draws their glyphs, `w`
columns each, side by side. -/
theorem Ready.textPass_fills {s : State} (h : Ready s) {row col w : Nat} (hw : 0 < w)
    (hrow : row < 8) (hcol : col < 128) (codes : List Byte) (glyph : Byte → Nat → Byte) :
    Fills s (s.perform (Machine.textPass s.cfg s.dinv row col
        ((codes.take ((128 - col) / w)).map fun ch => (List.range w).map (glyph ch))))
      row 1 col (w * min codes.length ((128 - col) / w))
      fun _ j => glyph (codes.getD (j / w) 0) (j % w) := by
  have hlength : (codes.take ((128 - col) / w)).length = min codes.length ((128 - col) / w) := by
    rw [List.length_take, Nat.min_comm]
  have hfits : w * min codes.length ((128 - col) / w) ≤ 128 - col :=
    (Nat.mul_le_mul_left w (Nat.min_le_right _ _)).trans (Nat.mul_div_le _ _)
  obtain ⟨hwrote, hpage, hcol', hmark⟩ := h.textPass hw hrow hcol (codes.take ((128 - col) / w))
    glyph (by rw [hlength]; omega)
  rw [hlength] at hwrote hcol' hmark
  refine Fills.congr ⟨hwrote, by rw [hpage, toNat_page hrow], hcol', hmark⟩ fun i j _ hj => ?_
  have hdrawn : j / w < (128 - col) / w :=
    (Nat.div_lt_of_lt_mul hj).trans_le (Nat.min_le_right _ _)
  rw [List.getD_eq_getElem?_getD, List.getElem?_take_of_lt hdrawn, ← List.getD_eq_getElem?_getD]

/-- Settles O44: the one pass draws the glyphs that fit, or none. -/
theorem textWritesItsGlyphs : Obligations.TextWritesItsGlyphs := by
  intro s row col ptr codes hs hrow hcol hstring
  have hfills := hs.textPass_fills (w := 6) (by decide) hrow hcol codes
    fun ch j => s.cfg.font6.getD (gidx ch s.cfg.pmax1x * 6 + j) 0
  refine ⟨_, exec_text hrow hcol hstring (Config.wf_fonts hs.cfg), fun _ => hfills.draws,
    fun hnone => ?_⟩
  rw [hnone] at hfills
  exact hfills.cursor hcol (congrArg (· + 1) (toNat_page hrow))

/-- Settles O45: the second pass draws the lower halves on the row below the first. -/
theorem text2xWritesItsGlyphs : Obligations.Text2xWritesItsGlyphs := by
  intro s row col ptr codes hs hrow hcol hstring
  have hupper := hs.textPass_fills (w := 8) (row := row.toNat) (by decide) (by omega) hcol codes
    fun ch j => s.cfg.font16.getD (gidx ch s.cfg.pmax2x * 16 + 0 * 8 + j) 0
  have hlower := hupper.wrote.ready.textPass_fills (w := 8) (row := row.toNat + 1) (by decide)
    (by omega) hcol codes
    fun ch j => s.cfg.font16.getD (gidx ch s.cfg.pmax2x * 16 + 1 * 8 + j) 0
  have hexec := exec_text2x hrow hcol hstring (Config.wf_fonts hs.cfg)
  rw [State.perform_append] at hexec
  have hfills := Fills.trans (byte := fun half j => s.cfg.font16.getD
    (gidx (codes.getD (j / 8) 0) s.cfg.pmax2x * 16 + half * 8 + j % 8) 0)
    (hupper.congr fun i j hi _ => by rw [Nat.lt_one_iff.mp hi]) hlower
  refine ⟨_, hexec, fun _ => hfills.draws, fun hnone => ?_⟩
  rw [hnone] at hfills
  have hnext : (row + 1).toNat = row.toNat + 1 := by bv_omega
  exact hfills.cursor hcol (congrArg (· + 1) ((toNat_page (by omega)).trans hnext))

end Safety

end Sys2Proof

/-!
A data byte at the cursor, the cursor commands in page addressing mode and outside it, and an RX at
the other address.
-/

namespace Sys2Proof

namespace Machine

open Safety

/-! ### The cursor commands -/

section CursorInPageMode
variable {r : Rx} (h : r.regs.addrMode = 2)
include h

theorem Rx.setPage_pageMode (p : BitVec 3) :
    r.setPage p = r.update fun g => { g with page := p } := by
  simp only [Rx.setPage, Rx.pageMode, h, beq_self_eq_true, if_true]

theorem Rx.setColHigh_pageMode (x : BitVec 4) :
    r.setColHigh x = r.update fun g =>
      { g with col := x.extractLsb' 0 3 ++ g.col.extractLsb' 0 4, overflowed := false } := by
  simp only [Rx.setColHigh, Rx.pageMode, h, beq_self_eq_true, if_true]

theorem Rx.setColLow_pageMode (x : BitVec 4) :
    r.setColLow x = r.update fun g =>
      { g with col := g.col.extractLsb' 4 3 ++ x, overflowed := false } := by
  simp only [Rx.setColLow, Rx.pageMode, h, beq_self_eq_true, if_true]

end CursorInPageMode

section CursorOutsidePageMode
variable {r : Rx} (h : r.regs.addrMode ≠ 2)
include h

theorem Rx.pageMode_eq_false : r.pageMode = false := beq_eq_false_iff_ne.mpr h

theorem Rx.setPage_freeCursor (p : BitVec 3) : r.setPage p = r.freeCursor :=
  if_neg (by rw [Rx.pageMode_eq_false h]; exact Bool.false_ne_true)

theorem Rx.setColHigh_freeCursor (x : BitVec 4) : r.setColHigh x = r.freeCursor :=
  if_neg (by rw [Rx.pageMode_eq_false h]; exact Bool.false_ne_true)

theorem Rx.setColLow_freeCursor (x : BitVec 4) : r.setColLow x = r.freeCursor :=
  if_neg (by rw [Rx.pageMode_eq_false h]; exact Bool.false_ne_true)

end CursorOutsidePageMode

section SendsCursor
variable (s : State) {f : RxRegs → RxRegs}

/-- R151: `SETPAGE` sends its opcode byte, in which RX finds the page. -/
theorem sendsCommand_setpage (p : BitVec 3) (heffect : (s.rx.setPage p).regs = f s.rx.regs) :
    SendsCommand s (.setpage p) [s.cfg.ops.setpage ||| p.setWidth 8] f :=
  sendsCommand_of_row .setpage (s.cfg.ops.setpage ||| p.setWidth 8) 0 rfl
    (fun hwf => OpTable.find_val_or hwf .setpage (page_and p)) fun hwf => by
    simp only [CtrlOp.instr, setpage_operand hwf, Rx.apply, Rx.doSetpage, heffect]

/-- R152: `SETCOLHI` sends its opcode byte, in which RX finds the high part of the column. -/
theorem sendsCommand_setcolhi (x : BitVec 4) (heffect : (s.rx.setColHigh x).regs = f s.rx.regs) :
    SendsCommand s (.setcolhi x) [s.cfg.ops.setcolhi ||| x.setWidth 8] f :=
  sendsCommand_of_row .setcolhi (s.cfg.ops.setcolhi ||| x.setWidth 8) 0 rfl
    (fun hwf => OpTable.find_val_or hwf .setcolhi (low4_and x)) fun hwf => by
    simp only [CtrlOp.instr, setcolhi_operand hwf, Rx.apply, Rx.doSetcolhi, heffect]

/-- R153: `SETCOLLO` sends its opcode byte, in which RX finds the low part of the column. -/
theorem sendsCommand_setcollo (x : BitVec 4) (heffect : (s.rx.setColLow x).regs = f s.rx.regs) :
    SendsCommand s (.setcollo x) [s.cfg.ops.setcollo ||| x.setWidth 8] f :=
  sendsCommand_of_row .setcollo (s.cfg.ops.setcollo ||| x.setWidth 8) 0 rfl
    (fun hwf => OpTable.find_val_or hwf .setcollo (low4_and x)) fun hwf => by
    simp only [CtrlOp.instr, setcollo_operand hwf, Rx.apply, Rx.doSetcollo, heffect]

end SendsCursor

/-- The two parts of a column (R152, R153). -/
theorem extractLsb'_col_append (hi : BitVec 3) (lo : BitVec 4) :
    (hi ++ lo : BitVec 7).extractLsb' 4 3 = hi ∧ (hi ++ lo : BitVec 7).extractLsb' 0 4 = lo := by
  revert hi lo; decide

/-- Settles O48: in page addressing mode each command sets its part of the cursor, and the three
bytes of a position command set all of it. -/
theorem cursorCommandsSetTheirField : Obligations.CursorCommandsSetTheirField := by
  intro s hmode
  refine ⟨fun p => ?_, fun x => ?_, fun x => ?_, fun row col hrow hcol hwf hpending => ?_⟩
  · exact sendsCommand_setpage s p (congrArg Rx.regs (Rx.setPage_pageMode hmode p))
  · obtain ⟨hhigh, hlow⟩ :=
      extractLsb'_col_append (x.extractLsb' 0 3) (s.rx.regs.col.extractLsb' 0 4)
    exact ⟨_, hhigh, hlow,
      sendsCommand_setcolhi s x (congrArg Rx.regs (Rx.setColHigh_pageMode hmode x))⟩
  · obtain ⟨hhigh, hlow⟩ := extractLsb'_col_append (s.rx.regs.col.extractLsb' 4 3) x
    exact ⟨_, hhigh, hlow,
      sendsCommand_setcollo s x (congrArg Rx.regs (Rx.setColLow_pageMode hmode x))⟩
  · have hposition : s.rx.commands s.cfg (positionBytes s.cfg.ops row col) = _ :=
      position_commands hwf hpending hmode hrow hcol
    simp only [positionBytes, Rx.commands_cons, Rx.commands_nil] at hposition
    simp only [hposition, Rx.update_regs]
    exact ⟨toNat_page hrow, toNat_col hcol⟩

/-- Settles O49: outside page addressing mode each command leaves the free cursor. -/
theorem cursorIsFreeOutsidePageMode : Obligations.CursorIsFreeOutsidePageMode := by
  intro s i op arg hmode hi hcode
  refine ⟨s.rx.freeCursor.regs.page, s.rx.freeCursor.regs.col, s.rx.freeCursor.regs.overflowed, ?_⟩
  rcases hi with ⟨p, rfl⟩ | ⟨x, rfl⟩ | ⟨x, rfl⟩
  · obtain ⟨rfl, -⟩ := Code.ctrl.inj hcode
    exact sendsCommand_setpage s p (congrArg Rx.regs (Rx.setPage_freeCursor hmode p))
  · obtain ⟨rfl, -⟩ := Code.ctrl.inj hcode
    exact sendsCommand_setcolhi s x (congrArg Rx.regs (Rx.setColHigh_freeCursor hmode x))
  · obtain ⟨rfl, -⟩ := Code.ctrl.inj hcode
    exact sendsCommand_setcollo s x (congrArg Rx.regs (Rx.setColLow_freeCursor hmode x))

/-! ### A data byte -/

section AdvanceCol
variable {g : RxRegs}

/-- R155: before the last column the column pointer goes one on. -/
theorem advanceCol_of_lt {o : ColOverflow} (h : g.col.toNat < 127) :
    advanceCol o g = { g with col := g.col + 1 } := if_pos h

variable (h : g.col.toNat = 127)
include h

/-- R156: after the last column `wrap` begins the page again. -/
theorem advanceCol_wrap : advanceCol .wrap g = { g with col := 0 } := if_neg (by omega)

/-- R156: `saturate` stays at the last column. -/
theorem advanceCol_saturate : advanceCol .saturate g = g := if_neg (by omega)

/-- R156: `discard` stays at the last column and sets the overflow mark. -/
theorem advanceCol_discard : advanceCol .discard g = { g with overflowed := true } :=
  if_neg (by omega)

end AdvanceCol

section DataByte
variable {r : Rx} {o : ColOverflow} (h : r.regs.addrMode = 2)
include h

/-- R156: under `discard` the overflow mark drops the byte. -/
theorem Rx.dataByte_dropped (hmark : r.regs.overflowed = true ∧ o = .discard) (v : Byte) :
    r.dataByte o v = r := by
  simp [Rx.dataByte, Rx.pageMode, h, hmark]

/-- R155: a byte that is not dropped is written at the cursor, which advances. -/
theorem Rx.dataByte_written (hmark : ¬ (r.regs.overflowed = true ∧ o = .discard)) (v : Byte) :
    r.dataByte o v = (r.writeRam r.regs.page r.regs.col v).update (advanceCol o) := by
  simp [Rx.dataByte, Rx.pageMode, h, hmark]

/-- R155: of the registers a data byte moves the column and the overflow mark alone. -/
theorem Rx.dataByte_others (v : Byte) :
    (r.dataByte o v).regs = { r.regs with
      col := (r.dataByte o v).regs.col
      overflowed := (r.dataByte o v).regs.overflowed } := by
  by_cases hmark : r.regs.overflowed = true ∧ o = .discard
  · rw [Rx.dataByte_dropped h hmark]
  · rw [Rx.dataByte_written h hmark]
    exact advanceCol_others o r.regs

end DataByte

/-- A data byte keeps RAM in canonical form. -/
theorem Rx.dataByte_wf {r : Rx} (h : Memory.wf .disp r.ram = true) (o : ColOverflow) (v : Byte) :
    Memory.wf .disp (r.dataByte o v).ram = true := by
  simp only [Rx.dataByte]
  split
  · split
    · exact h
    · exact Memory.write_wf v h (dispKey_lt _ _)
  · exact Memory.write_wf v h (dispKey_lt _ _)

/-- Registers that show the same display have one page and one overflow mark. -/
theorem page_mark_of_sameDisplay {g k : RxRegs} (h : sameDisplay g k) :
    g.page = k.page ∧ g.overflowed = k.overflowed := by
  unfold sameDisplay at h
  rw [h]
  exact ⟨rfl, rfl⟩

/-- Equal registers show the same display. -/
theorem sameDisplay_of_eq {g k : RxRegs} (h : g = k) : sameDisplay g k := h ▸ sameDisplay_refl g

end Machine

namespace Safety

open Machine

/-- R145: `SENDB` and `WDATA` in an open data frame hand RX a data byte, and the frame stays open. -/
theorem InFrame.exec_dataByte {s : State} {i : Instr} {b v : Byte} (h : InFrame s .data)
    (hi : (i = .sendByte b ∧ v = b) ∨ (i = .wdata b ∧ v = if s.dinv then ~~~ b else b)) :
    ∃ t, exec i s = .next t ∧ InFrame t .data ∧
      t.rx = (s.rx.dataByte s.cfg.colOverflow v).decoder (frameLine true) .data v 0 := by
  have hexec : exec i s = .next (s.perform (sendbEvents v)) := by
    rcases hi with ⟨rfl, rfl⟩ | ⟨rfl, rfl⟩
    · rfl
    · rw [← pixelByte_eq_ite]; rfl
  have hreceive : s.rx.receive s.cfg v = s.rx.dataByte s.cfg.colOverflow v := by
    simp only [Rx.receive, h.phase]
  have hspec : (s.rx.dataByte s.cfg.colOverflow v).unspecified = false :=
    (Rx.dataByte_unspecified s.rx s.cfg.colOverflow v).trans h.specified
  have hrx := h.sendb_rx (by decide) (by rw [hreceive]; exact hspec)
  rw [hreceive, Rx.dataByte_phase, h.phase] at hrx
  refine ⟨_, hexec, ?_, hrx⟩
  exact
    { pins := by rw [State.perform_pins, h.pins, applyAll_sendb]
      seen := by rw [hrx]; rfl
      ram := by rw [hrx]; exact Rx.dataByte_wf h.ram _ v
      specified := by rw [hrx]; exact hspec
      phase := by rw [hrx]; rfl
      slot := by rw [hrx]; rfl }

/-- A command that only clears the overflow mark and sets the column keeps the page and RAM. -/
theorem clears_mark_of_sendsCommand {s : State} {i : Instr} {bytes : List Byte} {q : BitVec 7}
    (h : SendsCommand s i bytes fun g => { g with col := q, overflowed := false })
    (hs : Listening s) :
    ∃ t, exec i s = .next t ∧ t.rx.regs.overflowed = false ∧ t.rx.regs.page = s.rx.regs.page ∧
      ∀ p q, t.ram p q = s.ram p q := by
  obtain ⟨t, hexec, -, heffect⟩ := h
  obtain ⟨-, hram, hsame⟩ := heffect hs
  obtain ⟨hpage, hmark⟩ := page_mark_of_sameDisplay hsame
  exact ⟨t, hexec, hmark, hpage, hram⟩

/-- Settles O46: the frame hands RX the data byte, which the mark under `discard` drops and which is
otherwise written; the column commands clear the mark. -/
theorem dataByteIsWrittenAtTheCursor : Obligations.DataByteIsWrittenAtTheCursor := by
  constructor
  · intro s i b v hs hmode hi
    obtain ⟨t, hexec, hopen, hrx⟩ := hs.exec_dataByte hi
    have hothers := Rx.dataByte_others (o := s.cfg.colOverflow) hmode v
    refine ⟨t, hexec, hopen, ?_, ?_, fun hmark => ?_, fun hmark => ?_⟩
    · rw [hrx, Rx.decoder_page, hothers]
    · rw [hrx]
      exact sameDisplay_trans (sameDisplay_decoder _ _ _ _ _) (sameDisplay_of_eq hothers)
    · rw [Rx.dataByte_dropped hmode hmark] at hrx
      refine ⟨fun p q => ?_, ?_, ?_⟩
      · rw [State.ram, hrx, Rx.decoder_ramByte, State.ram]
      · rw [hrx, Rx.decoder_col]
      · rw [hrx, Rx.decoder_overflowed, hmark.1]
    · rw [Rx.dataByte_written hmode hmark] at hrx
      have hram (p : BitVec 3) (q : BitVec 7) : t.ram p q =
          if p = s.rx.regs.page ∧ q = s.rx.regs.col then v else s.ram p q := by
        rw [State.ram, hrx, Rx.decoder_ramByte, Rx.update_ramByte, Rx.writeRam_ramByte hs.ram,
          State.ram]
      rw [hrx, Rx.decoder_col, Rx.decoder_overflowed, Rx.update_regs, Rx.writeRam_regs]
      refine ⟨(hram _ _).trans (if_pos ⟨rfl, rfl⟩),
        fun p q hother => (hram p q).trans (if_neg hother), fun hcol => ?_,
        fun hcol ho => ?_, fun hcol ho => ?_, fun hcol ho => ?_⟩
      · rw [advanceCol_of_lt hcol]
        exact ⟨by bv_omega, rfl⟩
      · rw [ho, advanceCol_wrap hcol]
        exact ⟨rfl, rfl⟩
      · rw [ho, advanceCol_saturate hcol]
        exact ⟨BitVec.eq_of_toNat_eq hcol, rfl⟩
      · rw [ho, advanceCol_discard hcol]
        exact ⟨BitVec.eq_of_toNat_eq hcol, rfl⟩
  · intro s i x hs hi
    obtain ⟨-, hhigh, hlow, -⟩ := cursorCommandsSetTheirField s hs.pageMode
    rcases hi with rfl | rfl
    · obtain ⟨q, -, -, hsends⟩ := hlow x
      exact clears_mark_of_sendsCommand hsends hs.toListening
    · obtain ⟨q, -, -, hsends⟩ := hhigh x
      exact clears_mark_of_sendsCommand hsends hs.toListening

end Safety

namespace Machine

open Safety

/-! ### An RX at the other address -/

/-- R22, R142: with straps that disagree TX does not send the address RX answers to. -/
theorem devAddr_ne_rxAddr {c : Config} (hc : c.addrOk = true) (hs : c.strap ≠ c.rxStrap) :
    c.devAddr ≠ c.rxAddr := by
  simp only [Config.addrOk, Bool.and_eq_true, bne_iff_ne] at hc
  obtain ⟨-, hne⟩ := hc
  unfold Config.devAddr Config.rxAddr
  cases hstrap : c.strap <;> cases hrx : c.rxStrap
  · exact absurd (hstrap.trans hrx.symm) hs
  · exact hne
  · exact hne.symm
  · exact absurd (hstrap.trans hrx.symm) hs

section NoFrameOpen
variable {c : Config} {r : Rx} (hu : r.unspecified = false) (hp : r.regs.phase = .idle)
  (hw : r.prev = LineState.idle)
include hu hp hw

/-- R147: a STOP with no frame open is nothing to RX. -/
theorem end_ignored : endEvents.foldl (emit c) (Pins.idle, r) = (Pins.idle, r) := by
  simp only [LineState.idle] at hw
  simp [endEvents, emit, Pins.idle, Pins.wire, levelOf, Rx.observe, Rx.react, hu, hw, hp,
    LineState.driven, classify, Rx.onStep, Rx.onRise, Rx.onStop]
  apply Rx.ext <;> simp [hw, hu]

/-- R142: frames of TX at an RX that answers to the other address move its wire decoder alone. -/
theorem IsFrames.ignored {es : List Event} (h : IsFrames c es) (ha : c.devAddr ≠ c.rxAddr) :
    ∃ sh sl, es.foldl (emit c) (Pins.idle, r) =
      (Pins.idle, r.decoder LineState.idle .idle sh sl) := by
  obtain ⟨fs, rfl, hfs⟩ := h
  refine frames_ignored fs (fun f hf => ?_) hu hp hw
  obtain ⟨ctl, payload, rfl, -⟩ := hfs f hf
  exact ⟨c.devAddr, ctl :: payload, rfl, ha⟩

end NoFrameOpen

/-- R142, R162: an instruction that begins and ends between frames moves nothing but the wire decoder
of an RX at the other address. -/
theorem exec_unaddressed_rx {i : Instr} {s t : State} (hi : after .idle i = some .idle)
    (h : exec i s = .next t) (ha : s.cfg.devAddr ≠ s.cfg.rxAddr) (hpins : s.pins = Pins.idle)
    (hw : s.rx.prev = LineState.idle) (hu : s.rx.unspecified = false)
    (hp : s.rx.regs.phase = .idle) :
    ∃ sh sl, t.rx = s.rx.decoder LineState.idle .idle sh sl := by
  have hself : s.rx = s.rx.decoder LineState.idle .idle s.rx.regs.shift s.rx.regs.slot :=
    Rx.eq_decoder s.rx _ _ _ _ hw hp rfl rfl
  cases exec_effect h with
  | start | openc | opend => cases hi
  | byte v | pixel v => cases hi
  | stop _ => exact ⟨_, _, by rw [State.perform_rx, hpins, end_ignored hu hp hw]; exact hself⟩
  | init =>
    have hpinset := initPins_rx s.cfg s.pins s.rx (by rw [hw, hpins, Pins.idle_wire]) hp hu
    rw [hp, ← hself, hpins] at hpinset
    obtain ⟨sh, sl, hframe⟩ := (IsFrames.command s.cfg s.cfg.cmdTable).ignored hu hp hw ha
    rw [commandFrame_frame] at hframe
    exact ⟨sh, sl, by rw [State.perform_rx, List.foldl_append, hpins, hpinset, hframe]⟩
  | invdata f => exact ⟨_, _, hself⟩
  | frames _ _ hes =>
    obtain ⟨sh, sl, hframes⟩ := hes.ignored hu hp hw ha
    exact ⟨sh, sl, by rw [State.perform_rx, hpins, hframes]⟩

/-- Settles O53: what RX shows is untouched where only its wire decoder has moved. -/
theorem unaddressedReceiverIgnoresOperations : Obligations.UnaddressedReceiverIgnoresOperations := by
  intro i s t hi h hcfg hstrap hpins hw hu hp
  obtain ⟨sh, sl, hrx⟩ := exec_unaddressed_rx hi h
    (devAddr_ne_rxAddr (Config.wf_addr hcfg) hstrap) hpins hw hu hp
  obtain ⟨-, hsame, hram⟩ := display_of_decoder_eq (s := s) hrx rfl rfl
  exact ⟨hram, hsame, by rw [hrx, Rx.decoder_phase], by rw [hrx, Rx.decoder_unspecified, hu]⟩

end Machine

end Sys2Proof

/-!
How operations end (R161, R168, R175): normally or by a listed refusal; and what a stopped operation
leaves, from which `CLOSE` and `SETPOS` recover.
-/

namespace Sys2Proof

namespace Machine

open Safety

/-! ### Refusals -/

/-- R44, R175: only fonts that do not cover their printable range lack a glyph. -/
theorem fontsOk_eq_false_of_glyphsOf_none {s : State} {glyph : Byte → Option (List Byte)}
    {g : Byte → List Byte} (hglyph : s.cfg.fontsOk = true → ∀ ch, glyph ch = some (g ch))
    {chars : List Byte} (h : glyphsOf glyph chars = none) : s.cfg.fontsOk = false := by
  by_contra hfonts
  rw [glyphsOf_map (hglyph (Bool.eq_true_of_not_eq_false hfonts))] at h
  cases h

/-- R42, R175: so it is for either half of the glyphs of `FONT16`. -/
theorem fontsOk_eq_false_of_half {s : State} {half : Nat} {chars : List Byte} (hhalf : half < 2)
    (h : glyphsOf (s.glyph16 half) chars = none) : s.cfg.fontsOk = false :=
  fontsOk_eq_false_of_glyphsOf_none (fun hfonts => glyph16_of hfonts half hhalf) h

/-- R44: where no terminator is found there is no string. -/
theorem not_stringIs_of_stringAt_none {s : State} {ptr : PsAddr} (h : s.stringAt ptr = none)
    (codes : List Byte) : ¬ stringIs s ptr codes := by
  intro hstring
  rw [stringAt_of hstring] at h
  cases h

/-- How `TEXT` and `TEXT2X` may end (R175): normally, or refused for the string or for a glyph. -/
def TextOutcome (s : State) (ptr : PsAddr) (o : Host.Outcome State Fault Refusal) : Prop :=
  (∃ t, o = .next t) ∨ ((∀ codes, ¬ stringIs s ptr codes) ∧ o = .refused .operandPastPs) ∨
    (s.cfg.fontsOk = false ∧ o = .refused .glyphPastFont)

theorem exec_text_outcome (s : State) (row col : Byte) (ptr : PsAddr) :
    TextOutcome s ptr (exec (.text row col ptr) s) := by
  simp only [exec, execText]
  split
  · exact .inl ⟨_, rfl⟩
  · cases hstring : s.stringAt ptr with
    | none => exact .inr (.inl ⟨not_stringIs_of_stringAt_none hstring, rfl⟩)
    | some codes =>
      dsimp only
      cases hglyphs : glyphsOf s.glyph6 (clipText glyph6Width col.toNat codes) with
      | none => exact .inr (.inr ⟨fontsOk_eq_false_of_glyphsOf_none glyph6_of hglyphs, rfl⟩)
      | some glyphs => exact .inl ⟨_, rfl⟩

theorem exec_text2x_outcome (s : State) (row col : Byte) (ptr : PsAddr) :
    TextOutcome s ptr (exec (.text2x row col ptr) s) := by
  simp only [exec, execText2x]
  split
  · exact .inl ⟨_, rfl⟩
  · cases hstring : s.stringAt ptr with
    | none => exact .inr (.inl ⟨not_stringIs_of_stringAt_none hstring, rfl⟩)
    | some codes =>
      dsimp only
      cases hupper : glyphsOf (s.glyph16 0) (clipText glyph16Width col.toNat codes) with
      | none => exact .inr (.inr ⟨fontsOk_eq_false_of_half (by decide) hupper, rfl⟩)
      | some upper =>
        cases hlower : glyphsOf (s.glyph16 1) (clipText glyph16Width col.toNat codes) with
        | none => exact .inr (.inr ⟨fontsOk_eq_false_of_half (by decide) hlower, rfl⟩)
        | some lower => exact .inl ⟨_, rfl⟩

/-- R128, R175: `FILLPAT` ends normally or is refused for its pattern. -/
theorem exec_fillpat_outcome (s : State) (srow scol rows cols plen : Byte) (ptr : PsAddr) :
    (∃ t, exec (.fillpat srow scol rows cols plen ptr) s = .next t) ∨ plen = 0 ∨
      (ptr.toNat + plen.toNat > 65536 ∧
        exec (.fillpat srow scol rows cols plen ptr) s = .refused .operandPastPs) := by
  by_cases hplen : plen = 0
  · exact .inr (.inl hplen)
  by_cases hempty : emptyRect srow scol rows cols = true
  · exact .inl ⟨s, exec_fillpat_empty hempty hplen ptr⟩
  by_cases hps : ptr.toNat + plen.toNat ≤ 65536
  · exact .inl ⟨_, exec_fillpat hempty hplen hps⟩
  · have hout : ¬ inPs ptr plen.toNat = true := mt of_decide_eq_true hps
    exact .inr (.inr ⟨Nat.not_le.mp hps,
      (if_neg hplen).trans ((if_neg hempty).trans (if_neg hout))⟩)

/-- R44, R175: `IMAGE` ends normally or is refused for its image. -/
theorem exec_image_outcome (s : State) (srow scol irows icols : Byte) (ptr : PsAddr) :
    (∃ t, exec (.image srow scol irows icols ptr) s = .next t) ∨
      (ptr.toNat + irows.toNat * icols.toNat > 65536 ∧
        exec (.image srow scol irows icols ptr) s = .refused .operandPastPs) := by
  by_cases hempty : emptyRect srow scol irows icols = true
  · exact .inl ⟨s, exec_image_empty hempty ptr⟩
  by_cases hps : ptr.toNat + irows.toNat * icols.toNat ≤ 65536
  · exact .inl ⟨_, exec_image hempty hps⟩
  · have hout : ¬ inPs ptr (irows.toNat * icols.toNat) = true := mt of_decide_eq_true hps
    exact .inr ⟨Nat.not_le.mp hps, (if_neg hempty).trans (if_neg hout)⟩

/-- R126: `FILLAREA` is never refused. -/
theorem exec_fillarea_next (s : State) (srow scol rows cols v : Byte) :
    ∃ t, exec (.fillarea srow scol rows cols v) s = .next t := by
  by_cases hempty : emptyRect srow scol rows cols = true
  · exact ⟨s, exec_fillarea_empty hempty v⟩
  · exact ⟨_, exec_fillarea hempty v⟩

/-- Settles O39: only the four operations with an operand list can be refused, each for its own
reasons. -/
theorem operationsEndNormallyOrAsListed : Obligations.OperationsEndNormallyOrAsListed := by
  intro i s
  cases i with
  | fillpat a b c d e p =>
    rcases exec_fillpat_outcome s a b c d e p with hnext | rfl | ⟨hps, hrefused⟩
    · exact .inl hnext
    · exact .inr (.inl ⟨a, b, c, d, p, rfl, exec_fillpat_no_pattern p⟩)
    · exact .inr (.inr (.inl ⟨a, b, c, d, e, p, rfl, hps, hrefused⟩))
  | image a b c d p =>
    rcases exec_image_outcome s a b c d p with hnext | ⟨hps, hrefused⟩
    · exact .inl hnext
    · exact .inr (.inr (.inr (.inl ⟨a, b, c, d, p, rfl, hps, hrefused⟩)))
  | text r c p =>
    rcases exec_text_outcome s r c p with hnext | ⟨hstring, hrefused⟩ | ⟨hfonts, hrefused⟩
    · exact .inl hnext
    · exact .inr (.inr (.inr (.inr (.inl ⟨r, c, p, .inl rfl, hstring, hrefused⟩))))
    · exact .inr (.inr (.inr (.inr (.inr ⟨r, c, p, .inl rfl, hfonts, hrefused⟩))))
  | text2x r c p =>
    rcases exec_text2x_outcome s r c p with hnext | ⟨hstring, hrefused⟩ | ⟨hfonts, hrefused⟩
    · exact .inl hnext
    · exact .inr (.inr (.inr (.inr (.inl ⟨r, c, p, .inr rfl, hstring, hrefused⟩))))
    · exact .inr (.inr (.inr (.inr (.inr ⟨r, c, p, .inr rfl, hfonts, hrefused⟩))))
  | fillarea a b c d v => exact .inl (exec_fillarea_next s a b c d v)
  | beginSession | sendByte | endSession | openc | opend | close | cmd1 | wdata | setpos | init
  | contrast | invscr | sleep | invdata | fillscr | setcollo | setcolhi | addrmode | setcontrast
  | chargepump | segremap | invertoff | inverton | setmux | dispoff | dispon | setpage | comdir
  | dispoffset | clkdiv => exact .inl ⟨_, rfl⟩

/-! ### A stopped operation -/

/-- A stopped operation unsettles RX only (U14), so the lines stay. -/
@[simp] theorem State.stopHere_pins (s : State) : s.stopHere.pins = s.pins := by
  rcases s.stopHere_eq with e | e <;> rw [e]

/-- A stopped operation unsettles RX only (U14), so the events sent stay. -/
@[simp] theorem State.stopHere_trace (s : State) : s.stopHere.trace = s.trace := by
  rcases s.stopHere_eq with e | e <;> rw [e]

/-- A stopped operation keeps the addressing mode (log entry 15). -/
@[simp] theorem State.stopHere_addrMode (s : State) :
    s.stopHere.rx.regs.addrMode = s.rx.regs.addrMode := by
  rcases s.stopHere_eq with e | e <;> rw [e]
  exact Rx.drift_addrMode _

/-- R16: lines with both output enables set are driven, whatever the latches hold. -/
theorem Pins.wire_driven {p : Pins} (h1 : p.oeScl = true) (h2 : p.oeSda = true) :
    p.wire.driven = true := by
  cases hscl : p.latchScl <;> cases hsda : p.latchSda <;>
    simp [LineState.driven, Pins.wire, levelOf, h1, h2, hscl, hsda]

/-- U14: stopped on driven lines, RX is unspecified, until a STOP if it was not so for good before. -/
theorem State.stopHere_driven {s : State} (h1 : s.pins.oeScl = true) (h2 : s.pins.oeSda = true) :
    s.stopHere.rx.unspecified = true ∧ (s.rx.lost = false → s.stopHere.rx.untilStop = true) := by
  have hdriven := Pins.wire_driven h1 h2
  cases hspec : s.rx.unspecified with
  | false => simp [State.stopHere, hdriven, hspec]
  | true => simp [State.stopHere, hspec, Rx.lost]

/-- The step of an operation that is stopped (R168). -/
theorem step_abandon {s t : State} {k : Nat} {w : HostWord} {i : Instr} {rest : List Input}
    (hs : s.inputs = .abandon k w :: rest) (hd : decodeHost w = .ok i)
    (h : exec i { s with inputs := rest } = .next t) :
    step s = .next (({ s with inputs := rest } : State).stoppedAfter k t) := by
  have hdecode : decode s.cfg.ops (.host w) = .ok i := hd
  have hissue : stepIssue (.host w) { s with inputs := rest } = .next t :=
    (stepIssue_of_decode (s := { s with inputs := rest }) hdecode).trans h
  simp only [step, hs, stepAbandon, stepCut, hissue]

/-- R168: an operation stopped after `k` events has sent its first `k` events, or all of them; stopped
inside them it leaves what `stopHere` makes of the state they led to. -/
theorem stoppedAfter_exec {i : Instr} {s t : State} (h : exec i s = .next t) (k : Nat) :
    ∃ es, t.trace = s.trace ++ es ∧ (s.stoppedAfter k t).trace = s.trace ++ es.take k ∧
      (s.stoppedAfter k t).pins = s.pins.applyAll (es.take k) ∧
      (0 < k → k < es.length → s.stoppedAfter k t = (s.perform (es.take k)).stopHere) := by
  rcases exec_next h with ⟨es, rfl⟩ | ⟨f, -, rfl⟩
  · rw [stoppedAfter_perform]
    refine ⟨es, s.perform_trace es, ?_, ?_, fun hk hlt => if_pos ⟨hk, hlt⟩⟩
    · split <;> simp
    · split <;> simp
  · rw [stoppedAfter_setDinv]
    exact ⟨[], by simp, by simp, by simp, fun _ hlt => absurd hlt (Nat.not_lt_zero k)⟩

end Machine

namespace Safety

open Machine

/-! ### The recovery by `CLOSE` and `SETPOS` -/

/-- R103: `SETPOS` of a valid position at a ready RX sets the cursor. -/
theorem Ready.exec_setpos {s : State} (h : Ready s) {row col : Byte} (hrow : row.toNat < 8)
    (hcol : col.toNat < 128) :
    ∃ t, exec (.setpos row col) s = .next t ∧ Ready t ∧
      t.rx.regs.page = row.extractLsb' 0 3 ∧ t.rx.regs.col = col.extractLsb' 0 7 ∧
      t.rx.regs.overflowed = false := by
  obtain ⟨hwrote, -⟩ := h.setpos hrow hcol
  obtain ⟨hpage, hcolumn, hmark⟩ := setpos_fields h hrow hcol
  exact ⟨_, Machine.exec_setpos s row col, hwrote.ready, hpage, hcolumn, hmark⟩

/-- R146: an RX that a STOP recovered (R168), in page addressing mode and with nothing pending, is
ready. -/
theorem ready_of_recover {s : State} {y : Rx} {c : Config} (hrx : s.rx = y.recover c)
    (hseen : y.prev = LineState.idle) (hpins : s.pins = Pins.idle) (hcfg : s.cfg.wf = true)
    (hstrap : s.cfg.strap = s.cfg.rxStrap) (hmode : y.regs.addrMode = 2)
    (hpending : s.rx.regs.pending = none) : Ready s where
  cfg := hcfg
  addressed := hstrap
  pins := hpins
  seen := by rw [hrx, Rx.recover_prev, hseen]
  ram := by rw [hrx]; exact Memory.wf_nil .disp
  specified := by rw [hrx, Rx.recover_unspecified]
  phase := by rw [hrx, Rx.recover_phase]
  pending := hpending
  pageMode := by rw [hrx, Rx.recover_addrMode, hmode]

/-- R168: `CLOSE` recovers an RX that a stopped operation left unspecified; in page addressing mode it
leaves it ready, unless an argument is pending (R150). -/
theorem exec_close_adrift {s v : State} (hclose : exec .close s = .next v)
    (h1 : s.pins.oeScl = true) (h2 : s.pins.oeSda = true) (hseen : s.rx.prev = s.pins.wire)
    (hu : s.rx.unspecified = true) (ht : s.rx.untilStop = true) (hidle : v.pins = Pins.idle) :
    v.rx.unspecified = false ∧ v.rx.regs.phase = .idle ∧ v.rx.regs.slot = 0 ∧
      (s.rx.regs.addrMode = 2 → s.cfg.wf = true → s.cfg.strap = s.cfg.rxStrap →
        (∃ op n, v.rx.regs.pending = some op ∧ s.cfg.ops.find op = some n ∧ n.takesArg = true) ∨
          Ready v) := by
  obtain ⟨y, hrecover, hyseen, hymode⟩ :=
    foldl_emit_end_adrift s.cfg (s.pins, s.rx) h1 h2 hseen hu ht
  obtain ⟨hcfg, -⟩ := exec_keeps_cfg_ps hclose
  have hrx : v.rx = y.recover s.cfg := by cases hclose; exact hrecover
  refine ⟨by rw [hrx, Rx.recover_unspecified], by rw [hrx, Rx.recover_phase],
    by rw [hrx, Rx.recover_slot], fun hmode hwf hstrap => ?_⟩
  cases hpending : v.rx.regs.pending with
  | some op =>
    rw [hrx, Rx.recover_pending] at hpending
    obtain ⟨n, hfind, harg⟩ := legalPending_ok hpending
    exact .inl ⟨op, n, rfl, hfind, harg⟩
  | none =>
    exact .inr (ready_of_recover hrx hyseen hidle (by rw [hcfg, hwf]) (by rw [hcfg, hstrap])
      (hymode.trans hmode) hpending)

/-- Settles O60: the events sent are `stoppedAfter_exec`'s; the STOP of `CLOSE` is O16, and it
recovers an RX that is not unspecified for good, which is then ready unless an argument is pending. -/
theorem stoppedOperationIsRecoveredByClose : Obligations.StoppedOperationIsRecoveredByClose := by
  intro s t k w i rest hs hd hexec hok
  obtain ⟨es, htrace, hsent, hpins, hstop⟩ := stoppedAfter_exec hexec k
  have hstep := step_abandon hs hd hexec
  obtain ⟨hseen, -, -⟩ := stepKeepsTheInvariant s _ hok hstep
  obtain ⟨hcfg, -⟩ := stepKeepsParametersAndOperandStorage s _ hstep
  generalize ({ s with inputs := rest } : State).stoppedAfter k t = u at *
  have hstopped (hk : 0 < k) (hlt : k < es.length) (h1 : u.pins.oeScl = true)
      (h2 : u.pins.oeSda = true) : u.rx.unspecified = true ∧
        ((s.perform (es.take k)).rx.lost = false → u.rx.untilStop = true) := by
    rw [hstop hk hlt, State.stopHere_pins] at h1 h2
    rw [hstop hk hlt]
    exact State.stopHere_driven h1 h2
  refine ⟨es, u, htrace, hstep, hsent, hpins, fun hk hlt h1 h2 => (hstopped hk hlt h1 h2).1,
    fun h1 h2 => ?_⟩
  obtain ⟨v, hclose, hidle, hend⟩ := endResynchronises u .close (.inr rfl) h1 h2 hseen
  refine ⟨v, hclose, hidle, hend, fun hk hlt hlost => ?_⟩
  obtain ⟨hunspec, huntil⟩ := hstopped hk hlt h1 h2
  obtain ⟨hspec, hphase, hslot, hready⟩ :=
    exec_close_adrift hclose h1 h2 hseen hunspec (huntil hlost) hidle
  have hmode : u.rx.regs.addrMode = (s.perform (es.take k)).rx.regs.addrMode := by
    rw [hstop hk hlt, State.stopHere_addrMode]
    rfl
  rw [hmode, hcfg] at hready
  exact ⟨hspec, hphase, hslot, fun hpage hwf hstrap =>
    (hready hpage hwf hstrap).imp_right fun h _ _ => h.exec_setpos⟩

end Safety

end Sys2Proof

/-!
What the frame discipline keeps (R186, R193, R199): the lines and RX stay where the ghost phase
says; and the reset input of TX, after which `INIT` brings both back between frames (R177, R179).
-/

namespace Sys2Proof

namespace Safety

open Machine

/-! ### The operations the discipline allows -/

/-- R186: an operation that is legal only between frames was issued there. -/
theorem fromIdle_eq_some {g next g' : TxPhase} (h : fromIdle g next = some g') :
    g = .idle ∧ g' = next := by
  unfold fromIdle at h
  split at h
  · next hg => exact ⟨hg, (Option.some.inj h).symm⟩
  · cases h

/-- What an operation that the discipline allows in phase `g` does: the state and the phase it
leaves. -/
inductive Transition (s : State) : TxPhase → TxPhase → State → Prop
  | start : Transition s .idle .raw (s.perform beginEvents)
  | openc : Transition s .idle .cmd (s.perform (opencEvents s.cfg))
  | opend : Transition s .idle .data (s.perform (opendEvents s.cfg))
  | byte {g : TxPhase} (hg : g ≠ .idle) (v : Byte) : Transition s g g (s.perform (sendbEvents v))
  | stop (g : TxPhase) : Transition s g .idle (s.perform endEvents)
  | init : Transition s .idle .idle ((s.perform initPinEvents).perform
      (frame (s.cfg.devAddr :: s.cfg.ctrlCmd :: s.cfg.cmdTable)))
  | frames (fs : List (List Byte)) : Transition s .idle .idle (s.perform (fs.flatMap frame))
  | flag (g : TxPhase) (b : Bool) : Transition s g g (s.setDinv b)

/-- Everything HOST can do while it keeps the frame discipline (R186). -/
theorem transition_of_exec {g g' : TxPhase} {i : Instr} {s t : State} (ha : after g i = some g')
    (h : exec i s = .next t) : Transition s g g' t := by
  cases exec_effect h with
  | start => obtain ⟨rfl, rfl⟩ := fromIdle_eq_some ha; exact .start
  | openc => obtain ⟨rfl, rfl⟩ := fromIdle_eq_some ha; exact .openc
  | opend => obtain ⟨rfl, rfl⟩ := fromIdle_eq_some ha; exact .opend
  | byte v =>
    obtain ⟨hg, rfl⟩ : g ≠ .idle ∧ g = g' := by simpa [after] using ha
    exact .byte hg v
  | pixel v =>
    obtain ⟨rfl, rfl⟩ : g = .data ∧ .data = g' := by simpa [after] using ha
    exact .byte (by decide) _
  | stop hi =>
    obtain rfl : .idle = g' := by rcases hi with rfl | rfl <;> exact Option.some.inj ha
    exact .stop g
  | init =>
    obtain ⟨rfl, rfl⟩ := fromIdle_eq_some ha
    rw [State.perform_append]
    exact .init
  | invdata f =>
    obtain rfl : g = g' := Option.some.inj ha
    exact .flag g _
  | frames hi _ hes =>
    obtain ⟨rfl, rfl⟩ := fromIdle_eq_some ((hi g).symm.trans ha)
    obtain ⟨fs, rfl, -⟩ := hes
    exact .frames fs

/-! ### The lines -/

/-- R55: between frames the pins are idle. -/
theorem pinsFit_idle {p : Pins} : pinsFit .idle p ↔ p = Pins.idle := by
  constructor
  · rintro ⟨h1, h2, h3, h4⟩
    exact Pins.ext h3 h4 h1 h2
  · rintro rfl
    exact ⟨rfl, rfl, rfl, rfl⟩

/-- R193: in every other phase the pins are those inside a frame. -/
theorem pinsFit_inFrame {g : TxPhase} {p : Pins} (hg : g ≠ .idle) (h : pinsFit g p) :
    p = Pins.inFrame p.latchSda := by
  obtain ⟨h1, h2, hlatch⟩ := h
  refine Pins.eq_inFrame h1 h2 ?_
  cases g with
  | idle => exact absurd rfl hg
  | cmd | data => exact hlatch.1
  | raw => exact hlatch

/-- R193: lines at (0,1) fit every phase with a frame open. -/
theorem pinsFit_inFrame_true {g : TxPhase} (hg : g ≠ .idle) : pinsFit g (Pins.inFrame true) := by
  cases g with
  | idle => exact absurd rfl hg
  | cmd | data => exact ⟨rfl, rfl, rfl, rfl⟩
  | raw => exact ⟨rfl, rfl, rfl⟩

/-- Whole frames begin and end on idle lines (R92). -/
theorem idle_applyAll_frames (fs : List (List Byte)) :
    Pins.idle.applyAll (fs.flatMap frame) = Pins.idle :=
  (applyAll_flatMap_frame fs Pins.idle).elim id id

/-- Settles O57: the pins after the events of each transition. -/
theorem disciplineKeepsTheLines : Obligations.DisciplineKeepsTheLines := by
  intro g g' i s t ha hfit h
  cases transition_of_exec ha h with
  | start =>
    rw [State.perform_pins, applyAll_begin, pinsFit_idle.mp hfit]
    exact ⟨rfl, rfl, rfl⟩
  | openc =>
    rw [State.perform_pins, applyAll_openc, pinsFit_idle.mp hfit]
    exact pinsFit_inFrame_true (by decide)
  | opend =>
    rw [State.perform_pins, applyAll_opend, pinsFit_idle.mp hfit]
    exact pinsFit_inFrame_true (by decide)
  | byte hg v =>
    rw [State.perform_pins, applyAll_sendb, pinsFit_inFrame hg hfit]
    exact pinsFit_inFrame_true hg
  | stop =>
    obtain ⟨h1, h2, -⟩ := hfit
    rw [State.perform_pins, applyAll_end]
    exact ⟨h1, h2, rfl, rfl⟩
  | init => rw [pinsFit_idle, State.perform_pins, State.perform_pins, applyAll_initPins,
      idle_applyAll_frame]
  | frames fs => rw [pinsFit_idle, State.perform_pins, pinsFit_idle.mp hfit, idle_applyAll_frames]
  | flag => exact hfit

/-! ### An RX whose state is unspecified -/

section Unspecified
variable {c : Config} {r : Rx} (hu : r.unspecified = true) (vs : List Byte)
include hu

/-- Byte cells show no STOP, so that an unspecified RX stays so (R58, R158). -/
theorem sends_unspecified {a : Bool} (hw : r.prev = frameLine a) :
    ((sendEvents vs).foldl (emit c) (Pins.inFrame a, r)).2.unspecified = true := by
  rw [sendEvents_cells]
  obtain ⟨y, b, hcells, hy, -⟩ :=
    bitCells_unspecified c (vs.flatMap fun v => bitsOf v ++ [true]) r a hu hw
  rw [hcells, hy]

/-- Nor does the START of a frame from idle lines (R86). -/
theorem begin_sends_unspecified (hw : r.prev = LineState.idle) :
    ((beginEvents ++ sendEvents vs).foldl (emit c) (Pins.idle, r)).2.unspecified = true := by
  obtain ⟨y, hbegin, hy, hyw⟩ := begin_unspecified c r hu hw
  rw [List.foldl_append, hbegin]
  exact sends_unspecified hy vs hyw

end Unspecified

/-! ### RX between two operations -/

/-- After a STOP RX fits the phase between frames (R146). -/
theorem rxFit_of_stop {r : Rx} (h : r.lost = true ∨ r.regs.phase = .idle) : rxFit .idle r := by
  intro hu
  rcases h with hlost | hphase
  · rw [Rx.lost_unspecified hlost] at hu
    cases hu
  · exact hphase

/-- R186: with a frame open RX is in one too, between two bytes. -/
theorem rxFit_inFrame {g : TxPhase} {r : Rx} (hg : g ≠ .idle) (h : rxFit g r)
    (hu : r.unspecified = false) : r.regs.phase ≠ .idle ∧ r.regs.slot = 0 := by
  have hfit := h hu
  cases g with
  | idle => exact absurd rfl hg
  | cmd | data =>
    obtain ⟨hphase, hslot⟩ := hfit
    exact ⟨by rw [hphase]; decide, hslot⟩
  | raw => exact hfit

/-- R144, R145: a byte that leaves RX specified leaves it in the frame it was in. -/
theorem rxFit_receive {g : TxPhase} {r : Rx} (hg : g ≠ .idle) (h : rxFit g r) {c : Config}
    {v : Byte} (hv : (r.receive c v).unspecified = false) : rxFit g (r.receive c v) := by
  have hu := Rx.receive_specified_of r c v hv
  obtain ⟨hopen, hslot⟩ := rxFit_inFrame hg h hu
  have hslot' : (r.receive c v).regs.slot = 0 := (Rx.receive_slot r c v hv).trans hslot
  have hfit := h hu
  intro _
  cases g with
  | idle => exact absurd rfl hg
  | cmd =>
    obtain ⟨hphase, -⟩ := hfit
    have hcmd : r.receive c v = r.commandByte c v := by simp only [Rx.receive, hphase]
    rw [hcmd] at hv hslot' ⊢
    exact ⟨(Rx.commandByte_phase r c v hv).trans hphase, hslot'⟩
  | data =>
    obtain ⟨hphase, -⟩ := hfit
    have hdata : r.receive c v = r.dataByte c.colOverflow v := by simp only [Rx.receive, hphase]
    rw [hdata] at hslot' ⊢
    exact ⟨(Rx.dataByte_phase r _ v).trans hphase, hslot'⟩
  | raw => exact ⟨Rx.receive_phase r c v hv hopen, hslot'⟩

section Receiver
variable {s : State} (hseen : s.rx.prev = s.pins.wire)
include hseen

/-- R140: a byte cell leaves RX in the frame it was in, between two bytes, or unspecified. -/
theorem rxFit_sendb {g : TxPhase} (hg : g ≠ .idle) (hpins : pinsFit g s.pins) (h : rxFit g s.rx)
    (v : Byte) : rxFit g (s.perform (sendbEvents v)).rx := by
  have hin := pinsFit_inFrame hg hpins
  have hw : s.rx.prev = frameLine s.pins.latchSda := by rw [hseen, hin, Pins.inFrame_wire]; rfl
  intro hspec
  rw [State.perform_rx, hin] at hspec ⊢
  cases hu : s.rx.unspecified with
  | true =>
    have hlost := sends_unspecified (c := s.cfg) hu [v] hw
    rw [sendEvents_cons, sendEvents_nil, List.append_nil, hspec] at hlost
    cases hlost
  | false =>
    obtain ⟨hopen, hslot⟩ := rxFit_inFrame hg h hu
    cases hv : (s.rx.receive s.cfg v).unspecified with
    | true =>
      rw [Rx.lost_unspecified (sendb_lost s.cfg s.rx v _ hu hopen hslot hw hv)] at hspec
      cases hspec
    | false =>
      rw [sendb_receive s.cfg s.rx v _ hu hopen hslot hw hv]
      have hfit := rxFit_receive hg h hv hv
      cases g with
      | idle => exact absurd rfl hg
      | cmd | data | raw =>
        obtain ⟨hphase, -⟩ := hfit
        exact ⟨hphase, rfl⟩

/-- R92, R146: a frame on driven lines leaves RX with no frame open, or unspecified for good. -/
theorem perform_frame_rx (h1 : s.pins.oeScl = true) (h2 : s.pins.oeSda = true) (f : List Byte) :
    (s.perform (frame f)).rx.lost = true ∨ (s.perform (frame f)).rx.regs.phase = .idle := by
  have hdriven : (s.pins.applyAll (beginEvents ++ sendEvents f)).oeScl = true ∧
      (s.pins.applyAll (beginEvents ++ sendEvents f)).oeSda = true := by
    rw [Pins.applyAll_append, applyAll_begin, applyAll_sends]
    split <;> exact ⟨h1, h2⟩
  obtain ⟨hscl, hsda⟩ := hdriven
  have hbefore := s.perform_prev (beginEvents ++ sendEvents f) hseen
  rw [← State.perform_pins] at hscl hsda hbefore
  rw [frame, State.perform_append]
  exact foldl_emit_stop s.cfg (_, _) hscl hsda hbefore

/-- R108: the command frame of `INIT` finds driven lines, whatever the lines before it. -/
theorem perform_init_rx (f : List Byte) :
    ((s.perform initPinEvents).perform (frame f)).rx.lost = true ∨
      ((s.perform initPinEvents).perform (frame f)).rx.regs.phase = .idle := by
  have hpins : (s.perform initPinEvents).pins = Pins.idle := by
    rw [State.perform_pins, applyAll_initPins]
  have hbefore := s.perform_prev initPinEvents hseen
  rw [← State.perform_pins] at hbefore
  exact perform_frame_rx hbefore (by rw [hpins]; rfl) (by rw [hpins]; rfl) f

section BetweenFrames
variable (hpins : s.pins = Pins.idle) (h : rxFit .idle s.rx)
include hpins h

/-- R138: the START of `BEGIN` opens a frame at RX. -/
theorem rxFit_begin : rxFit .raw (s.perform beginEvents).rx := by
  have hw : s.rx.prev = LineState.idle := by rw [hseen, hpins, Pins.idle_wire]
  intro hspec
  rw [State.perform_rx, hpins] at hspec ⊢
  cases hu : s.rx.unspecified with
  | true =>
    have hlost := begin_sends_unspecified (c := s.cfg) hu [] hw
    rw [sendEvents_nil, List.append_nil, hspec] at hlost
    cases hlost
  | false =>
    rw [Pins.idle, begin_opens s.cfg s.rx true true hu (h hu) hw]
    exact ⟨by simp, rfl⟩

/-- R142, R143: the opening of a frame brings an addressed RX to the phase its control byte selects,
unless it is unspecified. -/
theorem phase_after_opening {ctl : Byte} {ph : RxPhase} {es : List Event}
    (hstrap : s.cfg.strap = s.cfg.rxStrap)
    (hctl : ∀ x : Rx, x.controlByte s.cfg ctl = x.update fun g => { g with phase := ph })
    (hes : es = beginEvents ++ sendbEvents s.cfg.devAddr ++ sendbEvents ctl)
    (hspec : (s.perform es).rx.unspecified = false) :
    (s.perform es).rx.regs.phase = ph ∧ (s.perform es).rx.regs.slot = 0 := by
  have hw : s.rx.prev = LineState.idle := by rw [hseen, hpins, Pins.idle_wire]
  rw [State.perform_rx, hpins, hes] at hspec ⊢
  cases hu : s.rx.unspecified with
  | true =>
    have hlost := begin_sends_unspecified (c := s.cfg) hu [s.cfg.devAddr, ctl] hw
    rw [sendEvents_cons, sendEvents_cons, sendEvents_nil, List.append_nil, ← List.append_assoc,
      hspec] at hlost
    cases hlost
  | false =>
    rw [Pins.idle, open_frame ctl ph true true (devAddr_eq_rxAddr hstrap) hu (h hu) hw hctl]
    exact ⟨rfl, rfl⟩

/-- R93: a list of whole frames leaves RX between frames. -/
theorem rxFit_frames (fs : List (List Byte)) : rxFit .idle (s.perform (fs.flatMap frame)).rx := by
  rcases List.eq_nil_or_concat fs with rfl | ⟨fs, f, rfl⟩
  · exact h
  · have hbefore : (s.perform (fs.flatMap frame)).pins = Pins.idle := by
      rw [State.perform_pins, hpins, idle_applyAll_frames]
    have hseen' := s.perform_prev (fs.flatMap frame) hseen
    rw [← State.perform_pins] at hseen'
    rw [List.concat_eq_append, List.flatMap_append, List.flatMap_singleton, State.perform_append]
    exact rxFit_of_stop
      (perform_frame_rx hseen' (by rw [hbefore]; rfl) (by rw [hbefore]; rfl) f)

end BetweenFrames

end Receiver

/-- Settles O58: RX after the events of each transition; a STOP closes every frame, and the START,
the address and the control byte open one. -/
theorem receiverFollowsTheDiscipline : Obligations.ReceiverFollowsTheDiscipline := by
  intro g g' i s t hcfg hstrap ha hpins hseen hfit h
  have hctrl := Config.wf_ctrl hcfg
  cases transition_of_exec ha h with
  | start => exact rxFit_begin hseen (pinsFit_idle.mp hpins) hfit
  | openc =>
    exact phase_after_opening hseen (pinsFit_idle.mp hpins) hfit hstrap (ctrlCmd_selects hctrl) rfl
  | opend =>
    exact phase_after_opening hseen (pinsFit_idle.mp hpins) hfit hstrap (ctrlData_selects hctrl) rfl
  | byte hg v => exact rxFit_sendb hseen hg hpins hfit v
  | stop =>
    obtain ⟨h1, h2, -⟩ := hpins
    exact rxFit_of_stop (foldl_emit_stop s.cfg (s.pins, s.rx) h1 h2 hseen)
  | init => exact rxFit_of_stop (perform_init_rx hseen _)
  | frames fs => exact rxFit_frames hseen (pinsFit_idle.mp hpins) hfit fs
  | flag => exact hfit

/-! ### The reset input -/

/-- The reset input resets TX and shows RX the lines released (R177, R179). -/
theorem resetsTx_txReset (s : State) : ResetsTx s s.txReset where
  dinv := rfl
  trace := rfl
  oeScl := rfl
  oeSda := rfl
  wire := rfl
  rx := s.txReset_rx
  cfg := rfl
  ps := rfl
  inputs := rfl

/-- An operation cut into answers what becomes of the state the whole operation leaves. -/
theorem stepCut_of_exec {cut : State → State} {w : HostWord} {i : Instr} {s t : State}
    (hd : decodeHost w = .ok i) (h : exec i s = .next t) : stepCut cut w s = .next (cut t) := by
  have hdecode : decode s.cfg.ops (.host w) = .ok i := hd
  have hissue : stepIssue (.host w) s = .next t := (stepIssue_of_decode hdecode).trans h
  simp only [stepCut, hissue]

/-- A reset inside an operation is a reset of what its first `k` events leave (R179). -/
theorem resetAfter_exec {i : Instr} {s t : State} (h : exec i s = .next t) (k : Nat) :
    ∃ es, t.trace = s.trace ++ es ∧ s.resetAfter k t = (s.perform (es.take k)).txReset := by
  rcases exec_next h with ⟨es, rfl⟩ | ⟨f, -, rfl⟩
  · exact ⟨es, rfl, resetAfter_perform s k es⟩
  · exact ⟨[], by simp, by simp⟩

/-- After a reset `INIT` leaves the lines idle and RX with no frame open (R108, R110). -/
theorem ResetsTx.init {s t : State} (h : ResetsTx s t) :
    ∃ v, exec .init t = .next v ∧ v.pins = Pins.idle ∧
      (v.rx.lost = true ∨ v.rx.regs.phase = .idle) := by
  have hseen : t.rx.prev = t.pins.wire := by rw [h.rx, h.wire]
  refine ⟨_, exec_init t, exec_init_pins (exec_init t), ?_⟩
  rw [commandFrame_frame]
  exact perform_init_rx hseen _

/-- Settles O59: each reset is `State.txReset`, between two operations or after a prefix of the
events of one, and `INIT` ends with a STOP on driven lines. -/
theorem resetInputResetsTheTransmitterOnly : Obligations.ResetInputResetsTheTransmitterOnly := by
  refine ⟨fun s rest hs => ?_, fun s u k w i rest hs hd hexec => ?_, fun s t h => h.init⟩
  · exact ⟨_, by simp only [step, hs], resetsTx_txReset { s with inputs := rest }⟩
  · obtain ⟨es, htrace, hreset⟩ := resetAfter_exec hexec k
    refine ⟨es, _, htrace, ?_, resetsTx_txReset _⟩
    rw [← hreset]
    simp only [step, hs, stepResetDuring]
    exact stepCut_of_exec hd hexec

end Safety

end Sys2Proof
